-- ==== Sys2Proof/Word.lean ====
section
/-! DEFINITION. The word types of MADC. Bits are numbered from 0, the least significant (00_scope.md R11). -/

namespace Sys2Proof

/-- A machine word, a PDM word, a PCM sample, a configuration register: 32 bits (00_scope.md R7, `W`).
Its signed reading is `BitVec.toInt` (R11 `signed_32`). -/
abbrev Word := BitVec 32

/-- An operation word: 64 bits (30_encoding.md R118). -/
abbrev OpWord := BitVec 64

/-- A Stage-2 or Stage-3 accumulator: 72 bits, two's complement (30_encoding.md R107, `ACC23_BITS`). -/
abbrev Acc := BitVec 72

/-- The index of a half of the double buffer: one bit (30_encoding.md R109). -/
abbrev Half := Fin 2

end Sys2Proof
end

