-- ==== Sys2Proof/Config.lean ====
section
/-! DEFINITION. What the spec fixes once for the machine (00_scope.md R7, R9; sizes of 20_memory.md R70),
and the one free value. The configuration the HOST chooses (00_scope.md R8) is not here: it is state, in
the registers `CFG_*`. -/

namespace Sys2Proof.Config

/-- Stage-1 tap count (R7 `S1_TAPS`). -/
def s1Taps : Nat := 256

/-- Stage-1 decimation factor (R7 `S1_DEC`). -/
def s1Dec : Nat := 32

/-- Stage-1 output right shift, read by the host as 0 (10_state.md R42 `CFG_S1_SHR`, 41_stage1.md R163). -/
def s1Shr : Nat := 0

/-- Stage-1 history words per channel (R7 `S1_HIST_WORDS`). -/
def s1HistWords : Nat := 8

/-- Every Stage-1 history word after INIT (R9 `S1_HIST_INIT`). PRESUMED: the spec takes the pattern from
general knowledge (41_stage1.md R168), log 18. -/
def s1HistInit : Word := 0x55555555#32

/-- Slots of the block FIFO (R7 `FIFO_SLOTS`). -/
def fifoSlots : Nat := 2

/-- The credit BLKREQ writes (R7 `CREDIT_GRANT`). -/
def creditGrant : BitVec 2 := 1#2

/-- The DCOE pole `R = 252/256` (R7). -/
def dcoeNum : Int := 252
/-- The DCOE pole `R = 252/256` (R7). -/
def dcoeDen : Int := 256

/-- Words of one half of `BUF`, and of `OB`, in the largest configuration (20_memory.md R70). -/
def bufWords : Nat := 96

/-- Words of each coefficient memory (20_memory.md R70; R9 `TAPS_MAX`). -/
def coefWords : Nat := 256

/-- FREE VALUE (log 10). What FIRBLK takes as a channel's Stage-2 output when the last S2STEP of the block
emitted nothing: 46_control_sequencer.md R300 states no value there. Indexed by `State.freeTick` and by the
channel. It has no body: no proof can know it. -/
opaque freeSample : Nat → Nat → Word

end Sys2Proof.Config
end

