-- ==== Sys2Proof/Syntax.lean ====
section
/-! DEFINITION. The operations of MADC, one constructor per row of the operation map (30_encoding.md R120),
with the operands its format carries (R119, R121), as the raw numbers of the operation word. -/

namespace Sys2Proof

/-- The 25 operations. `a`, `b`, `imm` are the fields of the operation word (R118); a constructor has
exactly the fields its format uses. -/
inductive Instr where
  /-- Host: 70_reset_and_hazards.md R361. -/
  | reset
  /-- Host: 46_control_sequencer.md R281. `b` register index, `imm` value. -/
  | cfgwr (b : BitVec 16) (imm : Word)
  /-- Host: 46_control_sequencer.md R283. `b` register index. -/
  | csrrd (b : BitVec 16)
  /-- Host: 46_control_sequencer.md R285. `a` stage, `b` tap index, `imm` coefficient. -/
  | coefwr (a : BitVec 8) (b : BitVec 16) (imm : Word)
  /-- Host: 46_control_sequencer.md R288. -/
  | init
  /-- Host: 46_control_sequencer.md R290. -/
  | start
  /-- Host: 45_framing_transfer.md R257. -/
  | rxframe
  /-- Host: 45_framing_transfer.md R258. -/
  | rxframet
  /-- Host: 45_framing_transfer.md R260. -/
  | shutdown
  /-- Source: 44_pdm_rx_credit_fifo.md R212. `imm` the raw PDM word. -/
  | pdmword (imm : Word)
  /-- Producer: 44_pdm_rx_credit_fifo.md R221. -/
  | handoff
  /-- Producer: 44_pdm_rx_credit_fifo.md R224. -/
  | rxexit
  /-- Consumer: 44_pdm_rx_credit_fifo.md R226. -/
  | blkreq
  /-- Consumer: 44_pdm_rx_credit_fifo.md R228. -/
  | blkpop
  /-- Consumer: 40_deinterleave.md R141. -/
  | deint
  /-- Consumer: 40_deinterleave.md R150. -/
  | chsel
  /-- Consumer: 46_control_sequencer.md R300. -/
  | firblk
  /-- Unit: 41_stage1.md R162. `a` channel, `imm` channel PDM word. -/
  | s1step (a : BitVec 8) (imm : Word)
  /-- Unit: 42_stage23.md R177. `a` channel, `imm` input sample. -/
  | s2step (a : BitVec 8) (imm : Word)
  /-- Unit: 42_stage23.md R186. `a` channel, `imm` input sample. -/
  | s3step (a : BitVec 8) (imm : Word)
  /-- Consumer: 43_dcoe.md R197. -/
  | dcoe
  /-- Consumer: 45_framing_transfer.md R252. -/
  | frmadd
  /-- Consumer: 45_framing_transfer.md R255. -/
  | frmtx
  /-- Consumer: 45_framing_transfer.md R262. -/
  | unwind
  /-- Consumer: 45_framing_transfer.md R263. -/
  | drain
deriving DecidableEq, Repr

/-- The six operand formats (30_encoding.md R119). -/
inductive Format where
  | z | i | r | ri | ai | abi
deriving DecidableEq, Repr

/-- Who performs an operation (30_encoding.md R120, column "agent"). -/
inductive Agent where
  | host | source | producer | consumer | unit
deriving DecidableEq, Repr

end Sys2Proof
end

