-- ==== Sys2Proof/WellFormed.lean ====
section
/-! DEFINITION. Which operands name an operation: the reserved space of 30_encoding.md R125 (c). An
operation word with an ill-formed operand "names no operation". -/

namespace Sys2Proof

/-- The register indices 10_state.md R43 calls reserved: `0x06`, `0x07`, `0x14` to `0x1F`, `0x30` to `0x3F`,
`0x4E` and above. -/
def reservedIndex (b : BitVec 16) : Bool :=
  b == 0x06#16 || b == 0x07#16 ||
  (decide (0x14 ≤ b.toNat) && decide (b.toNat ≤ 0x1F)) ||
  (decide (0x30 ≤ b.toNat) && decide (b.toNat ≤ 0x3F)) ||
  decide (0x4E ≤ b.toNat)

/-- A stage operand of COEFWR: 1, 2 or 3 (30_encoding.md R121, R125). -/
def legalStage (a : BitVec 8) : Bool := a == 1#8 || a == 2#8 || a == 3#8

/-- A tap index of COEFWR: 0 to 255 (30_encoding.md R121, R125). -/
def legalTap (b : BitVec 16) : Bool := decide (b.toNat ≤ 255)

/-- A channel operand of S1STEP, S2STEP, S3STEP: 0 to 15 (30_encoding.md R121, R125). -/
def legalChannel (a : BitVec 8) : Bool := decide (a.toNat ≤ 15)

/-- The operands are none of those 30_encoding.md R125 (c) reserves. -/
def Instr.wellFormed : Instr → Bool
  | .cfgwr b _ => !reservedIndex b
  | .csrrd b => !reservedIndex b
  | .coefwr a b _ => legalStage a && legalTap b
  | .s1step a _ => legalChannel a
  | .s2step a _ => legalChannel a
  | .s3step a _ => legalChannel a
  | .reset => true
  | .init => true
  | .start => true
  | .rxframe => true
  | .rxframet => true
  | .shutdown => true
  | .pdmword _ => true
  | .handoff => true
  | .rxexit => true
  | .blkreq => true
  | .blkpop => true
  | .deint => true
  | .chsel => true
  | .firblk => true
  | .dcoe => true
  | .frmadd => true
  | .frmtx => true
  | .unwind => true
  | .drain => true

end Sys2Proof
end

