-- ==== Sys2Proof/Decode.lean ====
section
/-! DEFINITION. The decoder of operation words, total and rejecting by name (30_encoding.md R118 to R121,
R125), and after it the encoder, written from the same tables. -/

namespace Sys2Proof

/-- Bits 63:56 (R118). -/
def opOf (w : OpWord) : BitVec 8 := w.extractLsb' 56 8
/-- Bits 55:48 (R118). -/
def aOf (w : OpWord) : BitVec 8 := w.extractLsb' 48 8
/-- Bits 47:32 (R118). -/
def bOf (w : OpWord) : BitVec 16 := w.extractLsb' 32 16
/-- Bits 31:0 (R118). -/
def immOf (w : OpWord) : Word := w.extractLsb' 0 32

/-- The bits that must match, per format (R119). -/
def Format.mask : Format → OpWord
  | .z => 0xFFFFFFFFFFFFFFFF#64
  | .i => 0xFFFFFFFF00000000#64
  | .r => 0xFFFF0000FFFFFFFF#64
  | .ri => 0xFFFF000000000000#64
  | .ai => 0xFF00FFFF00000000#64
  | .abi => 0xFF00000000000000#64

/-- The operation map (R120): the format an operation code has and the operation it names with the operand
fields `a`, `b`, `imm` (R121); `none` for a code R120 does not list (R125 (a)). -/
def operationMap (op : Nat) (a : BitVec 8) (b : BitVec 16) (imm : Word) : Option (Format × Instr) :=
  match op with
  | 0x01 => some (.z, .reset)
  | 0x02 => some (.ri, .cfgwr b imm)
  | 0x03 => some (.r, .csrrd b)
  | 0x04 => some (.abi, .coefwr a b imm)
  | 0x05 => some (.z, .init)
  | 0x06 => some (.z, .start)
  | 0x07 => some (.z, .rxframe)
  | 0x08 => some (.z, .rxframet)
  | 0x09 => some (.z, .shutdown)
  | 0x10 => some (.i, .pdmword imm)
  | 0x11 => some (.z, .handoff)
  | 0x12 => some (.z, .rxexit)
  | 0x20 => some (.z, .blkreq)
  | 0x21 => some (.z, .blkpop)
  | 0x22 => some (.z, .deint)
  | 0x23 => some (.z, .chsel)
  | 0x24 => some (.z, .firblk)
  | 0x25 => some (.ai, .s1step a imm)
  | 0x26 => some (.ai, .s2step a imm)
  | 0x27 => some (.ai, .s3step a imm)
  | 0x28 => some (.z, .dcoe)
  | 0x29 => some (.z, .frmadd)
  | 0x2A => some (.z, .frmtx)
  | 0x2B => some (.z, .unwind)
  | 0x2C => some (.z, .drain)
  | _ => none

/-- Why a word names no operation (R125). -/
inductive DecodeError where
  /-- R125 (a): an `op` value R120 does not list. -/
  | reservedOp
  /-- R125 (b): a field the format does not use is not 0. -/
  | nonzeroUnusedField
  /-- R125 (c): an operand outside its range. -/
  | operandOutOfRange
deriving DecidableEq, Repr

/-- The decoder. The unused-field test compares the word, under the format's mask, with the operation word
with all operands 0 (R119, R120 `match`). -/
def decode (w : OpWord) : Except DecodeError Instr :=
  match operationMap (opOf w).toNat (aOf w) (bOf w) (immOf w) with
  | none => .error .reservedOp
  | some (f, i) =>
    if w &&& f.mask ≠ (opOf w).setWidth 64 <<< 56 then .error .nonzeroUnusedField
    else if i.wellFormed then .ok i
    else .error .operandOutOfRange

/-- The operation word with the given fields (R118). -/
def makeWord (op : BitVec 8) (a : BitVec 8) (b : BitVec 16) (imm : Word) : OpWord :=
  op ++ a ++ b ++ imm

/-- The encoder: the word of an operation, unused fields 0 (R118 to R121). -/
def encode : Instr → OpWord
  | .reset => makeWord 0x01 0 0 0
  | .cfgwr b imm => makeWord 0x02 0 b imm
  | .csrrd b => makeWord 0x03 0 b 0
  | .coefwr a b imm => makeWord 0x04 a b imm
  | .init => makeWord 0x05 0 0 0
  | .start => makeWord 0x06 0 0 0
  | .rxframe => makeWord 0x07 0 0 0
  | .rxframet => makeWord 0x08 0 0 0
  | .shutdown => makeWord 0x09 0 0 0
  | .pdmword imm => makeWord 0x10 0 0 imm
  | .handoff => makeWord 0x11 0 0 0
  | .rxexit => makeWord 0x12 0 0 0
  | .blkreq => makeWord 0x20 0 0 0
  | .blkpop => makeWord 0x21 0 0 0
  | .deint => makeWord 0x22 0 0 0
  | .chsel => makeWord 0x23 0 0 0
  | .firblk => makeWord 0x24 0 0 0
  | .s1step a imm => makeWord 0x25 a 0 imm
  | .s2step a imm => makeWord 0x26 a 0 imm
  | .s3step a imm => makeWord 0x27 a 0 imm
  | .dcoe => makeWord 0x28 0 0 0
  | .frmadd => makeWord 0x29 0 0 0
  | .frmtx => makeWord 0x2A 0 0 0
  | .unwind => makeWord 0x2B 0 0 0
  | .drain => makeWord 0x2C 0 0 0

/-- The instruction the decoder reads from a table word: the operation word is one 64-bit word, and the
bits the table does not give are 0. -/
def decodeTableWord (nbits w : Nat) : Option Instr :=
  match decode (BitVec.ofNat 64 (w % 2 ^ nbits)) with
  | .ok i => some i
  | .error _ => none

end Sys2Proof
end

