-- ==== Sys2Proof/Machine/State.lean ====
section
/-! DEFINITION. The state of MADC (10_state.md R20 to R43, 20_memory.md R70), its faults and refusals, and
its value after reset (10_state.md R60). Plain data. -/

namespace Sys2Proof.Machine

/-- `RX_STATE` (10_state.md R28): the five states of the producer. -/
inductive RxState where
  | idle | armed | running | shuttingDown | stopped
deriving DecidableEq, Repr

/-- `CSEQ` (10_state.md R29): the position in the orchestrator loop, `C_OFF` to `C_DRAIN`. -/
inductive CSeq where
  | off | req | wait | deint | chsel | fir | dcoe | frmadd | frmtx | unwind | drain
deriving DecidableEq, Repr

/-- `HOST_PEND` (10_state.md R36): which link command of the host is waiting. -/
inductive HostPend where
  | none | rxframe | rxframet | shutdown
deriving DecidableEq, Repr

/-- An ownership tag `OWN[h]` (10_state.md R33): `P`, `Q`, `C`. -/
inductive Owner where
  /-- `P`: the producer may write the half. -/
  | producer
  /-- `Q`: the half's index is in the FIFO. -/
  | queued
  /-- `C`: the consumer popped the half and has not released it. -/
  | consumer
deriving DecidableEq, Repr

/-- A word memory (20_memory.md R70): the words that were written, as (word index, word) pairs with
strictly rising indices. A word not listed has no value (10_state.md R60: "the model must treat the cell as
holding no value"). Words, not bytes: 20_memory.md R78 "A model holds words as 32-bit values and never as
bytes" (log 4, log 5). -/
abbrev Memory := List (Nat × Word)

/-- The configuration of one FIR stage: `CFG_Sx_TAPS`, `_DEC`, `_SHR`, `_SW` (10_state.md R42). -/
structure StageRegs where
  taps : Word
  dec : Word
  shr : Word
  sw : Word
deriving DecidableEq, Repr

/-- The writable configuration registers (10_state.md R42), 32 bits each, holding whatever was written. -/
structure CfgRegs where
  nIn : Word
  nOut : Word
  nStages : Word
  ctrl : Word
  spf : Word
  nfb : Word
  s2 : StageRegs
  s3 : StageRegs
  chmap : Vector Word 16
deriving DecidableEq, Repr

/-- The state of one channel's Stage 2 or Stage 3 (10_state.md R22, R23): history `X`, newest first;
accumulator `ACC`; phase `PH` (3 bits: DEDUCED from its range 0 to 5, log 14). -/
structure FirState where
  x : Vector Word 256
  acc : Acc
  ph : BitVec 3
deriving DecidableEq, Repr

/-- The datapath registers of one logical channel (10_state.md R21 to R25). -/
structure Channel where
  /-- `H1[c][0..7]`, newest word first (41_stage1.md R160). -/
  h1 : Vector Word 8
  /-- `X2[c]`, `ACC2[c]`, `PH2[c]`. -/
  st2 : FirState
  /-- `X3[c]`, `ACC3[c]`, `PH3[c]`. -/
  st3 : FirState
  /-- `DC_ACC[c]` (30_encoding.md R108). -/
  dcAcc : BitVec 64
  /-- `DC_PREVX[c]` (10_state.md R24). -/
  dcPrevX : Word
  /-- `SMP[c]` (10_state.md R25). -/
  smp : Word
deriving DecidableEq, Repr

/-- A symbol of the frame link (30_encoding.md R112). -/
inductive LinkSymbol where
  /-- MADC to host: the end-of-message control marker. -/
  | eom
  /-- MADC to host: a 32-bit data word. -/
  | data (w : Word)
  /-- Host to MADC: the continue byte. -/
  | cont
  /-- Host to MADC: the shutdown acknowledgment. -/
  | sdack
  /-- Host to MADC: the acknowledgment of the closing marker. -/
  | ack
deriving DecidableEq, Repr

/-- A value MADC gives back to who invoked an operation ("return to host", `emit`: 00_scope.md R12). -/
inductive Returned where
  /-- The result of a CSRRD (46_control_sequencer.md R283). -/
  | csr (v : Word)
  /-- The frame a RXFRAME or RXFRAMET receives (45_framing_transfer.md R255). -/
  | frame (ws : List Word)
  /-- A SHUTDOWN returns; it carries nothing (45_framing_transfer.md R260, R263). -/
  | shutdownDone
  /-- What a unit operation S1STEP, S2STEP or S3STEP emitted; `none` is "emit nothing". -/
  | sample (y : Option Word)
deriving DecidableEq, Repr

/-- The state of MADC. The last four fields are the MODEL's own (log 1, log 10, log 11, log 12): inputs
and results of steps, which 10_state.md R20 keeps out of the machine's state. -/
structure State where
  /-- `RX_STATE` (R28). -/
  rxState : RxState
  /-- `WR_POS` (R28). -/
  wrPos : BitVec 8
  /-- `FILL_SEL` (R28). -/
  fillSel : Half
  /-- `CSEQ` (R29). -/
  cseq : CSeq
  /-- `CUR` (R29). -/
  cur : Half
  /-- `CREDIT` (R31). -/
  credit : BitVec 2
  /-- `FIFO`, head first; `FIFO_LEVEL` is its length (R32). -/
  fifo : List Half
  /-- `OWN[0]`, `OWN[1]` (R33). -/
  own : Vector Owner 2
  /-- `HO_PEND` (R34). -/
  hoPend : Bool
  /-- `HO_HALF` (R34). -/
  hoHalf : Half
  /-- `RX_SD_FLAG` (R35). -/
  rxSdFlag : Bool
  /-- `HOST_PEND` (R36). -/
  hostPend : HostPend
  /-- `DROP_COUNT` (R37). -/
  dropCount : Word
  /-- `FRM_COL` (R38). -/
  frmCol : BitVec 16
  /-- `FRM_BUF` (R38). -/
  frmBuf : BitVec 8
  /-- `STATUS`, the five bits used (R40). -/
  status : BitVec 5
  /-- `FATAL_CAUSE` (R41). -/
  fatalCause : BitVec 8
  /-- The writable `CFG_*` registers (R42). -/
  cfg : CfgRegs
  /-- `SMP_VALID` (R25). -/
  smpValid : Bool
  /-- The per-channel datapath registers (R21 to R25), 16 channels. -/
  ch : Vector Channel 16
  /-- `BUF[0]`, `BUF[1]` (20_memory.md R70). -/
  buf : Vector Memory 2
  /-- `OB` (20_memory.md R70). -/
  ob : Memory
  /-- `COEF1` (20_memory.md R70). -/
  coef1 : Memory
  /-- `COEF2` (20_memory.md R70). -/
  coef2 : Memory
  /-- `COEF3` (20_memory.md R70). -/
  coef3 : Memory
  /-- `FRM`, by flat index (20_memory.md R70). -/
  frm : Memory
  /-- MODEL's own: the operation words the environment and the schedule present next, in order. -/
  agenda : List OpWord
  /-- MODEL's own: the values returned so far, oldest first. -/
  returned : List Returned
  /-- MODEL's own: the symbols exchanged on the frame link so far, oldest first. -/
  link : List LinkSymbol
  /-- MODEL's own: numbers the uses of the free value `Config.freeSample`. -/
  freeTick : Nat
deriving DecidableEq, Repr

/-- The memory spaces of 20_memory.md R70, to name the memory a fault concerns. -/
inductive Space where
  | buf | ob | coef1 | coef2 | coef3 | frm
deriving DecidableEq, Repr

/-- Why a step has no successor. -/
inductive Fault where
  /-- `fault(HOST_MISUSE)` (60_exceptions.md R330, 45_framing_transfer.md R261): raised by RXFRAME, RXFRAMET
  and SHUTDOWN while `HOST_PEND` is not 0. The source calls the behaviour undefined. Safe. -/
  | hostMisuse
  /-- `fault(UNINIT)` (60_exceptions.md R330): raised by S1STEP, S2STEP, S3STEP, DEINT, CHSEL, FIRBLK and
  FRMTX that read a memory word nothing has written (10_state.md R60). Safe. -/
  | uninit (m : Space)
  /-- An index outside an array: 20_memory.md R79 "cannot arise from any rule; a model may assert it".
  Raised by the operations that access memories and channels, in states no run reaches. Safe (log 13). -/
  | badIndex (m : Space)
  /-- A channel number above 15 in a loop over `N_OUT` channels: only in states where `CFG_N_OUT` exceeds
  16 past INIT, which no run reaches. Safe (log 13). -/
  | badChannel
deriving DecidableEq, Repr

/-- Why there is no operation to perform. -/
inductive Refusal where
  /-- An operation without a meaning in this model. No arm of `exec` answers it. Safe. -/
  | notModelled (mnemonic : String)
  /-- A reserved operation word (30_encoding.md R125): the decoder returns invalid and the model refuses
  it. Raised by `step`. Safe. -/
  | reservedWord (e : DecodeError)
  /-- An operation term with an operand 30_encoding.md R125 (c) reserves, given to `exec` directly; no
  word decodes to one. Raised by CFGWR, CSRRD, COEFWR, S1STEP, S2STEP, S3STEP. Safe. -/
  | reservedOperand
deriving DecidableEq, Repr

/-- One stage's configuration registers after RESET (10_state.md R42). -/
def StageRegs.reset : StageRegs := { taps := 0, dec := 0, shr := 0, sw := 0 }

/-- The configuration registers after RESET: 0, and `CFG_CHMAP[c] = c` (10_state.md R60). -/
def CfgRegs.reset : CfgRegs :=
  { nIn := 0, nOut := 0, nStages := 0, ctrl := 0, spf := 0, nfb := 0,
    s2 := StageRegs.reset, s3 := StageRegs.reset,
    chmap := Vector.ofFn fun c => BitVec.ofNat 32 c.val }

/-- A stage with history, accumulator and phase 0: its value after INIT (10_state.md R60), and the value
the model names for the unspecified one after RESET (DESIGN CHOICE, log 6). -/
def FirState.zero : FirState := { x := Vector.replicate 256 0, acc := 0, ph := 0 }

/-- The datapath registers after RESET: the spec leaves them unspecified, the model names 0 (DESIGN
CHOICE, log 6). -/
def Channel.reset : Channel :=
  { h1 := Vector.replicate 8 0, st2 := FirState.zero, st3 := FirState.zero,
    dcAcc := 0, dcPrevX := 0, smp := 0 }

/-- The state after RESET (10_state.md R60, 70_reset_and_hazards.md R361, R362). -/
def State.reset : State :=
  { rxState := .idle, wrPos := 0, fillSel := 0, cseq := .off, cur := 0, credit := 0, fifo := [],
    own := Vector.replicate 2 .producer, hoPend := false, hoHalf := 0, rxSdFlag := false,
    hostPend := .none, dropCount := 0, frmCol := 0, frmBuf := 0, status := 0, fatalCause := 0,
    cfg := CfgRegs.reset, smpValid := false, ch := Vector.replicate 16 Channel.reset,
    buf := Vector.replicate 2 [], ob := [], coef1 := [], coef2 := [], coef3 := [], frm := [],
    agenda := [], returned := [], link := [], freeTick := 0 }

end Sys2Proof.Machine
end

