-- ==== Sys2Proof/Machine/Flags.lean ====
section
/-! DEFINITION. The status flags (10_state.md R40), the fatal causes (60_exceptions.md R323), and the numeric
functions that decide a flag: rounding shift, saturation, wrap. -/

namespace Sys2Proof.Machine

/-- The bits of `STATUS` (10_state.md R40). -/
inductive Flag where
  | fatal | overrun | s2sat | s3sat | dcovf
deriving DecidableEq, Repr

/-- The bit number of a flag in `STATUS` (10_state.md R40). -/
def Flag.bit : Flag → Nat
  | .fatal => 0
  | .overrun => 1
  | .s2sat => 2
  | .s3sat => 3
  | .dcovf => 4

/-- A flag of `STATUS`. -/
def State.flag (s : State) (f : Flag) : Bool := s.status.getLsbD f.bit

/-- `STATUS.<f> <- 1` when `b`: the flags are sticky, nothing here clears one (10_state.md R40). -/
def State.raiseFlag (s : State) (f : Flag) (b : Bool) : State :=
  { s with status := if b then s.status ||| (1#5 <<< f.bit) else s.status }

/-- `STATUS.FATAL` (10_state.md R40, 60_exceptions.md R322). -/
def State.fatal (s : State) : Bool := s.flag .fatal

/-- The causes of a fatal stop (60_exceptions.md R323). -/
inductive Cause where
  | droppedBlock | badNIn | badNOut | badChmap | badNStages | badS2Dec | badS2Taps | badS2Shr
  | badS3Dec | badS3Taps | badS3Shr | badSpf | badNfb | badCtrl
deriving DecidableEq, Repr

/-- The code of a cause (60_exceptions.md R323). -/
def Cause.code : Cause → BitVec 8
  | .droppedBlock => 0x01
  | .badNIn => 0x10
  | .badNOut => 0x11
  | .badChmap => 0x12
  | .badNStages => 0x13
  | .badS2Dec => 0x14
  | .badS2Taps => 0x15
  | .badS2Shr => 0x16
  | .badS3Dec => 0x17
  | .badS3Taps => 0x18
  | .badS3Shr => 0x19
  | .badSpf => 0x1A
  | .badNfb => 0x1B
  | .badCtrl => 0x1C

/-- The rounding shift `rshr(z, n)` (42_stage23.md R181): add half of the unit shifted out, then floor. -/
def rshr (z : Int) (n : Nat) : Int :=
  if n = 0 then z else (z + 2 ^ (n - 1)) / 2 ^ n

/-- `sat32(z)` (00_scope.md R11, 42_stage23.md R182). -/
def sat32 (z : Int) : Int := max (-2 ^ 31) (min (2 ^ 31 - 1) z)

/-- The clamped output of a stage, and whether clamping changed the value (42_stage23.md R182). -/
def clamp (z : Int) : Word × Bool := (BitVec.ofInt 32 (sat32 z), decide (sat32 z ≠ z))

end Sys2Proof.Machine
end

