-- ==== Sys2Proof/Machine/Operands.lean ====
section
/-! DEFINITION. Every operand form: register indices (10_state.md R42, R43), stages, taps, channels and
immediates (30_encoding.md R119, R121), and the named parameters the configuration registers hold
(00_scope.md R8, R10). -/

namespace Sys2Proof.Machine

/-- A writable configuration register (10_state.md R42). -/
inductive CfgReg where
  | nIn | nOut | nStages | ctrl | spf | nfb
  | s2Taps | s2Dec | s2Shr | s2Sw | s3Taps | s3Dec | s3Shr | s3Sw
  | chmap (c : Fin 16)
deriving DecidableEq, Repr

/-- A register CSRRD can name (10_state.md R42, R43): a writable configuration register, one of the four
read-only Stage-1 constants, or a view of state. -/
inductive Reg where
  | cfg (r : CfgReg)
  | s1Taps | s1Dec | s1Shr | s1Sw
  | rxState | wrPos | fillSel | fifoLevel | credit | dropCount | status | fatalCause
  | cseq | frmCol | frmBuf | rxSdFlag | hoPend | hostPend
deriving DecidableEq, Repr

/-- The register at an index (10_state.md R42, R43); `none` for a reserved index. -/
def regOfIndex (b : BitVec 16) : Option Reg :=
  match b.toNat with
  | 0x00 => some (.cfg .nIn)
  | 0x01 => some (.cfg .nOut)
  | 0x02 => some (.cfg .nStages)
  | 0x03 => some (.cfg .ctrl)
  | 0x04 => some (.cfg .spf)
  | 0x05 => some (.cfg .nfb)
  | 0x08 => some .s1Taps
  | 0x09 => some .s1Dec
  | 0x0A => some .s1Shr
  | 0x0B => some .s1Sw
  | 0x0C => some (.cfg .s2Taps)
  | 0x0D => some (.cfg .s2Dec)
  | 0x0E => some (.cfg .s2Shr)
  | 0x0F => some (.cfg .s2Sw)
  | 0x10 => some (.cfg .s3Taps)
  | 0x11 => some (.cfg .s3Dec)
  | 0x12 => some (.cfg .s3Shr)
  | 0x13 => some (.cfg .s3Sw)
  | 0x40 => some .rxState
  | 0x41 => some .wrPos
  | 0x42 => some .fillSel
  | 0x43 => some .fifoLevel
  | 0x44 => some .credit
  | 0x45 => some .dropCount
  | 0x46 => some .status
  | 0x47 => some .fatalCause
  | 0x48 => some .cseq
  | 0x49 => some .frmCol
  | 0x4A => some .frmBuf
  | 0x4B => some .rxSdFlag
  | 0x4C => some .hoPend
  | 0x4D => some .hostPend
  | n => if h : n - 0x20 < 16 ∧ 0x20 ≤ n then some (.cfg (.chmap ⟨n - 0x20, h.1⟩)) else none

/-- The code of a producer state (10_state.md R28). -/
def RxState.code : RxState → Word
  | .idle => 0 | .armed => 1 | .running => 2 | .shuttingDown => 3 | .stopped => 4

/-- The code of a consumer state (10_state.md R29). -/
def CSeq.code : CSeq → Word
  | .off => 0 | .req => 1 | .wait => 2 | .deint => 3 | .chsel => 4 | .fir => 5 | .dcoe => 6
  | .frmadd => 7 | .frmtx => 8 | .unwind => 9 | .drain => 10

/-- The code of the host link state (10_state.md R36). -/
def HostPend.code : HostPend → Word
  | .none => 0 | .rxframe => 1 | .rxframet => 2 | .shutdown => 3

/-- Reads a writable configuration register: "reads back the last value written, legal or not"
(46_control_sequencer.md R283). -/
def CfgRegs.read (c : CfgRegs) : CfgReg → Word
  | .nIn => c.nIn
  | .nOut => c.nOut
  | .nStages => c.nStages
  | .ctrl => c.ctrl
  | .spf => c.spf
  | .nfb => c.nfb
  | .s2Taps => c.s2.taps
  | .s2Dec => c.s2.dec
  | .s2Shr => c.s2.shr
  | .s2Sw => c.s2.sw
  | .s3Taps => c.s3.taps
  | .s3Dec => c.s3.dec
  | .s3Shr => c.s3.shr
  | .s3Sw => c.s3.sw
  | .chmap k => c.chmap[k]

/-- Writes a writable configuration register, all 32 bits, unchecked (46_control_sequencer.md R281). -/
def CfgRegs.write (c : CfgRegs) (v : Word) : CfgReg → CfgRegs
  | .nIn => { c with nIn := v }
  | .nOut => { c with nOut := v }
  | .nStages => { c with nStages := v }
  | .ctrl => { c with ctrl := v }
  | .spf => { c with spf := v }
  | .nfb => { c with nfb := v }
  | .s2Taps => { c with s2 := { c.s2 with taps := v } }
  | .s2Dec => { c with s2 := { c.s2 with dec := v } }
  | .s2Shr => { c with s2 := { c.s2 with shr := v } }
  | .s2Sw => { c with s2 := { c.s2 with sw := v } }
  | .s3Taps => { c with s3 := { c.s3 with taps := v } }
  | .s3Dec => { c with s3 := { c.s3 with dec := v } }
  | .s3Shr => { c with s3 := { c.s3 with shr := v } }
  | .s3Sw => { c with s3 := { c.s3 with sw := v } }
  | .chmap k => { c with chmap := c.chmap.set k v }

/-- Reads a register, zero-extended to 32 bits (10_state.md R42, R43). The Stage-1 registers are hard-wired
(log 16). -/
def readReg (s : State) : Reg → Word
  | .cfg r => s.cfg.read r
  | .s1Taps => BitVec.ofNat 32 Config.s1Taps
  | .s1Dec => BitVec.ofNat 32 Config.s1Dec
  | .s1Shr => BitVec.ofNat 32 Config.s1Shr
  | .s1Sw => BitVec.ofNat 32 Config.s1HistWords
  | .rxState => s.rxState.code
  | .wrPos => s.wrPos.setWidth 32
  | .fillSel => BitVec.ofNat 32 s.fillSel.val
  | .fifoLevel => BitVec.ofNat 32 s.fifo.length
  | .credit => s.credit.setWidth 32
  | .dropCount => s.dropCount
  | .status => s.status.setWidth 32
  | .fatalCause => s.fatalCause.setWidth 32
  | .cseq => s.cseq.code
  | .frmCol => s.frmCol.setWidth 32
  | .frmBuf => s.frmBuf.setWidth 32
  | .rxSdFlag => (BitVec.ofBool s.rxSdFlag).setWidth 32
  | .hoPend => (BitVec.ofBool s.hoPend).setWidth 32
  | .hostPend => s.hostPend.code

/-- A host write to a register: configuration registers take the value, read-only ones do nothing
(46_control_sequencer.md R281). -/
def writeReg (s : State) (v : Word) : Reg → State
  | .cfg r => { s with cfg := s.cfg.write v r }
  | _ => s

/-- A coefficient stage (30_encoding.md R121). -/
inductive Stage where
  | one | two | three
deriving DecidableEq, Repr

/-- The stage operand of COEFWR (30_encoding.md R121, R125 (c)). -/
def stageOf (a : BitVec 8) : Option Stage :=
  match a.toNat with
  | 1 => some .one
  | 2 => some .two
  | 3 => some .three
  | _ => none

/-- The tap operand of COEFWR (30_encoding.md R121, R125 (c)). -/
def tapOf (b : BitVec 16) : Option Nat := if b.toNat < Config.coefWords then some b.toNat else none

/-- The channel operand of a unit operation (30_encoding.md R121, R125 (c)). -/
def channelOf (a : BitVec 8) : Option (Fin 16) := if h : a.toNat < 16 then some ⟨a.toNat, h⟩ else none

/-- The coefficient COEFWR stores for a stage (30_encoding.md R105, R106, R119): `sext_16(imm[15:0])` for
stage 1, `imm` unchanged for stages 2 and 3. -/
def coefOperand (st : Stage) (imm : Word) : Word :=
  match st with
  | .one => (imm.setWidth 16).signExtend 32
  | .two => imm
  | .three => imm

/-- `N_IN` (00_scope.md R8). -/
def CfgRegs.N_IN (c : CfgRegs) : Nat := c.nIn.toNat
/-- `N_OUT` (00_scope.md R8). -/
def CfgRegs.N_OUT (c : CfgRegs) : Nat := c.nOut.toNat
/-- `N_STAGES` (00_scope.md R8). -/
def CfgRegs.N_STAGES (c : CfgRegs) : Nat := c.nStages.toNat
/-- `SPF` (00_scope.md R8). -/
def CfgRegs.SPF (c : CfgRegs) : Nat := c.spf.toNat
/-- `NFB` (00_scope.md R8). -/
def CfgRegs.NFB (c : CfgRegs) : Nat := c.nfb.toNat
/-- `D2` (00_scope.md R8). -/
def CfgRegs.D2 (c : CfgRegs) : Nat := c.s2.dec.toNat
/-- `T2` (00_scope.md R8). -/
def CfgRegs.T2 (c : CfgRegs) : Nat := c.s2.taps.toNat
/-- `D3` (00_scope.md R8). -/
def CfgRegs.D3 (c : CfgRegs) : Nat := c.s3.dec.toNat
/-- `T3` (00_scope.md R8). -/
def CfgRegs.T3 (c : CfgRegs) : Nat := c.s3.taps.toNat
/-- `RX_MODE = 1`, thread-driven (00_scope.md R8, `CFG_CTRL[0]`). -/
def CfgRegs.threadMode (c : CfgRegs) : Bool := c.ctrl.getLsbD 0
/-- `DROP_POLICY = 1`, count and drop (00_scope.md R8, `CFG_CTRL[1]`). -/
def CfgRegs.countAndDrop (c : CfgRegs) : Bool := c.ctrl.getLsbD 1
/-- `DCOE_EN` (00_scope.md R8, `CFG_CTRL[2]`). -/
def CfgRegs.dcoeEn (c : CfgRegs) : Bool := c.ctrl.getLsbD 2

/-- `BW = N_IN * D2`, words in a block (00_scope.md R10). -/
def CfgRegs.BW (c : CfgRegs) : Nat := c.N_IN * c.D2
/-- `OBW = N_OUT * D2` (00_scope.md R10). -/
def CfgRegs.OBW (c : CfgRegs) : Nat := c.N_OUT * c.D2
/-- `FW = N_OUT * SPF`, words in a frame (00_scope.md R10). -/
def CfgRegs.FW (c : CfgRegs) : Nat := c.N_OUT * c.SPF

/-- The flat index of `FRM[b][c][s]` (20_memory.md R70). -/
def CfgRegs.frmIndex (g : CfgRegs) (b c s : Nat) : Nat := b * g.FW + c * g.SPF + s

/-- The capacity of `FRM`, "sized from the configuration" (20_memory.md R70): `NFB` frames. -/
def CfgRegs.frmWords (c : CfgRegs) : Nat := c.NFB * c.FW

end Sys2Proof.Machine
end

