-- ==== Sys2Proof/Machine/Ops.lean ====
section
/-! DEFINITION. The shared operations: memory words, loops, channels, the fatal stop, the block FIFO, the
enabling conditions, what is returned to the host, and the fetch of the next operation word. -/

namespace Sys2Proof.Machine

/-! ### Memory words (20_memory.md R70, R80; 00_scope.md R12) -/

/-- The word at an index, `none` when nothing has written it (10_state.md R60). -/
def Memory.read : Memory → Nat → Option Word
  | [], _ => none
  | (a, v) :: m, i => if i = a then some v else Memory.read m i

/-- The memory after a word is written; the list stays strictly rising. -/
def Memory.write : Memory → Nat → Word → Memory
  | [], i, v => [(i, v)]
  | (a, x) :: m, i, v =>
    if i < a then (i, v) :: (a, x) :: m
    else if i = a then (i, v) :: m
    else (a, x) :: Memory.write m i v

/-- The canonical form: indices strictly rising. (Every listed word counts: an unlisted one has no value.) -/
def Memory.wf : Memory → Bool
  | [] => true
  | [_] => true
  | (a, _) :: (b, y) :: m => decide (a < b) && Memory.wf ((b, y) :: m)

/-- `MemRead(S[i], 4)` of a space of `size` words (00_scope.md R12): `fault(UNINIT)` when nothing wrote the
word (60_exceptions.md R330), `badIndex` outside the array (20_memory.md R79, log 13). -/
def load (sp : Space) (size : Nat) (m : Memory) (i : Nat) : Except Fault Word :=
  if i < size then
    match m.read i with
    | some v => .ok v
    | none => .error (.uninit sp)
  else .error (.badIndex sp)

/-- `MemWrite(S[i], 4, v)` of a space of `size` words (00_scope.md R12). -/
def store (sp : Space) (size : Nat) (m : Memory) (i : Nat) (v : Word) : Except Fault Memory :=
  if i < size then .ok (m.write i v) else .error (.badIndex sp)

/-! ### Loops of the pseudocode -/

/-- `for i in 0 .. n-1: f`, in ascending order, over a loop state. -/
def forRange {σ : Type} : Nat → (Nat → σ → Except Fault σ) → σ → Except Fault σ
  | 0, _, a => .ok a
  | n + 1, f, a =>
    match forRange n f a with
    | .ok b => f n b
    | .error e => .error e

/-- The list `[f i, f (i+1), ..., f (i+n-1)]`, read in that order. -/
def collect {α : Type} (f : Nat → Except Fault α) : Nat → Nat → Except Fault (List α)
  | _, 0 => .ok []
  | i, n + 1 =>
    match f i with
    | .error e => .error e
    | .ok v =>
      match collect f (i + 1) n with
      | .error e => .error e
      | .ok vs => .ok (v :: vs)

/-- `sum over i = 0 .. n-1 of f i`, exact integers. -/
def sumTo : Nat → (Nat → Int) → Int
  | 0, _ => 0
  | n + 1, f => sumTo n f + f n

/-! ### Channels -/

/-- Channel `c` of a loop over `N_OUT` channels as an index of the 16 the hardware holds. -/
def channelIndex (c : Nat) : Except Fault (Fin 16) :=
  if h : c < 16 then .ok ⟨c, h⟩ else .error .badChannel

/-! ### The fatal stop (60_exceptions.md R322) -/

/-- `raise Fatal(cause)`: the first cause is recorded, nothing else is saved, no control transfer (R322,
R325). There is no return from it: RESET is the only way out. -/
def State.raiseFatal (s : State) (c : Cause) : State :=
  if s.fatal then s else { s.raiseFlag .fatal true with fatalCause := c.code }

/-! ### Enabling conditions (00_scope.md R13) -/

/-- Configuration commands act (46_control_sequencer.md R280). -/
def State.configOpen (s : State) : Bool :=
  (s.rxState == .idle || s.rxState == .stopped) && !s.fatal

/-- START acts (46_control_sequencer.md R290). -/
def State.startOpen (s : State) : Bool := s.rxState == .armed && !s.fatal

/-- A link command is accepted, the state of the link apart (45_framing_transfer.md R257). -/
def State.linkOpen (s : State) : Bool :=
  (s.rxState == .armed || s.rxState == .running) && !s.fatal

/-- PDMWORD is enabled (44_pdm_rx_credit_fifo.md R212, R216). -/
def State.wordEnabled (s : State) : Bool := s.rxState == .running && !s.hoPend && !s.fatal

/-- HANDOFF is enabled (44_pdm_rx_credit_fifo.md R221). -/
def State.handoffEnabled (s : State) : Bool :=
  s.hoPend && decide (s.fifo.length < Config.fifoSlots) && !s.fatal

/-- RXEXIT is enabled (44_pdm_rx_credit_fifo.md R224). -/
def State.exitEnabled (s : State) : Bool := s.rxState == .shuttingDown && !s.fatal

/-- The consumer is at `q` and may step (46_control_sequencer.md R296). -/
def State.at (s : State) (q : CSeq) : Bool := s.cseq == q && !s.fatal

/-- A unit operation is enabled (41_stage1.md R162, 42_stage23.md R177). -/
def State.unitEnabled (s : State) : Bool :=
  (s.rxState == .armed || s.rxState == .running) && !s.fatal

/-- DRAIN is enabled (45_framing_transfer.md R263). -/
def State.drainEnabled (s : State) : Bool :=
  s.at .drain && (!s.fifo.isEmpty || (s.rxState == .stopped && !s.hoPend))

/-! ### The block FIFO and the ownership tags -/

/-- *push `h`*: append at the tail and tag the half `Q` (44_pdm_rx_credit_fifo.md R218). -/
def State.push (s : State) (h : Half) : State :=
  { s with fifo := s.fifo ++ [h], own := s.own.set h .queued }

/-- `handoff_irq(h)` (44_pdm_rx_credit_fifo.md R219, R220). -/
def State.handoffIrq (s : State) (h : Half) : State :=
  if 0 < s.credit.toNat then { s.push h with credit := s.credit - 1 }
  else if s.cfg.countAndDrop then { s with dropCount := s.dropCount + 1 }
  else s.raiseFatal .droppedBlock

/-- `handoff_thread(h)` (44_pdm_rx_credit_fifo.md R221). -/
def State.handoffThread (s : State) (h : Half) : State :=
  if s.fifo.length < Config.fifoSlots then s.push h
  else { s with hoPend := true, hoHalf := h }

/-- `handoff_attempt(h)` (44_pdm_rx_credit_fifo.md R218). -/
def State.handoffAttempt (s : State) (h : Half) : State :=
  if s.cfg.threadMode then s.handoffThread h else s.handoffIrq h

/-! ### What goes back to the host, and the frame link -/

/-- A value returned to whoever invoked the operation (00_scope.md R12; log 11). -/
def State.giveBack (s : State) (r : Returned) : State := { s with returned := s.returned ++ [r] }

/-- Symbols exchanged on the frame link (45_framing_transfer.md R256; log 12). -/
def State.exchange (s : State) (syms : List LinkSymbol) : State := { s with link := s.link ++ syms }

/-- The 9-bit code of a link symbol, "for traces only" (30_encoding.md R112); a data word has none. -/
def LinkSymbol.code : LinkSymbol → Option (BitVec 9)
  | .eom => some 0x101
  | .cont => some 0x000
  | .sdack => some 0x101
  | .ack => some 0x101
  | .data _ => none

/-- The direction of a link symbol: true for MADC to host (30_encoding.md R112). -/
def LinkSymbol.toHost : LinkSymbol → Bool
  | .eom => true
  | .data _ => true
  | .cont => false
  | .sdack => false
  | .ack => false

/-- The symbols of a delivered frame (30_encoding.md R113, 45_framing_transfer.md R256). -/
def frameSymbols (ws : List Word) : List LinkSymbol :=
  [.eom, .cont] ++ ws.map .data ++ [.eom, .ack]

/-! ### The next operation -/

/-- The operation word presented next and the state without it (00_scope.md R13; log 1). -/
def State.fetch (s : State) : Option (OpWord × State) :=
  match s.agenda with
  | [] => none
  | w :: rest => some (w, { s with agenda := rest })

/-- An operation word put in front of the agenda (log 1). -/
def State.present (s : State) (w : OpWord) : State := { s with agenda := w :: s.agenda }

end Sys2Proof.Machine
end

