-- ==== Sys2Proof/Machine/Control.lean ====
section
/-! DEFINITION. The host's control operations RESET, CFGWR, CSRRD, COEFWR, INIT, START
(46_control_sequencer.md, 70_reset_and_hazards.md). -/

namespace Sys2Proof.Machine

/-- RESET (70_reset_and_hazards.md R361): "every piece of state takes its after RESET value", always
enabled. The model's own fields go on; what was returned before stays returned (log 7). -/
def execReset (s : State) : Host.Outcome State Fault Refusal :=
  .next { State.reset with
    agenda := s.agenda, returned := s.returned, link := s.link, freeTick := s.freeTick }

/-- CFGWR (46_control_sequencer.md R280, R281). -/
def execCfgwr (b : BitVec 16) (imm : Word) (s : State) : Host.Outcome State Fault Refusal :=
  match regOfIndex b with
  | none => .refused .reservedOperand
  | some r => .next (if s.configOpen then writeReg s imm r else s)

/-- CSRRD (46_control_sequencer.md R283): always enabled, no side effect. -/
def execCsrrd (b : BitVec 16) (s : State) : Host.Outcome State Fault Refusal :=
  match regOfIndex b with
  | none => .refused .reservedOperand
  | some r => .next (s.giveBack (.csr (readReg s r)))

/-- The state with coefficient `k` of a stage written (46_control_sequencer.md R285). -/
def State.writeCoef (s : State) (st : Stage) (k : Nat) (v : Word) : State :=
  match st with
  | .one => { s with coef1 := s.coef1.write k v }
  | .two => { s with coef2 := s.coef2.write k v }
  | .three => { s with coef3 := s.coef3.write k v }

/-- COEFWR (46_control_sequencer.md R280, R285). -/
def execCoefwr (a : BitVec 8) (b : BitVec 16) (imm : Word) (s : State) :
    Host.Outcome State Fault Refusal :=
  match stageOf a, tapOf b with
  | some st, some k =>
    .next (if s.configOpen then s.writeCoef st k (coefOperand st imm) else s)
  | _, _ => .refused .reservedOperand

/-- A decimation factor Stage 2 and Stage 3 support (42_stage23.md R185). -/
def legalDec (d : Word) : Bool := d == 2 || d == 3 || d == 6

/-- A tap count and its state-words register agree and are in range (46_control_sequencer.md R288). -/
def legalTaps (r : StageRegs) : Bool :=
  decide (1 ≤ r.taps.toNat) && decide (r.taps.toNat ≤ 256) && r.sw == r.taps

/-- INIT's checks in order, each with the cause of its failure (46_control_sequencer.md R288). Checks 8
to 10 are made only with three stages. -/
def initChecks (g : CfgRegs) : List (Bool × Cause) :=
  let three := g.nStages == 3
  [ (g.nIn == 1 || g.nIn == 2 || g.nIn == 4 || g.nIn == 8 || g.nIn == 16, .badNIn),
    (decide (1 ≤ g.N_OUT) && decide (g.N_OUT ≤ g.N_IN), .badNOut),
    ((List.finRange 16).all fun c => !decide (c.val < g.N_OUT) || decide (g.chmap[c].toNat < g.N_IN),
      .badChmap),
    (g.nStages == 2 || g.nStages == 3, .badNStages),
    (legalDec g.s2.dec, .badS2Dec),
    (legalTaps g.s2, .badS2Taps),
    (decide (g.s2.shr.toNat ≤ 63), .badS2Shr),
    (!three || legalDec g.s3.dec, .badS3Dec),
    (!three || legalTaps g.s3, .badS3Taps),
    (!three || decide (g.s3.shr.toNat ≤ 63), .badS3Shr),
    (decide (1 ≤ g.SPF) && decide (g.SPF ≤ 65535), .badSpf),
    (decide (1 ≤ g.NFB) && decide (g.NFB ≤ 255), .badNfb),
    (g.ctrl >>> 3 == 0, .badCtrl) ]

/-- The first check that fails, if any. -/
def initFailure (g : CfgRegs) : Option Cause :=
  ((initChecks g).find? fun p => !p.1).map Prod.snd

/-- The datapath registers of a channel after INIT (10_state.md R60). -/
def Channel.afterInit : Channel :=
  { Channel.reset with h1 := Vector.replicate 8 Config.s1HistInit }

/-- The state after an INIT whose checks pass (10_state.md R60, column "after INIT"). `BUF`, `OB` and `FRM`
are unspecified there: no word of them has a value (log 8). -/
def State.afterInit (s : State) : State :=
  { s with
    rxState := .armed, wrPos := BitVec.ofNat 8 (s.cfg.BW - 1), fillSel := 0, cseq := .off, cur := 0,
    credit := 0, fifo := [], own := Vector.replicate 2 .producer, hoPend := false, hoHalf := 0,
    rxSdFlag := false, dropCount := 0, status := s.status &&& 1#5, frmCol := 0, frmBuf := 0,
    smpValid := false, ch := Vector.replicate 16 Channel.afterInit,
    buf := Vector.replicate 2 [], ob := [], frm := [] }

/-- INIT (46_control_sequencer.md R280, R288). -/
def execInit (s : State) : Host.Outcome State Fault Refusal :=
  if s.configOpen then
    match initFailure s.cfg with
    | some c => .next (s.raiseFatal c)
    | none => .next s.afterInit
  else .next s

/-- START (46_control_sequencer.md R290). -/
def execStart (s : State) : Host.Outcome State Fault Refusal :=
  .next (if s.startOpen then { s with rxState := .running, cseq := .req } else s)

end Sys2Proof.Machine
end

