-- ==== Sys2Proof/Machine/Dcoe.lean ====
section
/-! DEFINITION. The DC-offset elimination filter: DCOE (43_dcoe.md). -/

namespace Sys2Proof.Machine

/-- The exact sum `t` of 43_dcoe.md R197: `floor(252*A/256) + (x - prevX) * 2^32`. -/
def dcoeSum (acc : BitVec 64) (prevX x : Word) : Int :=
  Config.dcoeNum * acc.toInt / Config.dcoeDen + (x.toInt - prevX.toInt) * 2 ^ 32

/-- One channel of DCOE (43_dcoe.md R197, R199): the accumulator wraps to 64 bits, the output is its high
32 bits. -/
def dcoeChannel (ch : Channel) : Channel :=
  let acc := BitVec.ofInt 64 (dcoeSum ch.dcAcc ch.dcPrevX ch.smp)
  { ch with dcAcc := acc, dcPrevX := ch.smp, smp := acc.extractLsb' 32 32 }

/-- Whether the update of a channel does not fit 64 bits (43_dcoe.md R198). -/
def dcoeOverflows (ch : Channel) : Bool :=
  decide ((BitVec.ofInt 64 (dcoeSum ch.dcAcc ch.dcPrevX ch.smp)).toInt ≠
    dcoeSum ch.dcAcc ch.dcPrevX ch.smp)

/-- The filter over the first `n` of any number of channels (43_dcoe.md R197, R201). -/
def dcoeColumn {k : Nat} (n : Nat) (chs : Vector Channel k) : Vector Channel k :=
  Vector.ofFn fun c => if c.val < n then dcoeChannel chs[c] else chs[c]

/-- Whether a channel of the column overflows. -/
def dcoeColumnOverflows {k : Nat} (n : Nat) (chs : Vector Channel k) : Bool :=
  (List.finRange k).any fun c => decide (c.val < n) && dcoeOverflows chs[c]

/-- DCOE (43_dcoe.md R197). With `DCOE_EN = 0` it changes nothing but `CSEQ`. -/
def execDcoe (s : State) : Host.Outcome State Fault Refusal :=
  if s.at .dcoe then
    if s.cfg.dcoeEn then
      .next { s.raiseFlag .dcovf (dcoeColumnOverflows s.cfg.N_OUT s.ch) with
        ch := dcoeColumn s.cfg.N_OUT s.ch, cseq := .frmadd }
    else .next { s with cseq := .frmadd }
  else .next s

end Sys2Proof.Machine
end

