-- ==== Sys2Proof/Machine/Deinterleave.lean ====
section
/-! DEFINITION. The Bit Deinterleaver and channel selection: DEINT, CHSEL (40_deinterleave.md), with the
inverse and the network form the spec gives beside the group function. -/

namespace Sys2Proof.Machine

/-- `TW = 32 / N`: time instants of one raw word (00_scope.md R10). -/
def instantsPerWord (n : Nat) : Nat := 32 / n

/-- `O[c][j]` of 40_deinterleave.md R142: bit `(j mod TW)*N + c` of `I[N-1 - j div TW]`. -/
def deintBit (n : Nat) (ws : List Word) (c j : Nat) : Bool :=
  (ws.getD (n - 1 - j / instantsPerWord n) 0#32).getLsbD (j % instantsPerWord n * n + c)

/-- `deint_group(I, N)` (40_deinterleave.md R142). -/
def deintGroup (n : Nat) (ws : List Word) : List Word :=
  (List.range n).map fun c => BitVec.ofFnLE fun j : Fin 32 => deintBit n ws c j

/-- `interleave_group(O, N)`, the inverse (40_deinterleave.md R146): bit `b` of raw word `m` is the sample
of channel `b mod N` at instant `(N-1-m)*TW + b div N`. -/
def interleaveGroup (n : Nat) (ws : List Word) : List Word :=
  (List.range n).map fun m => BitVec.ofFnLE fun b : Fin 32 =>
    (ws.getD (b.val % n) 0#32).getLsbD ((n - 1 - m) * instantsPerWord n + b.val / n)

/-- Where one perfect unshuffle moves the bit at address `x` of a vector of `32 * 2^n` bits
(40_deinterleave.md R144). -/
def unshuffleTo (n x : Nat) : Nat := (x >>> 1) ||| ((x &&& 1) <<< (n + 4))

/-- Where the word reversal and `n` unshuffles move the bit at address `m*32 + b` of a group of `2^n` words
(40_deinterleave.md R144). -/
def networkTo (n x : Nat) : Nat :=
  (List.range n).foldl (fun y _ => unshuffleTo n y) ((2 ^ n - 1 - x / 32) * 32 + x % 32)

/-- The raw words of group `g` of the draining half, deinterleaved and written back in place: all reads of
the group precede its writes (40_deinterleave.md R141). -/
def deintOneGroup (n : Nat) (g : Nat) (m : Memory) : Except Fault Memory :=
  match collect (fun k => load .buf Config.bufWords m (g * n + k)) 0 n with
  | .error e => .error e
  | .ok ws =>
    forRange n (fun c m' => store .buf Config.bufWords m' (g * n + c) ((deintGroup n ws).getD c 0#32)) m

/-- A whole half (40_deinterleave.md R141, R147). -/
def deintHalf (n groups : Nat) (m : Memory) : Except Fault Memory := forRange groups (deintOneGroup n) m

/-- DEINT (40_deinterleave.md R141). -/
def execDeint (s : State) : Host.Outcome State Fault Refusal :=
  if s.at .deint then
    match deintHalf s.cfg.N_IN s.cfg.D2 s.buf[s.cur] with
    | .ok m => .next { s with buf := s.buf.set s.cur m, cseq := .chsel }
    | .error e => .fault e
  else .next s

/-- `OB[c*D2 + g] <- BUF[CUR][g*N_IN + CHMAP[c]]` (40_deinterleave.md R150, 20_memory.md R75). -/
def selectWord (g : CfgRegs) (half : Memory) (c k : Nat) (ob : Memory) : Except Fault Memory :=
  match channelIndex c with
  | .error e => .error e
  | .ok i =>
    match load .buf Config.bufWords half (k * g.N_IN + g.chmap[i].toNat) with
    | .error e => .error e
    | .ok v => store .ob Config.bufWords ob (c * g.D2 + k) v

/-- The output block buffer after channel selection (40_deinterleave.md R150). -/
def selectBlock (g : CfgRegs) (half : Memory) (ob : Memory) : Except Fault Memory :=
  forRange g.N_OUT (fun c ob' => forRange g.D2 (fun k ob'' => selectWord g half c k ob'') ob') ob

/-- CHSEL (40_deinterleave.md R150, R151). -/
def execChsel (s : State) : Host.Outcome State Fault Refusal :=
  if s.at .chsel then
    match selectBlock s.cfg s.buf[s.cur] s.ob with
    | .ok m => .next { s with ob := m, own := s.own.set s.cur .producer, cseq := .fir }
    | .error e => .fault e
  else .next s

end Sys2Proof.Machine
end

