-- ==== Sys2Proof/Machine/Filters.lean ====
section
/-! DEFINITION. The FIR stages and the block operation that runs them: S1STEP (41_stage1.md), S2STEP and S3STEP
(42_stage23.md), FIRBLK (46_control_sequencer.md R300). -/

namespace Sys2Proof.Machine

/-- The first `n` coefficients of a stage; `fault(UNINIT)` when one of them was never written, whether or not
the step multiplies by it (41_stage1.md R162, 42_stage23.md R177: "if a `COEF2[k]`, `k < T2`, was never
written"). -/
def loadCoefs (sp : Space) (coef : Memory) (n : Nat) : Except Fault (List Word) :=
  collect (load sp Config.coefWords coef) 0 n

/-! ### Stage 1 -/

/-- `pm(b)`: a 0 bit is +1, a 1 bit is -1 (41_stage1.md R161). PRESUMED by the spec, log 17. -/
def pm (b : Bool) : Int := if b then -1 else 1

/-- The sample of age `a` of a history: bit `31 - (a mod 32)` of word `a div 32` (41_stage1.md R160). -/
def histBit (h : Vector Word 8) (a : Nat) : Bool := (h[a / 32]?.getD 0#32).getLsbD (31 - a % 32)

/-- The history after a channel PDM word enters; the oldest word is discarded (41_stage1.md R162). -/
def pushHist (w : Word) (h : Vector Word 8) : Vector Word 8 :=
  Vector.ofFn fun i => if i.val = 0 then w else h[i.val - 1]

/-- `s1_dot(H)` for coefficients by age (41_stage1.md R163). -/
def s1Dot (h : Vector Word 8) (coef : Nat → Int) : Int :=
  sumTo Config.s1Taps fun a => pm (histBit h a) * coef a

/-- `signed_16(COEF1[a])` of the coefficients read (41_stage1.md R163). -/
def coef16 (cs : List Word) (a : Nat) : Int := ((cs.getD a 0#32).setWidth 16).toInt

/-- S1STEP on one channel's history: push, then the dot product on the updated history
(41_stage1.md R162). -/
def s1Step (coef1 : Memory) (w : Word) (h : Vector Word 8) : Except Fault (Vector Word 8 × Word) :=
  match loadCoefs .coef1 coef1 Config.s1Taps with
  | .error e => .error e
  | .ok cs => .ok (pushHist w h, BitVec.ofInt 32 (s1Dot (pushHist w h) (coef16 cs)))

/-! ### Stage 2 and Stage 3 -/

/-- What a step of Stage 2 or Stage 3 reads of its configuration: taps, decimation factor, shift. -/
structure FirParams where
  taps : Nat
  dec : Nat
  shr : Nat
deriving DecidableEq, Repr

/-- A stage's parameters (00_scope.md R8). -/
def StageRegs.params (r : StageRegs) : FirParams :=
  { taps := r.taps.toNat, dec := r.dec.toNat, shr := r.shr.toNat }

/-- Push (42_stage23.md R177, R178): ages `0 .. T-1` move by one; the words at `T` and above are never
written (10_state.md R22). -/
def pushSample (taps : Nat) (x : Word) (h : Vector Word 256) : Vector Word 256 :=
  Vector.ofFn fun k => if k.val = 0 then x else if k.val < taps then h[k.val - 1] else h[k.val]

/-- The sample of age `k`. -/
def sampleAt (h : Vector Word 256) (k : Nat) : Int := (h[k]?.getD 0#32).toInt

/-- How many taps `r, r + D, r + 2*D, ...` are below `T` (42_stage23.md R179). -/
def branchTaps (taps dec r : Nat) : Nat := (taps - r + (dec - 1)) / dec

/-- The polyphase branch `r`: the sum of `COEF[r + j*D] * X[j*D]` over the taps below `T`
(42_stage23.md R177, R179). -/
def branchSum (cs : List Word) (p : FirParams) (h : Vector Word 256) (r : Nat) : Int :=
  sumTo (branchTaps p.taps p.dec r) fun j =>
    (cs.getD (r + j * p.dec) 0#32).toInt * sampleAt h (j * p.dec)

/-- What a step leaves: the stage's state, what it emits, whether the output was clamped. -/
structure FirOut where
  st : FirState
  out : Option Word
  sat : Bool
deriving DecidableEq, Repr

/-- The output, or the advance of the phase, once the branch is accumulated (42_stage23.md R180 to R183). -/
def firFinish (p : FirParams) (h : Vector Word 256) (acc : Acc) (ph : BitVec 3) : FirOut :=
  if ph.toNat = p.dec - 1 then
    let y := clamp (rshr acc.toInt p.shr)
    { st := { x := h, acc := 0, ph := 0 }, out := some y.1, sat := y.2 }
  else { st := { x := h, acc := acc, ph := ph + 1 }, out := none, sat := false }

/-- One step of Stage 2 or Stage 3 on one channel (42_stage23.md R177, R186). -/
def firStep (sp : Space) (coef : Memory) (p : FirParams) (x : Word) (f : FirState) :
    Except Fault FirOut :=
  match loadCoefs sp coef p.taps with
  | .error e => .error e
  | .ok cs =>
    let h := pushSample p.taps x f.x
    .ok (firFinish p h (BitVec.ofInt 72 (f.acc.toInt + branchSum cs p h (p.dec - 1 - f.ph.toNat))) f.ph)

/-- Stage 2 of a channel: the channel after the step, what it emitted, whether it was clamped. -/
def State.stage2 (s : State) (x : Word) (f : FirState) : Except Fault FirOut :=
  firStep .coef2 s.coef2 s.cfg.s2.params x f

/-- Stage 3 of a channel (42_stage23.md R186). -/
def State.stage3 (s : State) (x : Word) (f : FirState) : Except Fault FirOut :=
  firStep .coef3 s.coef3 s.cfg.s3.params x f

/-! ### The unit operations -/

/-- S1STEP as a unit operation (41_stage1.md R162). -/
def execS1step (a : BitVec 8) (imm : Word) (s : State) : Host.Outcome State Fault Refusal :=
  match channelOf a with
  | none => .refused .reservedOperand
  | some c =>
    if s.unitEnabled then
      match s1Step s.coef1 imm s.ch[c].h1 with
      | .error e => .fault e
      | .ok (h, y) =>
        .next ({ s with ch := s.ch.set c { s.ch[c] with h1 := h } }.giveBack (.sample (some y)))
    else .next s

/-- S2STEP as a unit operation (42_stage23.md R177). -/
def execS2step (a : BitVec 8) (imm : Word) (s : State) : Host.Outcome State Fault Refusal :=
  match channelOf a with
  | none => .refused .reservedOperand
  | some c =>
    if s.unitEnabled then
      match s.stage2 imm s.ch[c].st2 with
      | .error e => .fault e
      | .ok o =>
        .next (({ s with ch := s.ch.set c { s.ch[c] with st2 := o.st } }.raiseFlag .s2sat o.sat).giveBack
          (.sample o.out))
    else .next s

/-- S3STEP as a unit operation: enabled additionally only when `N_STAGES = 3` (42_stage23.md R186). -/
def execS3step (a : BitVec 8) (imm : Word) (s : State) : Host.Outcome State Fault Refusal :=
  match channelOf a with
  | none => .refused .reservedOperand
  | some c =>
    if s.unitEnabled && s.cfg.nStages == 3 then
      match s.stage3 imm s.ch[c].st3 with
      | .error e => .fault e
      | .ok o =>
        .next (({ s with ch := s.ch.set c { s.ch[c] with st3 := o.st } }.raiseFlag .s3sat o.sat).giveBack
          (.sample o.out))
    else .next s

/-! ### FIRBLK -/

/-- The loop state of the inner loop of FIRBLK: the channel, what the last S2STEP emitted, whether a
Stage-2 output was clamped. -/
structure BlockAcc where
  ch : Channel
  y2 : Option Word
  sat : Bool
deriving DecidableEq, Repr

/-- Pass `k` of the inner loop of FIRBLK, oldest group first (46_control_sequencer.md R300). -/
def blockPass (s : State) (c k : Nat) (a : BlockAcc) : Except Fault BlockAcc :=
  match load .ob Config.bufWords s.ob (c * s.cfg.D2 + (s.cfg.D2 - 1 - k)) with
  | .error e => .error e
  | .ok w =>
    match s1Step s.coef1 w a.ch.h1 with
    | .error e => .error e
    | .ok (h, y1) =>
      match s.stage2 y1 a.ch.st2 with
      | .error e => .error e
      | .ok o =>
        .ok { ch := { a.ch with h1 := h, st2 := o.st }, y2 := o.out, sat := a.sat || o.sat }

/-- The outer loop's state: the machine and the local `v` of 46_control_sequencer.md R300. -/
structure BlockOut where
  st : State
  valid : Bool
deriving DecidableEq, Repr

/-- Channel `c` after its Stage-2 output `y2` is known: with two stages it is the sample, with three it goes
through Stage 3 (46_control_sequencer.md R300, 42_stage23.md R187). -/
def blockTail (b : BlockOut) (c : Fin 16) (ch : Channel) (y2 : Word) : Except Fault BlockOut :=
  if b.st.cfg.nStages == 2 then
    .ok { st := { b.st with ch := b.st.ch.set c { ch with smp := y2 } }, valid := true }
  else
    match b.st.stage3 y2 ch.st3 with
    | .error e => .error e
    | .ok o =>
      .ok { st := { b.st with ch := b.st.ch.set c { ch with st3 := o.st, smp := o.out.getD ch.smp } }.raiseFlag
              .s3sat o.sat,
            valid := b.valid || o.out.isSome }

/-- The whole of FIRBLK for one channel. When the last S2STEP emitted nothing, R300 states no value for
`y2`: it is the free value of this FIRBLK and channel (DESIGN CHOICE, log 10). -/
def blockChannel (c : Nat) (b : BlockOut) : Except Fault BlockOut :=
  match channelIndex c with
  | .error e => .error e
  | .ok i =>
    match forRange b.st.cfg.D2 (blockPass b.st c) { ch := b.st.ch[i], y2 := none, sat := false } with
    | .error e => .error e
    | .ok a =>
      blockTail { b with st := b.st.raiseFlag .s2sat a.sat } i a.ch
        (a.y2.getD (Config.freeSample b.st.freeTick c))

/-- FIRBLK (46_control_sequencer.md R300). -/
def execFirblk (s : State) : Host.Outcome State Fault Refusal :=
  if s.at .fir then
    match forRange s.cfg.N_OUT blockChannel { st := s, valid := false } with
    | .error e => .fault e
    | .ok b =>
      .next { b.st with
        smpValid := b.valid, cseq := if b.valid then .dcoe else .req, freeTick := s.freeTick + 1 }
  else .next s

end Sys2Proof.Machine
end

