-- ==== Sys2Proof/Machine/Framing.lean ====
section
/-! DEFINITION. Framing, the frame link and the shutdown handshake: RXFRAME, RXFRAMET, SHUTDOWN, FRMADD,
FRMTX, UNWIND, DRAIN (45_framing_transfer.md). -/

namespace Sys2Proof.Machine

/-- A link command of the host (45_framing_transfer.md R257, R258, R260): misuse while another waits
(R261, log 3); accepted in armed or running; else it is not enabled and nothing answers it. -/
def linkCommand (p : HostPend) (s : State) : Host.Outcome State Fault Refusal :=
  if s.hostPend != .none then .fault .hostMisuse
  else .next (if s.linkOpen then { s with hostPend := p } else s)

/-- RXFRAME (45_framing_transfer.md R257). -/
def execRxframe (s : State) : Host.Outcome State Fault Refusal := linkCommand .rxframe s

/-- RXFRAMET (45_framing_transfer.md R258). -/
def execRxframet (s : State) : Host.Outcome State Fault Refusal := linkCommand .rxframet s

/-- SHUTDOWN (45_framing_transfer.md R260). -/
def execShutdown (s : State) : Host.Outcome State Fault Refusal := linkCommand .shutdown s

/-- `FRM[b][c][s] <- SMP[c]` (45_framing_transfer.md R252). -/
def addSample (s : State) (c : Nat) (m : Memory) : Except Fault Memory :=
  match channelIndex c with
  | .error e => .error e
  | .ok i =>
    store .frm s.cfg.frmWords m (s.cfg.frmIndex s.frmBuf.toNat c s.frmCol.toNat) s.ch[i].smp

/-- FRMADD (45_framing_transfer.md R252). -/
def execFrmadd (s : State) : Host.Outcome State Fault Refusal :=
  if s.at .frmadd then
    match forRange s.cfg.N_OUT (addSample s) s.frm with
    | .error e => .fault e
    | .ok m =>
      if s.frmCol.toNat = s.cfg.SPF - 1 then .next { s with frm := m, frmCol := 0, cseq := .frmtx }
      else .next { s with frm := m, frmCol := s.frmCol + 1, cseq := .req }
  else .next s

/-- The frame of the current buffer in channel-major order (45_framing_transfer.md R255, 20_memory.md
R77). -/
def frameWords (s : State) : Except Fault (List Word) :=
  collect (fun i => load .frm s.cfg.frmWords s.frm
    (s.cfg.frmIndex s.frmBuf.toNat (i / s.cfg.SPF) (i % s.cfg.SPF))) 0 s.cfg.FW

/-- The frame of the current buffer in sample-major order (45_framing_transfer.md R255, R258). -/
def frameWordsTransposed (s : State) : Except Fault (List Word) :=
  collect (fun i => load .frm s.cfg.frmWords s.frm
    (s.cfg.frmIndex s.frmBuf.toNat (i % s.cfg.N_OUT) (i / s.cfg.N_OUT))) 0 s.cfg.FW

/-- The end of a delivery: the words go back to the host, the link has carried the frame in channel-major
order, the ring advances (45_framing_transfer.md R253, R255, R256; log 12). -/
def State.deliver (s : State) (onLink toHost : List Word) : State :=
  ({ s with
      hostPend := .none,
      frmBuf := BitVec.ofNat 8 ((s.frmBuf.toNat + 1) % s.cfg.NFB),
      cseq := .req }.exchange (frameSymbols onLink)).giveBack (.frame toHost)

/-- FRMTX (45_framing_transfer.md R255). With no host command waiting the consumer waits. -/
def execFrmtx (s : State) : Host.Outcome State Fault Refusal :=
  if s.at .frmtx then
    match s.hostPend with
    | .none => .next s
    | .rxframe =>
      match frameWords s with
      | .error e => .fault e
      | .ok ws => .next (s.deliver ws ws)
    | .rxframet =>
      match frameWords s, frameWordsTransposed s with
      | .ok ws, .ok wt => .next (s.deliver ws wt)
      | .error e, _ => .fault e
      | _, .error e => .fault e
    | .shutdown => .next ({ s with cseq := .unwind }.exchange [.eom, .sdack])
  else .next s

/-- UNWIND (45_framing_transfer.md R262). -/
def execUnwind (s : State) : Host.Outcome State Fault Refusal :=
  .next (if s.at .unwind then { s with rxSdFlag := true, cseq := .drain } else s)

/-- DRAIN (45_framing_transfer.md R263). -/
def execDrain (s : State) : Host.Outcome State Fault Refusal :=
  if s.drainEnabled then
    match s.fifo with
    | h :: rest => .next { s with fifo := rest, own := s.own.set h .producer }
    | [] =>
      .next (({ s with hostPend := .none, cseq := .off }.exchange [.eom]).giveBack .shutdownDone)
  else .next s

end Sys2Proof.Machine
end

