-- ==== Sys2Proof/Machine/Receive.lean ====
section
/-! DEFINITION. The PDM Receive Service and the consumer's two FIFO operations: PDMWORD, HANDOFF, RXEXIT,
BLKREQ, BLKPOP (44_pdm_rx_credit_fifo.md). -/

namespace Sys2Proof.Machine

/-- The word of a PDMWORD stored at `BUF[FILL_SEL][WR_POS]`, with `OVERRUN` set first when the half is not
the producer's (44_pdm_rx_credit_fifo.md R212, R213, R324). -/
def State.storeWord (s : State) (w : Word) : Except Fault State :=
  match store .buf Config.bufWords s.buf[s.fillSel] s.wrPos.toNat w with
  | .ok m =>
    .ok { s.raiseFlag .overrun (s.own[s.fillSel] != .producer) with buf := s.buf.set s.fillSel m }
  | .error e => .error e

/-- After the store: the position counts down; at 0 the block is complete, the position reloads, the
halves swap and the hand-off of the half just filled is attempted (44_pdm_rx_credit_fifo.md R212, R214). -/
def State.advanceWord (s : State) : State :=
  if 0 < s.wrPos.toNat then { s with wrPos := s.wrPos - 1 }
  else
    { s with wrPos := BitVec.ofNat 8 (s.cfg.BW - 1), fillSel := 1 - s.fillSel }.handoffAttempt s.fillSel

/-- PDMWORD (44_pdm_rx_credit_fifo.md R212 to R216). When it is not enabled the producer does not take the
word (R216). -/
def execPdmword (imm : Word) (s : State) : Host.Outcome State Fault Refusal :=
  if s.wordEnabled then
    if s.rxSdFlag then .next { s with rxState := .shuttingDown }
    else
      match s.storeWord imm with
      | .ok t => .next t.advanceWord
      | .error e => .fault e
  else .next s

/-- HANDOFF (44_pdm_rx_credit_fifo.md R221). -/
def execHandoff (s : State) : Host.Outcome State Fault Refusal :=
  .next (if s.handoffEnabled then { s.push s.hoHalf with hoPend := false } else s)

/-- RXEXIT (44_pdm_rx_credit_fifo.md R224). -/
def execRxexit (s : State) : Host.Outcome State Fault Refusal :=
  .next (if s.exitEnabled then { s with rxState := .stopped } else s)

/-- BLKREQ (44_pdm_rx_credit_fifo.md R226). -/
def execBlkreq (s : State) : Host.Outcome State Fault Refusal :=
  .next (if s.at .req then
    { s with credit := if s.cfg.threadMode then s.credit else Config.creditGrant, cseq := .wait } else s)

/-- BLKPOP (44_pdm_rx_credit_fifo.md R228). With an empty FIFO the consumer waits. -/
def execBlkpop (s : State) : Host.Outcome State Fault Refusal :=
  if s.at .wait then
    match s.fifo with
    | [] => .next s
    | h :: rest =>
      .next { s with cur := h, fifo := rest, own := s.own.set h .consumer, cseq := .deint }
  else .next s

end Sys2Proof.Machine
end

