-- ==== Sys2Proof/Machine/Dispatch.lean ====
section
/-! DEFINITION. One arm per operation (30_encoding.md R120). -/

namespace Sys2Proof.Machine

def exec (i : Instr) (s : State) : Host.Outcome State Fault Refusal :=
  match i with
  | .reset => Sys2Proof.Machine.execReset s
  | .cfgwr b imm => Sys2Proof.Machine.execCfgwr b imm s
  | .csrrd b => Sys2Proof.Machine.execCsrrd b s
  | .coefwr a b imm => Sys2Proof.Machine.execCoefwr a b imm s
  | .init => Sys2Proof.Machine.execInit s
  | .start => Sys2Proof.Machine.execStart s
  | .rxframe => Sys2Proof.Machine.execRxframe s
  | .rxframet => Sys2Proof.Machine.execRxframet s
  | .shutdown => Sys2Proof.Machine.execShutdown s
  | .pdmword imm => Sys2Proof.Machine.execPdmword imm s
  | .handoff => Sys2Proof.Machine.execHandoff s
  | .rxexit => Sys2Proof.Machine.execRxexit s
  | .blkreq => Sys2Proof.Machine.execBlkreq s
  | .blkpop => Sys2Proof.Machine.execBlkpop s
  | .deint => Sys2Proof.Machine.execDeint s
  | .chsel => Sys2Proof.Machine.execChsel s
  | .firblk => Sys2Proof.Machine.execFirblk s
  | .s1step a imm => Sys2Proof.Machine.execS1step a imm s
  | .s2step a imm => Sys2Proof.Machine.execS2step a imm s
  | .s3step a imm => Sys2Proof.Machine.execS3step a imm s
  | .dcoe => Sys2Proof.Machine.execDcoe s
  | .frmadd => Sys2Proof.Machine.execFrmadd s
  | .frmtx => Sys2Proof.Machine.execFrmtx s
  | .unwind => Sys2Proof.Machine.execUnwind s
  | .drain => Sys2Proof.Machine.execDrain s

end Sys2Proof.Machine
end

