-- ==== Sys2Proof/Machine/Step.lean ====
section
/-! DEFINITION. One step: the next operation word of the agenda is decoded and performed. -/

namespace Sys2Proof.Machine

/-- One step (00_scope.md R13; log 1). With nothing presented, every agent waits. A reserved word is
refused (30_encoding.md R125). -/
def step (s : State) : Host.Outcome State Fault Refusal :=
  match s.fetch with
  | none => .next s
  | some (w, t) =>
    match decode w with
    | .error e => .refused (.reservedWord e)
    | .ok i => exec i t

/-- The state with that instruction presented next (log 1). -/
def State.withFetchWord (s : State) (nbits w : Nat) : State :=
  s.present (BitVec.ofNat 64 (w % 2 ^ nbits))

end Sys2Proof.Machine
end

