-- ==== Sys2Proof/Machine/Schedule.lean ====
section
/-! DEFINITION. Which operations are enabled and which act (00_scope.md R13, 30_encoding.md R126), who
performs each (30_encoding.md R120), the real-time duty as a premise on a schedule (70_reset_and_hazards.md
R371), the pseudo-operations (30_encoding.md R131), schedule E (95_test_vectors.md section 2) and the textual syntax (30_encoding.md R130). -/

namespace Sys2Proof.Machine

/-- The operation's rule lets it be performed in this state (00_scope.md R13). Configuration commands and
START are always accepted (46_control_sequencer.md R280). -/
def enabled (i : Instr) (s : State) : Bool :=
  match i with
  | .reset => true
  | .cfgwr _ _ => true
  | .csrrd _ => true
  | .coefwr _ _ _ => true
  | .init => true
  | .start => true
  | .rxframe => s.linkOpen && s.hostPend == .none
  | .rxframet => s.linkOpen && s.hostPend == .none
  | .shutdown => s.linkOpen && s.hostPend == .none
  | .pdmword _ => s.wordEnabled
  | .handoff => s.handoffEnabled
  | .rxexit => s.exitEnabled
  | .blkreq => s.at .req
  | .blkpop => s.at .wait && !s.fifo.isEmpty
  | .deint => s.at .deint
  | .chsel => s.at .chsel
  | .firblk => s.at .fir
  | .s1step _ _ => s.unitEnabled
  | .s2step _ _ => s.unitEnabled
  | .s3step _ _ => s.unitEnabled && s.cfg.nStages == 3
  | .dcoe => s.at .dcoe
  | .frmadd => s.at .frmadd
  | .frmtx => s.at .frmtx && s.hostPend != .none
  | .unwind => s.at .unwind
  | .drain => s.drainEnabled

/-- The operation is enabled and not ignored (46_control_sequencer.md R280, R290). -/
def acts (i : Instr) (s : State) : Bool :=
  match i with
  | .cfgwr _ _ => s.configOpen
  | .coefwr _ _ _ => s.configOpen
  | .init => s.configOpen
  | .start => s.startOpen
  | i => enabled i s

/-- The three host commands of the frame link (45_framing_transfer.md section 2). -/
def isLinkCommand : Instr → Bool
  | .rxframe => true
  | .rxframet => true
  | .shutdown => true
  | _ => false

/-- Who performs an operation (30_encoding.md R120). -/
def agentOf : Instr → Agent
  | .reset => .host
  | .cfgwr _ _ => .host
  | .csrrd _ => .host
  | .coefwr _ _ _ => .host
  | .init => .host
  | .start => .host
  | .rxframe => .host
  | .rxframet => .host
  | .shutdown => .host
  | .pdmword _ => .source
  | .handoff => .producer
  | .rxexit => .producer
  | .blkreq => .consumer
  | .blkpop => .consumer
  | .deint => .consumer
  | .chsel => .consumer
  | .firblk => .consumer
  | .s1step _ _ => .unit
  | .s2step _ _ => .unit
  | .s3step _ _ => .unit
  | .dcoe => .consumer
  | .frmadd => .consumer
  | .frmtx => .consumer
  | .unwind => .consumer
  | .drain => .consumer

/-- The one operation the consumer performs in a state of `CSEQ` (46_control_sequencer.md R296). -/
def consumerOp : CSeq → Option Instr
  | .off => none
  | .req => some .blkreq
  | .wait => some .blkpop
  | .deint => some .deint
  | .chsel => some .chsel
  | .fir => some .firblk
  | .dcoe => some .dcoe
  | .frmadd => some .frmadd
  | .frmtx => some .frmtx
  | .unwind => some .unwind
  | .drain => some .drain

/-- Operations performed one after another, stopping at the first fault or refusal (00_scope.md R13: "each
agent performing its own operations in its own order"). -/
def performAll : List Instr → State → Host.Outcome State Fault Refusal
  | [], s => .next s
  | i :: is, s =>
    match exec i s with
    | .next t => performAll is t
    | .fault e => .fault e
    | .refused r => .refused r

/-! ### The real-time duty, as a premise on a schedule (70_reset_and_hazards.md R371) -/

/-- The operation is a block-completing PDMWORD (44_pdm_rx_credit_fifo.md R214): taken, not discarded, at
position 0. -/
def completesBlock (i : Instr) (s : State) : Bool :=
  match i with
  | .pdmword _ => s.wordEnabled && !s.rxSdFlag && s.wrPos == 0
  | _ => false

/-- The consumer reaches `C_WAIT` by this operation: an enabled BLKREQ (44_pdm_rx_credit_fifo.md R226). -/
def reachesWait (i : Instr) (s : State) : Bool :=
  match i with
  | .blkreq => s.at .req
  | _ => false

/-- The operation is a START that acts: the first deadline begins (70_reset_and_hazards.md R371). -/
def startsRun (i : Instr) (s : State) : Bool :=
  match i with
  | .start => s.startOpen
  | _ => false

/-- The consumer has reached `C_WAIT` since the last completed block or START, once `i` is performed in `s`;
`ready` says it of the operations before (log 9). -/
def readyAfter (ready : Bool) (i : Instr) (s : State) : Bool :=
  !completesBlock i s && !startsRun i s && (ready || reachesWait i s)

/-- The premise of 70_reset_and_hazards.md R371 on a schedule: "between two block-completing PDMWORDs the
consumer reaches `C_WAIT`", and between START and the first of them (log 9). -/
def meetsDeadline : Bool → List Instr → State → Bool
  | _, [], _ => true
  | ready, i :: is, s =>
    (!completesBlock i s || ready) &&
      match exec i s with
      | .next t => meetsDeadline (readyAfter ready i s) is t
      | .fault _ => true
      | .refused _ => true

/-! ### Schedule E (95_test_vectors.md section 2) -/

/-- The operations one round of schedule E performs: HANDOFF, the consumer's operation, RXEXIT, each if
enabled (95_test_vectors.md section 2). -/
def roundE (s : State) : Host.Outcome State Fault Refusal :=
  match exec .handoff s with
  | .next t =>
    match performAll (consumerOp t.cseq).toList t with
    | .next u => exec .rxexit u
    | .fault e => .fault e
    | .refused r => .refused r
  | .fault e => .fault e
  | .refused r => .refused r

/-- Something of schedule E is enabled. -/
def roundEnabled (s : State) : Bool :=
  enabled .handoff s || (consumerOp s.cseq).any (enabled · s) || enabled .rxexit s

/-- RUNC (30_encoding.md R131): rounds of schedule E until a whole round performs nothing, at most `n`. -/
def runc : Nat → State → Host.Outcome State Fault Refusal
  | 0, s => .next s
  | n + 1, s =>
    if roundEnabled s then
      match roundE s with
      | .next t => runc n t
      | .fault e => .fault e
      | .refused r => .refused r
    else .next s

/-- PDMBLOCK (30_encoding.md R131). -/
def pdmBlock (ws : List Word) : List Instr := ws.map .pdmword

/-- RATE16K (30_encoding.md R131). -/
def rate16k : Instr := .cfgwr 0x0D 6
/-- RATE32K (30_encoding.md R131). -/
def rate32k : Instr := .cfgwr 0x0D 3
/-- RATE48K (30_encoding.md R131). -/
def rate48k : Instr := .cfgwr 0x0D 2

/-- The mnemonic of an operation (30_encoding.md R120). -/
def mnemonicOf : Instr → String
  | .reset => "RESET"
  | .cfgwr _ _ => "CFGWR"
  | .csrrd _ => "CSRRD"
  | .coefwr _ _ _ => "COEFWR"
  | .init => "INIT"
  | .start => "START"
  | .rxframe => "RXFRAME"
  | .rxframet => "RXFRAMET"
  | .shutdown => "SHUTDOWN"
  | .pdmword _ => "PDMWORD"
  | .handoff => "HANDOFF"
  | .rxexit => "RXEXIT"
  | .blkreq => "BLKREQ"
  | .blkpop => "BLKPOP"
  | .deint => "DEINT"
  | .chsel => "CHSEL"
  | .firblk => "FIRBLK"
  | .s1step _ _ => "S1STEP"
  | .s2step _ _ => "S2STEP"
  | .s3step _ _ => "S3STEP"
  | .dcoe => "DCOE"
  | .frmadd => "FRMADD"
  | .frmtx => "FRMTX"
  | .unwind => "UNWIND"
  | .drain => "DRAIN"

/-- The operands of the textual syntax, in the order `a`, `b`, `imm`, only those the format uses
(30_encoding.md R130). -/
def operandsOf : Instr → List Nat
  | .cfgwr b imm => [b.toNat, imm.toNat]
  | .csrrd b => [b.toNat]
  | .coefwr a b imm => [a.toNat, b.toNat, imm.toNat]
  | .pdmword imm => [imm.toNat]
  | .s1step a imm => [a.toNat, imm.toNat]
  | .s2step a imm => [a.toNat, imm.toNat]
  | .s3step a imm => [a.toNat, imm.toNat]
  | _ => []

/-- One line of the textual syntax, numbers in decimal (30_encoding.md R130). -/
def asmLine (i : Instr) : String :=
  match operandsOf i with
  | [] => mnemonicOf i
  | ns => mnemonicOf i ++ " " ++ String.intercalate ", " (ns.map Nat.repr)

end Sys2Proof.Machine
end

