-- ==== Sys2Proof/Safety.lean ====
section
/-! DEFINITION. What counts as a safe run and a reliable value, and the vocabulary of the statements: legal
configurations, the after-RESET and after-INIT values, written memory, the machine's invariants. Everything
here is written from the spec's rules, beside the definitions of Machine/, not from them. -/

namespace Sys2Proof.Machine

/-! ### Outcomes -/

/-- The outcome with the agenda of a next state replaced. -/
def withAgenda (l : List OpWord) : Host.Outcome State Fault Refusal → Host.Outcome State Fault Refusal
  | .next t => .next { t with agenda := l }
  | .fault e => .fault e
  | .refused r => .refused r

/-- Sample values may be claims about hardware: `STATUS.OVERRUN = 0` (60_exceptions.md R331). -/
def Reliable (s : State) : Prop := s.flag .overrun = false

/-! ### Configurations -/

/-- The checks of INIT in order, as the propositions of the table of 46_control_sequencer.md R288. -/
def initConditions (g : CfgRegs) : List Prop :=
  [ g.nIn.toNat ∈ [1, 2, 4, 8, 16],
    1 ≤ g.nOut.toNat ∧ g.nOut.toNat ≤ g.nIn.toNat,
    ∀ c : Fin 16, c.val < g.nOut.toNat → g.chmap[c].toNat < g.nIn.toNat,
    g.nStages.toNat ∈ [2, 3],
    g.s2.dec.toNat ∈ [2, 3, 6],
    (1 ≤ g.s2.taps.toNat ∧ g.s2.taps.toNat ≤ 256) ∧ g.s2.sw = g.s2.taps,
    g.s2.shr.toNat ≤ 63,
    g.nStages.toNat = 3 → g.s3.dec.toNat ∈ [2, 3, 6],
    g.nStages.toNat = 3 → (1 ≤ g.s3.taps.toNat ∧ g.s3.taps.toNat ≤ 256) ∧ g.s3.sw = g.s3.taps,
    g.nStages.toNat = 3 → g.s3.shr.toNat ≤ 63,
    1 ≤ g.spf.toNat ∧ g.spf.toNat ≤ 65535,
    1 ≤ g.nfb.toNat ∧ g.nfb.toNat ≤ 255,
    ∀ k, 3 ≤ k → g.ctrl.getLsbD k = false ]

/-- A configuration every check of INIT accepts (10_state.md R42, column "legal at INIT"). -/
def LegalCfg (g : CfgRegs) : Prop := ∀ p ∈ initConditions g, p

/-- `RX_STATE` is armed, running or shutting-down: the write lock is closed (46_control_sequencer.md
R280). -/
def State.active (s : State) : Prop :=
  s.rxState = .armed ∨ s.rxState = .running ∨ s.rxState = .shuttingDown

/-! ### Memories -/

/-- The first `n` words of a memory have values. -/
def Written (m : Memory) (n : Nat) : Prop := ∀ i < n, (m.read i).isSome = true

/-- No word of a memory has a value. -/
def Blank (m : Memory) : Prop := ∀ i, m.read i = none

/-- Every memory has the canonical form. -/
def MemoriesWf (s : State) : Prop :=
  (∀ h : Half, s.buf[h].wf = true) ∧ s.ob.wf = true ∧ s.coef1.wf = true ∧ s.coef2.wf = true ∧
    s.coef3.wf = true ∧ s.frm.wf = true

/-- Every coefficient a run reads has a value: the host's duty of 70_reset_and_hazards.md R379. -/
def CoefficientsWritten (s : State) : Prop :=
  Written s.coef1 256 ∧ Written s.coef2 s.cfg.s2.taps.toNat ∧
    (s.cfg.nStages.toNat = 3 → Written s.coef3 s.cfg.s3.taps.toNat)

/-! ### Values after RESET and after INIT (10_state.md R60) -/

/-- The values R60 gives after RESET; what it calls unspecified is left open, but for the memories, whose
words have no value. -/
def AfterReset (t : State) : Prop :=
  t.rxState = .idle ∧ t.wrPos = 0 ∧ t.fillSel = 0 ∧ t.cseq = .off ∧ t.cur = 0 ∧ t.credit = 0 ∧
  t.fifo = [] ∧ (∀ h : Half, t.own[h] = .producer) ∧ t.hoPend = false ∧ t.hoHalf = 0 ∧
  t.rxSdFlag = false ∧ t.hostPend = .none ∧ t.dropCount = 0 ∧ t.status = 0 ∧ t.fatalCause = 0 ∧
  t.smpValid = false ∧ t.frmCol = 0 ∧ t.frmBuf = 0 ∧
  (∀ r : CfgReg, t.cfg.read r = match r with | .chmap c => BitVec.ofNat 32 c.val | _ => 0) ∧
  (∀ h : Half, Blank t.buf[h]) ∧ Blank t.ob ∧ Blank t.coef1 ∧ Blank t.coef2 ∧ Blank t.coef3 ∧ Blank t.frm

/-- The values R60 gives after a successful INIT from `s`. -/
def AfterInit (s t : State) : Prop :=
  t.rxState = .armed ∧ t.wrPos.toNat = s.cfg.nIn.toNat * s.cfg.s2.dec.toNat - 1 ∧ t.fillSel = 0 ∧
  t.cseq = .off ∧ t.cur = 0 ∧ t.credit = 0 ∧ t.fifo = [] ∧ (∀ h : Half, t.own[h] = .producer) ∧
  t.hoPend = false ∧ t.hoHalf = 0 ∧ t.rxSdFlag = false ∧ t.hostPend = s.hostPend ∧ t.dropCount = 0 ∧
  (t.flag .fatal = s.flag .fatal ∧ t.flag .overrun = false ∧ t.flag .s2sat = false ∧
    t.flag .s3sat = false ∧ t.flag .dcovf = false) ∧
  t.fatalCause = s.fatalCause ∧ t.smpValid = false ∧ t.frmCol = 0 ∧ t.frmBuf = 0 ∧ t.cfg = s.cfg ∧
  (∀ c : Fin 16,
    (∀ i : Fin 8, t.ch[c].h1[i] = 0x55555555#32) ∧
    (∀ k : Fin 256, t.ch[c].st2.x[k] = 0 ∧ t.ch[c].st3.x[k] = 0) ∧
    t.ch[c].st2.acc = 0 ∧ t.ch[c].st3.acc = 0 ∧ t.ch[c].st2.ph = 0 ∧ t.ch[c].st3.ph = 0 ∧
    t.ch[c].dcAcc = 0 ∧ t.ch[c].dcPrevX = 0 ∧ t.ch[c].smp = 0) ∧
  (∀ h : Half, Blank t.buf[h]) ∧ Blank t.ob ∧ Blank t.frm ∧
  t.coef1 = s.coef1 ∧ t.coef2 = s.coef2 ∧ t.coef3 = s.coef3 ∧
  t.agenda = s.agenda ∧ t.returned = s.returned ∧ t.link = s.link ∧ t.freeTick = s.freeTick

/-! ### The operation map, as the tables of 30_encoding.md R119 and R120 -/

/-- The operation codes and their formats (30_encoding.md R120). -/
def operationCodes : List (BitVec 8 × Format) :=
  [ (0x01, .z), (0x02, .ri), (0x03, .r), (0x04, .abi), (0x05, .z), (0x06, .z), (0x07, .z), (0x08, .z),
    (0x09, .z), (0x10, .i), (0x11, .z), (0x12, .z), (0x20, .z), (0x21, .z), (0x22, .z), (0x23, .z),
    (0x24, .z), (0x25, .ai), (0x26, .ai), (0x27, .ai), (0x28, .z), (0x29, .z), (0x2A, .z), (0x2B, .z),
    (0x2C, .z) ]

/-- Every field the format does not use is 0 (30_encoding.md R119, column "uses"). -/
def UnusedFieldsZero (f : Format) (w : OpWord) : Prop :=
  match f with
  | .z => aOf w = 0 ∧ bOf w = 0 ∧ immOf w = 0
  | .i => aOf w = 0 ∧ bOf w = 0
  | .r => aOf w = 0 ∧ immOf w = 0
  | .ri => aOf w = 0
  | .ai => bOf w = 0
  | .abi => True

/-- An operand 30_encoding.md R125 (c) reserves, by operation code. -/
def OperandReserved (w : OpWord) : Prop :=
  (opOf w = 0x04 ∧ (¬ (1 ≤ (aOf w).toNat ∧ (aOf w).toNat ≤ 3) ∨ 255 < (bOf w).toNat)) ∨
  ((opOf w = 0x25 ∨ opOf w = 0x26 ∨ opOf w = 0x27) ∧ 15 < (aOf w).toNat) ∨
  ((opOf w = 0x02 ∨ opOf w = 0x03) ∧
    ((bOf w).toNat ∈ [0x06, 0x07] ∨ (0x14 ≤ (bOf w).toNat ∧ (bOf w).toNat ≤ 0x1F) ∨
      (0x30 ≤ (bOf w).toNat ∧ (bOf w).toNat ≤ 0x3F) ∨ 0x4E ≤ (bOf w).toNat))

/-- The value CSRRD returns at every index that is not reserved, channel map apart (10_state.md R42,
R43). -/
def csrTable (s : State) : List (BitVec 16 × Word) :=
  [ (0x00, s.cfg.nIn), (0x01, s.cfg.nOut), (0x02, s.cfg.nStages), (0x03, s.cfg.ctrl), (0x04, s.cfg.spf),
    (0x05, s.cfg.nfb), (0x08, 256), (0x09, 32), (0x0A, 0), (0x0B, 8),
    (0x0C, s.cfg.s2.taps), (0x0D, s.cfg.s2.dec), (0x0E, s.cfg.s2.shr), (0x0F, s.cfg.s2.sw),
    (0x10, s.cfg.s3.taps), (0x11, s.cfg.s3.dec), (0x12, s.cfg.s3.shr), (0x13, s.cfg.s3.sw),
    (0x40, match s.rxState with
      | .idle => 0 | .armed => 1 | .running => 2 | .shuttingDown => 3 | .stopped => 4),
    (0x41, s.wrPos.setWidth 32), (0x42, BitVec.ofNat 32 s.fillSel.val),
    (0x43, BitVec.ofNat 32 s.fifo.length), (0x44, s.credit.setWidth 32), (0x45, s.dropCount),
    (0x46, s.status.setWidth 32), (0x47, s.fatalCause.setWidth 32),
    (0x48, match s.cseq with
      | .off => 0 | .req => 1 | .wait => 2 | .deint => 3 | .chsel => 4 | .fir => 5 | .dcoe => 6
      | .frmadd => 7 | .frmtx => 8 | .unwind => 9 | .drain => 10),
    (0x49, s.frmCol.setWidth 32), (0x4A, s.frmBuf.setWidth 32),
    (0x4B, if s.rxSdFlag then 1 else 0), (0x4C, if s.hoPend then 1 else 0),
    (0x4D, match s.hostPend with | .none => 0 | .rxframe => 1 | .rxframet => 2 | .shutdown => 3) ]

/-! ### Producer -/

/-- The word `w` lies at `BUF[FILL_SEL][WR_POS]` of `s`, everything else of `BUF` is as before
(44_pdm_rx_credit_fifo.md R212). -/
def WordStored (s : State) (w : Word) (t : State) : Prop :=
  (∀ i, t.buf[s.fillSel].read i = if i = s.wrPos.toNat then some w else s.buf[s.fillSel].read i) ∧
  ∀ h : Half, h ≠ s.fillSel → t.buf[h] = s.buf[h]

/-- `STATUS` after the store: `OVERRUN` is set when the half was not the producer's
(44_pdm_rx_credit_fifo.md R213). -/
def statusAfterStore (s : State) : BitVec 5 :=
  if s.own[s.fillSel] = .producer then s.status else s.status ||| 0b00010#5

/-- A PDMWORD that takes its word into the block. -/
def TakesWord (s : State) : Prop :=
  s.rxState = .running ∧ s.hoPend = false ∧ s.fatal = false ∧ s.rxSdFlag = false ∧ s.wrPos.toNat < 96

/-! ### The filters -/

/-- The value of a stored coefficient, 0 where nothing is written. -/
def coefAt (m : Memory) (k : Nat) : Int := ((m.read k).getD 0#32).toInt

/-- The 16-bit value of a stored Stage-1 coefficient (41_stage1.md R163). -/
def coef16At (m : Memory) (k : Nat) : Int := (((m.read k).getD 0#32).setWidth 16).toInt

/-- The sum of 41_stage1.md R163, written over the ages. -/
def dotSum (h : Vector Word 8) (m : Memory) : Int :=
  ∑ a ∈ Finset.range 256,
    (if (h[a / 32]?.getD 0#32).getLsbD (31 - a % 32) then -1 else 1) * coef16At m a

/-- The polyphase branch of 42_stage23.md R177: over every `j` with `r + j*D < T`. -/
def branchOver (m : Memory) (p : FirParams) (x : Vector Word 256) (r : Nat) : Int :=
  ∑ j ∈ (Finset.range 256).filter (fun j => r + j * p.dec < p.taps),
    coefAt m (r + j * p.dec) * sampleAt x (j * p.dec)

/-- The direct form of 42_stage23.md R184: over every tap. -/
def directSum (m : Memory) (p : FirParams) (x : Vector Word 256) : Int :=
  ∑ k ∈ Finset.range p.taps, coefAt m k * sampleAt x k

/-- What one step of Stage 2 or Stage 3 does (42_stage23.md R177 to R183). -/
structure FirStepped (m : Memory) (p : FirParams) (x : Word) (f f' : FirState) (out : Option Word)
    (sat : Bool) : Prop where
  newest : f'.x[0] = x
  older : ∀ k : Fin 256, 0 < k.val → k.val < p.taps → f'.x[k] = f.x[k.val - 1]
  beyond : ∀ k : Fin 256, 0 < k.val → p.taps ≤ k.val → f'.x[k] = f.x[k]
  between : f.ph.toNat + 1 < p.dec →
    f'.acc = BitVec.ofInt 72 (f.acc.toInt + branchOver m p f'.x (p.dec - 1 - f.ph.toNat)) ∧
    f'.ph.toNat = f.ph.toNat + 1 ∧ out = none ∧ sat = false
  output : f.ph.toNat + 1 = p.dec →
    f'.acc = 0 ∧ f'.ph = 0 ∧
    ∃ z : Int, z = rshr (BitVec.ofInt 72 (f.acc.toInt + branchOver m p f'.x 0)).toInt p.shr ∧
      out = some (BitVec.ofInt 32 (max (-2147483648) (min 2147483647 z))) ∧
      (sat = true ↔ z < -2147483648 ∨ 2147483647 < z)

/-- A stage's parameters are in range and its phase is in step with them. -/
def FirReady (m : Memory) (p : FirParams) (f : FirState) : Prop :=
  (p.dec = 2 ∨ p.dec = 3 ∨ p.dec = 6) ∧ 1 ≤ p.taps ∧ p.taps ≤ 256 ∧ Written m p.taps ∧ f.ph.toNat < p.dec

/-- The `D2` passes of FIRBLK over channel `c` from state `s`, oldest group first: the Stage-1 histories, the
Stage-2 states, what each pass emitted and whether it was clamped (46_control_sequencer.md R300). -/
structure BlockPasses (s : State) (c : Fin 16) (hist : Nat → Vector Word 8) (st : Nat → FirState)
    (out : Nat → Option Word) (sat : Nat → Bool) : Prop where
  start : hist 0 = s.ch[c].h1 ∧ st 0 = s.ch[c].st2
  pass : ∀ k < s.cfg.D2, ∃ w y1 : Word,
    s.ob.read (c.val * s.cfg.D2 + (s.cfg.D2 - 1 - k)) = some w ∧
    hist (k + 1) = pushHist w (hist k) ∧ y1.toInt = dotSum (hist (k + 1)) s.coef1 ∧
    FirStepped s.coef2 s.cfg.s2.params y1 (st k) (st (k + 1)) (out k) (sat k)

/-- What FIRBLK makes of channel `c` of `s`: its registers after, and whether a Stage-2 and a Stage-3 output was
clamped (46_control_sequencer.md R300). When the last pass emitted nothing the Stage-2 output is the free value
of log 10. -/
def ChannelFiltered (s : State) (c : Fin 16) (ch' : Channel) (clamped2 clamped3 : Bool) : Prop :=
  ∃ (hist : Nat → Vector Word 8) (st : Nat → FirState) (out : Nat → Option Word) (sat : Nat → Bool)
    (y2 : Word),
    BlockPasses s c hist st out sat ∧
    y2 = (out (s.cfg.D2 - 1)).getD (Config.freeSample s.freeTick c) ∧
    (s.ch[c].st2.ph = 0 → out (s.cfg.D2 - 1) = some y2) ∧
    (clamped2 = true ↔ ∃ k < s.cfg.D2, sat k = true) ∧
    ch'.h1 = hist s.cfg.D2 ∧ ch'.st2 = st s.cfg.D2 ∧ ch'.st2.ph = s.ch[c].st2.ph ∧
    ch'.dcAcc = s.ch[c].dcAcc ∧ ch'.dcPrevX = s.ch[c].dcPrevX ∧
    (s.cfg.nStages.toNat = 2 → ch'.st3 = s.ch[c].st3 ∧ ch'.smp = y2 ∧ clamped3 = false) ∧
    (s.cfg.nStages.toNat = 3 → ∃ out3,
      FirStepped s.coef3 s.cfg.s3.params y2 s.ch[c].st3 ch'.st3 out3 clamped3 ∧
      ch'.smp = out3.getD s.ch[c].smp)

/-- Inputs pushed one after another through a stage; what each emitted, in order. -/
def firRun (sp : Space) (m : Memory) (p : FirParams) :
    List Word → FirState → Except Fault (FirState × List (Option Word))
  | [], f => .ok (f, [])
  | x :: xs, f =>
    match firStep sp m p x f with
    | .error e => .error e
    | .ok o =>
      match firRun sp m p xs o.st with
      | .error e => .error e
      | .ok (f', outs) => .ok (f', o.out :: outs)

/-- The exact recurrence of 43_dcoe.md R195 over the rationals, inputs newest first, with the last input:
`y[t] = 63/64 * y[t-1] + x[t] - x[t-1]`, from 0. -/
def dcoeReference : List Int → Rat × Int
  | [] => (0, 0)
  | x :: past => (63 / 64 * (dcoeReference past).1 + x - (dcoeReference past).2, x)

/-- One channel after a list of inputs (newest first), from its value after INIT. -/
def dcoeAfter : List Word → Channel
  | [] => Channel.afterInit
  | x :: past => dcoeChannel { dcoeAfter past with smp := x }

/-- No update of the run left 64 bits (43_dcoe.md R198). -/
def dcoeFits : List Word → Prop
  | [] => True
  | x :: past => dcoeFits past ∧ dcoeOverflows { dcoeAfter past with smp := x } = false

/-! ### The consumer's table (46_control_sequencer.md R296) and the producer's (44_pdm_rx_credit_fifo.md R210) -/

/-- The edges of `CSEQ` along which an operation may move it (46_control_sequencer.md R296; START, INIT
and RESET: R290, 10_state.md R60). -/
def ConsumerEdge (a : CSeq) (i : Instr) (b : CSeq) : Prop :=
  (a, i, b) ∈ ([ (.req, .blkreq, .wait), (.wait, .blkpop, .deint), (.deint, .deint, .chsel),
    (.chsel, .chsel, .fir), (.fir, .firblk, .dcoe), (.fir, .firblk, .req), (.dcoe, .dcoe, .frmadd),
    (.frmadd, .frmadd, .frmtx), (.frmadd, .frmadd, .req), (.frmtx, .frmtx, .req),
    (.frmtx, .frmtx, .unwind), (.unwind, .unwind, .drain), (.drain, .drain, .off) ]
    : List (CSeq × Instr × CSeq)) ∨
  (i = .start ∧ b = .req) ∨ (i = .init ∧ b = .off) ∨ (i = .reset ∧ b = .off)

/-- The rows of 44_pdm_rx_credit_fifo.md R210 that change `RX_STATE`. -/
def ProducerEdge (s : State) (i : Instr) (b : RxState) : Prop :=
  (s.rxState = .idle ∧ i = .init ∧ b = .armed) ∨
  (s.rxState = .stopped ∧ i = .init ∧ b = .armed) ∨
  (s.rxState = .armed ∧ i = .start ∧ b = .running) ∨
  (s.rxState = .running ∧ (∃ w, i = .pdmword w) ∧ s.rxSdFlag = true ∧ b = .shuttingDown) ∨
  (s.rxState = .shuttingDown ∧ i = .rxexit ∧ b = .stopped) ∨
  (i = .reset ∧ b = .idle)

/-! ### Invariants -/

/-- The flow-control invariant of 44_pdm_rx_credit_fifo.md R230, with R34. Its clauses about the mode
hold while the write lock is closed, since CFGWR may change `RX_MODE` once the producer has stopped
(DEDUCED, log 24). -/
structure FlowInv (s : State) : Prop where
  level : s.fifo.length ≤ 2 ∧ s.credit.toNat ≤ 1
  waiting : s.active → s.cfg.threadMode = false → s.cseq = .wait → s.fifo.length + s.credit.toNat = 1
  elsewhere : s.active → s.cfg.threadMode = false → s.cseq ≠ .wait → s.fifo = [] ∧ s.credit = 0
  noPending : s.active → s.cfg.threadMode = false → s.hoPend = false
  noCredit : s.active → s.cfg.threadMode = true → s.credit = 0
  queued : Reliable s → ∀ h : Half, s.own[h] = .queued ↔ h ∈ s.fifo
  held : Reliable s → ∀ h : Half, s.own[h] = .consumer ↔ h = s.cur ∧ (s.cseq = .deint ∨ s.cseq = .chsel)
  distinct : Reliable s → s.fifo.Nodup
  blocked : s.hoPend = true → s.flag .overrun = true
  notStarted : s.rxState = .idle ∨ s.rxState = .armed → s.cseq = .off

/-- While the write lock is closed the configuration is legal and every position register is in the
range 10_state.md R22, R28, R38 give it. -/
structure RangeInv (s : State) : Prop where
  legal : s.active → LegalCfg s.cfg
  wrPos : s.active → s.wrPos.toNat < s.cfg.BW
  frmCol : s.active → s.frmCol.toNat < s.cfg.SPF
  frmBuf : s.active → s.frmBuf.toNat < s.cfg.NFB
  ph2 : s.active → ∀ c : Fin 16, s.ch[c].st2.ph.toNat < s.cfg.D2
  ph3 : s.active → s.cfg.nStages.toNat = 3 → ∀ c : Fin 16, s.ch[c].st3.ph.toNat < s.cfg.D3

/-- Where the consumer can be in a shutdown: `RX_SD_FLAG` is set by UNWIND and cleared by INIT and RESET
only (10_state.md R35), and the producer leaves running only after it. -/
structure ShutdownInv (s : State) : Prop where
  flagged : s.rxState = .shuttingDown ∨ s.rxState = .stopped → s.rxSdFlag = true
  unwound : s.rxSdFlag = true → s.cseq = .drain ∨ s.cseq = .off
  fresh : s.rxState = .idle ∨ s.rxState = .armed → s.cseq = .off ∧ s.rxSdFlag = false

/-- Every memory word a consumer operation will read has been written: the reason why
60_exceptions.md R330 says that `fault(UNINIT)` on `BUF`, `OB` and `FRM` cannot happen under the rules. -/
structure WrittenInv (s : State) : Prop where
  filling : s.active → ∀ i, s.wrPos.toNat < i → i < s.cfg.BW → (s.buf[s.fillSel].read i).isSome = true
  queued : s.active → ∀ h ∈ s.fifo, Written s.buf[h] s.cfg.BW
  pending : s.active → s.hoPend = true → Written s.buf[s.hoHalf] s.cfg.BW
  held : s.active → s.cseq = .deint ∨ s.cseq = .chsel → Written s.buf[s.cur] s.cfg.BW
  block : s.active → s.cseq = .fir → Written s.ob s.cfg.OBW
  columns : s.active → s.cseq ≠ .frmtx → ∀ c < s.cfg.N_OUT, ∀ k < s.frmCol.toNat,
    (s.frm.read (s.cfg.frmIndex s.frmBuf.toNat c k)).isSome = true
  frame : s.active → s.cseq = .frmtx → ∀ c < s.cfg.N_OUT, ∀ k < s.cfg.SPF,
    (s.frm.read (s.cfg.frmIndex s.frmBuf.toNat c k)).isSome = true
  frameStart : s.active → s.cseq = .frmtx → s.frmCol = 0

/-- The invariant of a machine that no memory fault can stop. -/
structure RunInv (s : State) : Prop where
  range : RangeInv s
  shutdown : ShutdownInv s
  written : WrittenInv s

/-- The double buffer in interrupt-driven mode with the fatal drop policy (60_exceptions.md R331): the
overrun flag is clear, and until a fatal stop no queued or held half is the one being filled. -/
structure NoOverrunInv (s : State) : Prop where
  flow : FlowInv s
  clear : s.active → s.cfg.threadMode = false → s.cfg.countAndDrop = false → Reliable s
  queuedApart : s.active → s.cfg.threadMode = false → s.cfg.countAndDrop = false → s.fatal = false →
    ∀ h ∈ s.fifo, h ≠ s.fillSel
  heldApart : s.active → s.cfg.threadMode = false → s.cfg.countAndDrop = false → s.fatal = false →
    s.cseq = .deint ∨ s.cseq = .chsel → s.cur ≠ s.fillSel

/-- What 70_reset_and_hazards.md R371 promises of a schedule that meets its premise: no block dropped (neither
a fatal stop nor a counted drop), `OVERRUN` clear, the FIFO at most one deep, the producer not blocked, and
(R371 (b)) the half being filled the producer's own. -/
structure NothingLost (s : State) : Prop where
  notStopped : s.fatal = false
  noneDropped : s.dropCount = 0
  noOverrun : Reliable s
  level : s.fifo.length ≤ 1
  notBlocked : s.hoPend = false
  ownHalf : s.own[s.fillSel] = .producer

/-- Why: the invariant a schedule that meets the premise of R371 keeps while the write lock is closed. `ready`
says that the consumer has reached `C_WAIT` since the last completed block or START. -/
structure OnTime (ready : Bool) (s : State) : Prop where
  kept : s.fatal = false ∧ s.dropCount = 0 ∧ Reliable s ∧ s.hoPend = false
  queued : s.fifo = [] ∨ (s.fifo = [1 - s.fillSel] ∧ s.cseq = .wait)
  held : s.cseq = .deint ∨ s.cseq = .chsel → s.cur ≠ s.fillSel
  tags : ∀ h : Half, s.own[h] ≠ .producer → h ∈ s.fifo ∨ (h = s.cur ∧ (s.cseq = .deint ∨ s.cseq = .chsel))
  heard : ready = true → s.rxState ≠ .armed →
    s.cseq = .wait ∧ s.fifo = [] ∧ (s.cfg.threadMode = false → 0 < s.credit.toNat)
  armed : s.rxState = .armed → s.cseq = .off

/-- `FATAL_CAUSE` is 0 exactly when there was no fatal stop (10_state.md R41, 60_exceptions.md R323). -/
def CauseInv (s : State) : Prop := s.fatal = false ↔ s.fatalCause = 0

end Sys2Proof.Machine
end

