-- ==== Sys2Proof/Certificates/Slice0/Obligations.lean ====
section
/-! DEFINITION. The statements for the provers, in the order of OBLIGATIONS.json. Each is written from the
rules its entry cites; where a clause is the model's own choice the docstring names the log entry. -/

section
open Sys2Proof Sys2Proof.Machine

/-! ### Encoding -/

/-- 30_encoding.md R118 to R121: encoding an operation with well-formed operands and decoding the word
gives the operation back. -/
def Obligations.DecodeInvertsEncode : Prop :=
  ∀ i : Instr, i.wellFormed = true → decode (encode i) = .ok i

/-- 30_encoding.md R118 to R121: a word that decodes has well-formed operands and is the one word of its
operation. -/
def Obligations.EncodeInvertsDecode : Prop :=
  ∀ (w : OpWord) (i : Instr), decode w = .ok i → i.wellFormed = true ∧ encode i = w

/-- 30_encoding.md R125: a reserved word names no operation and is refused, with no next state; every other
word decodes. The three reasons and the order they are tried in are the model's (log 22). -/
def Obligations.ReservedWordsAreRefused : Prop :=
  ∀ (s : State) (w : OpWord) (rest : List OpWord), s.agenda = w :: rest →
    ((∀ f, (opOf w, f) ∉ operationCodes) → step s = .refused (.reservedWord .reservedOp)) ∧
    (∀ f, (opOf w, f) ∈ operationCodes →
      (¬ UnusedFieldsZero f w → step s = .refused (.reservedWord .nonzeroUnusedField)) ∧
      (UnusedFieldsZero f w → OperandReserved w →
        step s = .refused (.reservedWord .operandOutOfRange)) ∧
      (UnusedFieldsZero f w → ¬ OperandReserved w → ∃ i, decode w = .ok i))

/-- 95_test_vectors.md V-ENC-1 and 30_encoding.md R130: written-out words decode to the operations they
stand for. -/
def Obligations.WrittenOutWordsDecode : Prop :=
  decode 0x0100000000000000#64 = .ok .reset ∧
  decode 0x1000000012345678#64 = .ok (.pdmword 0x12345678#32) ∧
  decode 0x0300004500000000#64 = .ok (.csrrd 0x45#16) ∧
  decode 0x0200000D00000006#64 = .ok (.cfgwr 0x0D#16 6#32) ∧
  decode 0x26030000FFFFFFFF#64 = .ok (.s2step 3#8 0xFFFFFFFF#32) ∧
  decode 0x04010025FFFFFFFB#64 = .ok (.coefwr 1#8 37#16 (BitVec.ofInt 32 (-5)))

/-- The step performs the operation presented next and takes nothing else from the agenda; with nothing
presented every agent waits (00_scope.md R13; the agenda is the model's, log 1). -/
def Obligations.StepPerformsTheDecodedOperation : Prop :=
  (∀ (s : State) (w : OpWord) (rest : List OpWord) (i : Instr),
    s.agenda = w :: rest → decode w = .ok i → step s = exec i { s with agenda := rest }) ∧
  ∀ s : State, s.agenda = [] → step s = .next s

/-- 30_encoding.md R118: "MADC's behaviour never reads an operation word as data": what an operation does
does not depend on the operation words that come after it, and it leaves them alone. -/
def Obligations.OperationsNeverReadTheAgenda : Prop :=
  ∀ (i : Instr) (s : State) (l : List OpWord),
    exec i { s with agenda := l } = withAgenda l (exec i s)

/-- 00_scope.md R13, 30_encoding.md R126: an operation that is not enabled, or a command that is ignored,
changes nothing (log 2); the exception is a link command while another waits. -/
def Obligations.DisabledOperationsChangeNothing : Prop :=
  ∀ (i : Instr) (s : State), i.wellFormed = true → acts i s = false →
    (isLinkCommand i = true → s.hostPend = .none) → exec i s = .next s

/-! ### Reset and configuration -/

/-- 70_reset_and_hazards.md R361: RESET is always enabled and leaves every piece of state at its
after-RESET value; the model's own fields stay (log 7). 10_state.md R60: the state the machine starts in has
those values too. -/
def Obligations.ResetOperation : Prop :=
  encode .reset = 0x0100000000000000#64 ∧ AfterReset State.reset ∧
  ∀ s : State, ∃ t, exec .reset s = .next t ∧ AfterReset t ∧
    t.agenda = s.agenda ∧ t.returned = s.returned ∧ t.link = s.link ∧ t.freeTick = s.freeTick

/-- 46_control_sequencer.md R281 with R280: CFGWR writes all 32 bits of a writable register, unchecked, and
no other register; on a read-only index it does nothing. -/
def Obligations.ConfigurationWrite : Prop :=
  ∀ (b : BitVec 16) (v : Word) (s : State), reservedIndex b = false →
    (s.rxState = .idle ∨ s.rxState = .stopped) → s.fatal = false →
    ∃ (r : Reg) (t : State), regOfIndex b = some r ∧ exec (.cfgwr b v) s = .next t ∧
      t = { s with cfg := t.cfg } ∧
      (∀ k, r = .cfg k → t.cfg.read k = v) ∧
      (∀ k, r ≠ .cfg k → t.cfg.read k = s.cfg.read k) ∧
      ((∃ k, r = .cfg k) ↔ b.toNat ≤ 0x05 ∨ (0x0C ≤ b.toNat ∧ b.toNat ≤ 0x13) ∨
        (0x20 ≤ b.toNat ∧ b.toNat ≤ 0x2F))

/-- 46_control_sequencer.md R283: CSRRD returns the register at its index, zero-extended, in every state,
and changes nothing else; the list of returned values is the model's (log 11). -/
def Obligations.RegisterRead : Prop :=
  encode (.csrrd 0x45) = 0x0300004500000000#64 ∧
  ∀ s : State,
    (∀ p ∈ csrTable s, exec (.csrrd p.1) s = .next { s with returned := s.returned ++ [.csr p.2] }) ∧
    (∀ c : Fin 16, exec (.csrrd (BitVec.ofNat 16 (0x20 + c.val))) s =
      .next { s with returned := s.returned ++ [.csr s.cfg.chmap[c]] }) ∧
    ∀ b, reservedIndex b = false → b ∈ (csrTable s).map Prod.fst ∨ ∃ c : Fin 16, b.toNat = 0x20 + c.val

/-- 46_control_sequencer.md R285 with R280: COEFWR writes one coefficient, sign-extended from 16 bits for
stage 1, and no other word. -/
def Obligations.CoefficientWrite : Prop :=
  ∀ (k : Fin 256) (v : Word) (s : State), (s.rxState = .idle ∨ s.rxState = .stopped) → s.fatal = false →
    (∃ t, exec (.coefwr 1 (BitVec.ofNat 16 k) v) s = .next t ∧ t = { s with coef1 := t.coef1 } ∧
      ∀ i, t.coef1.read i =
        if i = k.val then some (BitVec.ofInt 32 (v.setWidth 16).toInt) else s.coef1.read i) ∧
    (∃ t, exec (.coefwr 2 (BitVec.ofNat 16 k) v) s = .next t ∧ t = { s with coef2 := t.coef2 } ∧
      ∀ i, t.coef2.read i = if i = k.val then some v else s.coef2.read i) ∧
    (∃ t, exec (.coefwr 3 (BitVec.ofNat 16 k) v) s = .next t ∧ t = { s with coef3 := t.coef3 } ∧
      ∀ i, t.coef3.read i = if i = k.val then some v else s.coef3.read i)

/-- 46_control_sequencer.md R280: CFGWR, COEFWR and INIT act only in idle or stopped without a fatal stop,
START only in armed; in any other state they are accepted and ignored. -/
def Obligations.LockedCommandsAreIgnored : Prop :=
  ∀ s : State,
    (¬ ((s.rxState = .idle ∨ s.rxState = .stopped) ∧ s.fatal = false) →
      (∀ b v, reservedIndex b = false → exec (.cfgwr b v) s = .next s) ∧
      (∀ a b v, legalStage a = true → legalTap b = true → exec (.coefwr a b v) s = .next s) ∧
      exec .init s = .next s) ∧
    (¬ (s.rxState = .armed ∧ s.fatal = false) → exec .start s = .next s)

/-- 46_control_sequencer.md R288, 60_exceptions.md R323, R324: INIT makes its thirteen checks in order; when
they pass every piece of state takes its after-INIT value, otherwise the first that fails ends the operation
with the fatal stop of its code and nothing else changes; it acts in idle or stopped without a fatal stop and
is ignored otherwise. That the memories R60 leaves unspecified hold no value is log 8; the start-up pattern of
the Stage-1 histories is log 18. -/
def Obligations.InitChecksInOrder : Prop :=
  encode .init = 0x0500000000000000#64 ∧
  ∀ s : State,
    ((s.rxState = .idle ∨ s.rxState = .stopped) ∧ s.fatal = false →
      (LegalCfg s.cfg → ∃ t, exec .init s = .next t ∧ AfterInit s t) ∧
      ∀ passed p rest, initConditions s.cfg = passed ++ p :: rest → (∀ q ∈ passed, q) → ¬ p →
        exec .init s = .next { s with
          status := s.status ||| 0b00001#5, fatalCause := BitVec.ofNat 8 (0x10 + passed.length) }) ∧
    (¬ ((s.rxState = .idle ∨ s.rxState = .stopped) ∧ s.fatal = false) → exec .init s = .next s)

/-- 46_control_sequencer.md R290: START moves the producer to running and the consumer to `C_REQ`; it acts
in armed without a fatal stop and is ignored otherwise. -/
def Obligations.StartBeginsBothContexts : Prop :=
  encode .start = 0x0600000000000000#64 ∧
  ∀ s : State,
    (s.rxState = .armed ∧ s.fatal = false →
      exec .start s = .next { s with rxState := .running, cseq := .req }) ∧
    (¬ (s.rxState = .armed ∧ s.fatal = false) → exec .start s = .next s)

/-! ### The frame link commands -/

/-- 45_framing_transfer.md R257, R258, R260: an accepted link command waits in `HOST_PEND` and changes
nothing else; while the producer is idle, shutting-down or stopped, or after a fatal stop, it is not enabled
and answers the same state (log 2). -/
def Obligations.LinkCommandsWait : Prop :=
  ∀ s : State, s.hostPend = .none →
    ((s.rxState = .armed ∨ s.rxState = .running) ∧ s.fatal = false →
      exec .rxframe s = .next { s with hostPend := .rxframe } ∧
      exec .rxframet s = .next { s with hostPend := .rxframet } ∧
      exec .shutdown s = .next { s with hostPend := .shutdown }) ∧
    (¬ ((s.rxState = .armed ∨ s.rxState = .running) ∧ s.fatal = false) →
      exec .rxframe s = .next s ∧ exec .rxframet s = .next s ∧ exec .shutdown s = .next s)

/-- 45_framing_transfer.md R261: a second link command while one is waiting has no behaviour. That this holds
in every state, also where the command would not be enabled, is log 3. -/
def Obligations.LinkMisuseFaults : Prop :=
  ∀ s : State, s.hostPend ≠ .none →
    exec .rxframe s = .fault .hostMisuse ∧ exec .rxframet s = .fault .hostMisuse ∧
    exec .shutdown s = .fault .hostMisuse

/-! ### The producer -/

/-- 44_pdm_rx_credit_fifo.md R212, R213: a word inside a block is stored at `BUF[FILL_SEL][WR_POS]`, the
overrun flag is set when the half is not the producer's, and the position counts down. -/
def Obligations.WordInsideABlock : Prop :=
  ∀ (w : Word) (s : State), TakesWord s → 0 < s.wrPos.toNat →
    ∃ t, exec (.pdmword w) s = .next t ∧ WordStored s w t ∧
      t = { s with buf := t.buf, status := statusAfterStore s, wrPos := t.wrPos } ∧
      t.wrPos.toNat = s.wrPos.toNat - 1

/-- 44_pdm_rx_credit_fifo.md R219 with R214: the word at position 0 completes the block; in
interrupt-driven mode with credit the halves swap, the half just filled is queued and the credit is taken. -/
def Obligations.BlockHandedOffWithCredit : Prop :=
  ∀ (w : Word) (s : State), TakesWord s → s.wrPos = 0 → 1 ≤ s.cfg.BW → s.cfg.BW ≤ 96 →
    s.cfg.threadMode = false → 0 < s.credit.toNat →
    ∃ t, exec (.pdmword w) s = .next t ∧ WordStored s w t ∧
      t = { s with
        buf := t.buf, status := statusAfterStore s, wrPos := t.wrPos, fillSel := t.fillSel,
        fifo := s.fifo ++ [s.fillSel], own := t.own, credit := t.credit } ∧
      t.wrPos.toNat = s.cfg.BW - 1 ∧ t.fillSel ≠ s.fillSel ∧
      t.credit.toNat = s.credit.toNat - 1 ∧
      t.own[s.fillSel] = .queued ∧ ∀ h : Half, h ≠ s.fillSel → t.own[h] = s.own[h]

/-- 44_pdm_rx_credit_fifo.md R220 with R214, R322: without credit the completed block is dropped: a fatal
stop under the fatal policy, a count under the other; the halves swap all the same and the block is not
queued. -/
def Obligations.BlockDroppedWithoutCredit : Prop :=
  ∀ (w : Word) (s : State), TakesWord s → s.wrPos = 0 → 1 ≤ s.cfg.BW → s.cfg.BW ≤ 96 →
    s.cfg.threadMode = false → s.credit = 0 →
    ∃ t, exec (.pdmword w) s = .next t ∧ WordStored s w t ∧
      t.wrPos.toNat = s.cfg.BW - 1 ∧ t.fillSel ≠ s.fillSel ∧
      (s.cfg.countAndDrop = true → t = { s with
        buf := t.buf, status := statusAfterStore s, wrPos := t.wrPos, fillSel := t.fillSel,
        dropCount := s.dropCount + 1 }) ∧
      (s.cfg.countAndDrop = false → t = { s with
        buf := t.buf, status := statusAfterStore s ||| 0b00001#5, wrPos := t.wrPos,
        fillSel := t.fillSel, fatalCause := 0x01#8 })

/-- 44_pdm_rx_credit_fifo.md R221 with R214: in thread-driven mode the completed block is queued while the
FIFO has room; otherwise the producer is blocked with the half pending. -/
def Obligations.ThreadModeHandOff : Prop :=
  ∀ (w : Word) (s : State), TakesWord s → s.wrPos = 0 → 1 ≤ s.cfg.BW → s.cfg.BW ≤ 96 →
    s.cfg.threadMode = true →
    ∃ t, exec (.pdmword w) s = .next t ∧ WordStored s w t ∧
      t.wrPos.toNat = s.cfg.BW - 1 ∧ t.fillSel ≠ s.fillSel ∧
      (s.fifo.length < 2 →
        t = { s with
          buf := t.buf, status := statusAfterStore s, wrPos := t.wrPos, fillSel := t.fillSel,
          fifo := s.fifo ++ [s.fillSel], own := t.own } ∧
        t.own[s.fillSel] = .queued ∧ ∀ h : Half, h ≠ s.fillSel → t.own[h] = s.own[h]) ∧
      (2 ≤ s.fifo.length →
        t = { s with
          buf := t.buf, status := statusAfterStore s, wrPos := t.wrPos, fillSel := t.fillSel,
          hoPend := true, hoHalf := s.fillSel })

/-- 44_pdm_rx_credit_fifo.md R215: a word that finds the shutdown flag is discarded, the half is left as it
is, and the producer moves to shutting-down. -/
def Obligations.ShutdownFlagSeenOnAWord : Prop :=
  ∀ (w : Word) (s : State), s.rxState = .running → s.hoPend = false → s.fatal = false →
    s.rxSdFlag = true → exec (.pdmword w) s = .next { s with rxState := .shuttingDown }

/-- 44_pdm_rx_credit_fifo.md R221: HANDOFF completes a blocked push; until the FIFO has room the producer
waits: not enabled, HANDOFF answers the same state (log 2). -/
def Obligations.PendingHandOffCompletes : Prop :=
  encode .handoff = 0x1100000000000000#64 ∧
  ∀ s : State,
    (s.hoPend = true ∧ s.fifo.length < 2 ∧ s.fatal = false →
      ∃ t, exec .handoff s = .next t ∧
        t = { s with fifo := s.fifo ++ [s.hoHalf], own := t.own, hoPend := false } ∧
        t.own[s.hoHalf] = .queued ∧ ∀ h : Half, h ≠ s.hoHalf → t.own[h] = s.own[h]) ∧
    (¬ (s.hoPend = true ∧ s.fifo.length < 2 ∧ s.fatal = false) → exec .handoff s = .next s)

/-- 44_pdm_rx_credit_fifo.md R224: RXEXIT moves shutting-down to stopped and changes nothing else; not
enabled, it answers the same state (log 2). -/
def Obligations.ProducerExit : Prop :=
  encode .rxexit = 0x1200000000000000#64 ∧
  ∀ s : State,
    (s.rxState = .shuttingDown ∧ s.fatal = false →
      exec .rxexit s = .next { s with rxState := .stopped }) ∧
    (¬ (s.rxState = .shuttingDown ∧ s.fatal = false) → exec .rxexit s = .next s)

/-! ### The consumer's FIFO operations -/

/-- 44_pdm_rx_credit_fifo.md R226: BLKREQ sets the credit to exactly 1 in interrupt-driven mode and the
consumer becomes a waiting receiver; not enabled, it answers the same state (log 2). -/
def Obligations.BlockRequest : Prop :=
  encode .blkreq = 0x2000000000000000#64 ∧
  ∀ s : State,
    (s.cseq = .req ∧ s.fatal = false →
      (s.cfg.threadMode = false → exec .blkreq s = .next { s with credit := 1, cseq := .wait }) ∧
      (s.cfg.threadMode = true → exec .blkreq s = .next { s with cseq := .wait })) ∧
    (¬ (s.cseq = .req ∧ s.fatal = false) → exec .blkreq s = .next s)

/-- 44_pdm_rx_credit_fifo.md R228: BLKPOP takes the head of the FIFO and tags the half as the consumer's;
with an empty FIFO, or otherwise not enabled, it answers the same state: the consumer waits (log 2). -/
def Obligations.BlockPop : Prop :=
  encode .blkpop = 0x2100000000000000#64 ∧
  ∀ s : State,
    (∀ h rest, s.cseq = .wait → s.fatal = false → s.fifo = h :: rest →
      ∃ t, exec .blkpop s = .next t ∧
        t = { s with cur := h, fifo := rest, own := t.own, cseq := .deint } ∧
        t.own[h] = .consumer ∧ ∀ k : Half, k ≠ h → t.own[k] = s.own[k]) ∧
    (¬ (s.cseq = .wait ∧ s.fatal = false ∧ s.fifo ≠ []) → exec .blkpop s = .next s)

/-! ### Deinterleaver and channel selection -/

/-- 40_deinterleave.md R141, R142: DEINT replaces every word of the draining half by the channel word of
its group, bit `j` of channel `c` being bit `(j mod TW)*N + c` of raw word `N-1 - j div TW`, and changes
nothing else but `CSEQ`. -/
def Obligations.DeinterleaveHalf : Prop :=
  ∀ s : State, s.cseq = .deint → s.fatal = false → LegalCfg s.cfg → Written s.buf[s.cur] s.cfg.BW →
    ∃ t, exec .deint s = .next t ∧ t = { s with buf := t.buf, cseq := .chsel } ∧
      (∀ h : Half, h ≠ s.cur → t.buf[h] = s.buf[h]) ∧
      (∀ i, s.cfg.BW ≤ i → t.buf[s.cur].read i = s.buf[s.cur].read i) ∧
      ∀ g < s.cfg.D2, ∀ c < s.cfg.N_IN, ∃ o, t.buf[s.cur].read (g * s.cfg.N_IN + c) = some o ∧
        ∀ j < 32, ∃ w,
          s.buf[s.cur].read (g * s.cfg.N_IN + (s.cfg.N_IN - 1 - j / (32 / s.cfg.N_IN))) = some w ∧
          o.getLsbD j = w.getLsbD (j % (32 / s.cfg.N_IN) * s.cfg.N_IN + c)

/-- 40_deinterleave.md R146: `interleave_group` and `deint_group` are inverse to each other on every group
of raw words, the first putting `O[c][j]` at bit `(j mod TW)*N + c` of word `N-1 - j div TW`; R145: a group of
one word is left as it is. -/
def Obligations.DeinterleaveRoundTrip : Prop :=
  (∀ n ∈ [1, 2, 4, 8, 16], ∀ ws : List Word, ws.length = n →
    deintGroup n (interleaveGroup n ws) = ws ∧ interleaveGroup n (deintGroup n ws) = ws ∧
    ∀ c < n, ∀ j < 32,
      ((interleaveGroup n ws).getD (n - 1 - j / (32 / n)) 0#32).getLsbD (j % (32 / n) * n + c) =
        (ws.getD c 0#32).getLsbD j) ∧
  ∀ w : Word, deintGroup 1 [w] = [w]

/-- 40_deinterleave.md R144: the group function equals the word reversal followed by `n` perfect
unshuffles: the bit at each address of the group goes where the network moves it. -/
def Obligations.DeinterleaveIsTheNetwork : Prop :=
  ∀ n < 5, ∀ ws : List Word, ws.length = 2 ^ n → ∀ x < 32 * 2 ^ n,
    networkTo n x < 32 * 2 ^ n ∧
    ((deintGroup (2 ^ n) ws).getD (networkTo n x / 32) 0#32).getLsbD (networkTo n x % 32) =
      (ws.getD (x / 32) 0#32).getLsbD (x % 32)

/-- 40_deinterleave.md R150: CHSEL copies the mapped channels of the half into the output block buffer,
`OB[c*D2 + g] = BUF[CUR][g*N_IN + CHMAP[c]]`, gives the half back to the producer, and changes nothing
else but `CSEQ`; away from `C_CHSEL` or after a fatal stop it answers the same state (log 2). -/
def Obligations.ChannelSelection : Prop :=
  encode .chsel = 0x2300000000000000#64 ∧
  (∀ s : State, ¬ (s.cseq = .chsel ∧ s.fatal = false) → exec .chsel s = .next s) ∧
  ∀ s : State, s.cseq = .chsel → s.fatal = false → LegalCfg s.cfg → Written s.buf[s.cur] s.cfg.BW →
    ∃ t, exec .chsel s = .next t ∧ t = { s with ob := t.ob, own := t.own, cseq := .fir } ∧
      t.own[s.cur] = .producer ∧ (∀ h : Half, h ≠ s.cur → t.own[h] = s.own[h]) ∧
      (∀ c : Fin 16, c.val < s.cfg.N_OUT → ∀ g < s.cfg.D2,
        t.ob.read (c.val * s.cfg.D2 + g) =
          s.buf[s.cur].read (g * s.cfg.N_IN + s.cfg.chmap[c].toNat)) ∧
      ∀ i, s.cfg.OBW ≤ i → t.ob.read i = s.ob.read i

/-! ### The filters -/

/-- 41_stage1.md R162, R163: S1STEP pushes the word into the history and emits the exact 256-tap dot
product of the updated history; a coefficient nothing has written is `fault(UNINIT)`; not enabled, it answers
the same state (log 2). The polarity of the PDM bits is log 17. What is emitted is appended to the model's list
of returned values (log 11). -/
def Obligations.StageOneStep : Prop :=
  encode (.s1step 0 0) = 0x2500000000000000#64 ∧
  ∀ (c : Fin 16) (w : Word) (s : State),
    ((s.rxState = .armed ∨ s.rxState = .running) ∧ s.fatal = false →
      (Written s.coef1 256 → ∃ h y,
        exec (.s1step (BitVec.ofNat 8 c) w) s = .next { s with
          ch := s.ch.set c { s.ch[c] with h1 := h }, returned := s.returned ++ [.sample (some y)] } ∧
        h[0] = w ∧ (∀ i : Fin 8, 0 < i.val → h[i] = s.ch[c].h1[i.val - 1]) ∧
        y.toInt = dotSum h s.coef1) ∧
      (¬ Written s.coef1 256 → exec (.s1step (BitVec.ofNat 8 c) w) s = .fault (.uninit .coef1))) ∧
    (¬ ((s.rxState = .armed ∨ s.rxState = .running) ∧ s.fatal = false) →
      exec (.s1step (BitVec.ofNat 8 c) w) s = .next s)

/-- 41_stage1.md R165: complementing all 256 bits of a history negates the dot product. -/
def Obligations.StageOneOddSymmetry : Prop :=
  ∀ (h : Vector Word 8) (coef : Nat → Int),
    s1Dot (Vector.ofFn fun i : Fin 8 => ~~~h[i]) coef = - s1Dot h coef

/-- 41_stage1.md R164: the dot product is the sum of the coefficients less twice the sum over the ages
whose bit is 1 (the polarity is log 17), and with 16-bit coefficients it lies in `-2^23 .. 2^23`, so Stage 1
cannot overflow. -/
def Obligations.StageOneRange : Prop :=
  ∀ (h : Vector Word 8) (coef : Nat → Int), (∀ a, -32768 ≤ coef a ∧ coef a ≤ 32767) →
    s1Dot h coef = (∑ a ∈ Finset.range 256, coef a) -
        2 * ∑ a ∈ (Finset.range 256).filter
          (fun a => (h[a / 32]?.getD 0#32).getLsbD (31 - a % 32) = true), coef a ∧
      -8388608 ≤ s1Dot h coef ∧ s1Dot h coef ≤ 8388608 ∧
      (BitVec.ofInt 32 (s1Dot h coef)).toInt = s1Dot h coef

/-- 42_stage23.md R177: S2STEP pushes the sample, adds the branch of its phase, and on every `D2`-th input
emits the rounded, clamped sum, setting `S2SAT` when clamping changed it; a coefficient below the tap count that
nothing has written is `fault(UNINIT)` (60_exceptions.md R330); not enabled, it answers the same state (log 2).
The list of returned values is the model's (log 11). -/
def Obligations.StageTwoStep : Prop :=
  ∀ (c : Fin 16) (x : Word) (s : State),
    ((s.rxState = .armed ∨ s.rxState = .running) ∧ s.fatal = false →
      (FirReady s.coef2 s.cfg.s2.params s.ch[c].st2 →
        ∃ f out sat, FirStepped s.coef2 s.cfg.s2.params x s.ch[c].st2 f out sat ∧
          exec (.s2step (BitVec.ofNat 8 c) x) s = .next { s with
            ch := s.ch.set c { s.ch[c] with st2 := f },
            status := if sat then s.status ||| 0b00100#5 else s.status,
            returned := s.returned ++ [.sample out] }) ∧
      (s.cfg.T2 ≤ 256 → ¬ Written s.coef2 s.cfg.T2 →
        exec (.s2step (BitVec.ofNat 8 c) x) s = .fault (.uninit .coef2))) ∧
    (¬ ((s.rxState = .armed ∨ s.rxState = .running) ∧ s.fatal = false) →
      exec (.s2step (BitVec.ofNat 8 c) x) s = .next s)

/-- 42_stage23.md R186: S3STEP is the same step with the Stage-3 names, its faults included, enabled only when
`N_STAGES = 3`; not enabled, it answers the same state (log 2). The list of returned values is the model's
(log 11). -/
def Obligations.StageThreeStep : Prop :=
  ∀ (c : Fin 16) (x : Word) (s : State),
    ((s.rxState = .armed ∨ s.rxState = .running) ∧ s.fatal = false ∧ s.cfg.nStages.toNat = 3 →
      (FirReady s.coef3 s.cfg.s3.params s.ch[c].st3 →
        ∃ f out sat, FirStepped s.coef3 s.cfg.s3.params x s.ch[c].st3 f out sat ∧
          exec (.s3step (BitVec.ofNat 8 c) x) s = .next { s with
            ch := s.ch.set c { s.ch[c] with st3 := f },
            status := if sat then s.status ||| 0b01000#5 else s.status,
            returned := s.returned ++ [.sample out] }) ∧
      (s.cfg.T3 ≤ 256 → ¬ Written s.coef3 s.cfg.T3 →
        exec (.s3step (BitVec.ofNat 8 c) x) s = .fault (.uninit .coef3))) ∧
    (¬ ((s.rxState = .armed ∨ s.rxState = .running) ∧ s.fatal = false ∧ s.cfg.nStages.toNat = 3) →
      exec (.s3step (BitVec.ofNat 8 c) x) s = .next s)

/-- 42_stage23.md R181: the rounding shift is the floor of the value plus half the unit shifted out. -/
def Obligations.RoundingShift : Prop :=
  (∀ z, rshr z 0 = z) ∧
  (∀ (z : Int) (n : Nat), 1 ≤ n → n ≤ 63 →
    rshr z n * 2 ^ n ≤ z + 2 ^ (n - 1) ∧ z + 2 ^ (n - 1) < (rshr z n + 1) * 2 ^ n) ∧
  rshr 1 1 = 1 ∧ rshr (-1) 1 = 0 ∧ rshr 3 1 = 2 ∧ rshr (-3) 1 = -1 ∧ rshr 5 2 = 1 ∧ rshr 6 2 = 2 ∧
  rshr (-6) 2 = -1 ∧ rshr (-7) 2 = -2

/-- 42_stage23.md R184: from an output boundary, `D` inputs pushed one after another emit nothing until the
last, which emits the shifted and clamped direct-form sum over the whole history; the stage is at an output
boundary again (R183). -/
def Obligations.PolyphaseEqualsDirectForm : Prop :=
  ∀ (sp : Space) (m : Memory) (p : FirParams) (f : FirState) (xs : List Word), FirReady m p f →
    f.acc = 0 → f.ph = 0 → xs.length = p.dec →
    ∃ f', firRun sp m p xs f = .ok (f', List.replicate (p.dec - 1) none ++
        [some (BitVec.ofInt 32 (sat32 (rshr (directSum m p f'.x) p.shr)))]) ∧
      f'.acc = 0 ∧ f'.ph = 0

/-- 43_dcoe.md R197, R198, R199: with `DCOE_EN = 1` every processed channel takes the wrapped accumulator,
the input and the accumulator's high word, and `DCOVF` is set when an exact sum does not fit; with
`DCOE_EN = 0` nothing but `CSEQ` changes; away from `C_DCOE` or after a fatal stop it answers the same state
(log 2). -/
def Obligations.DcOffsetFilter : Prop :=
  encode .dcoe = 0x2800000000000000#64 ∧
  (∀ s : State, ¬ (s.cseq = .dcoe ∧ s.fatal = false) → exec .dcoe s = .next s) ∧
  ∀ s : State, s.cseq = .dcoe → s.fatal = false →
    (s.cfg.dcoeEn = false → exec .dcoe s = .next { s with cseq := .frmadd }) ∧
    (s.cfg.dcoeEn = true → ∃ t, exec .dcoe s = .next t ∧
      t = { s with ch := t.ch, status := t.status, cseq := .frmadd } ∧
      (∀ c : Fin 16, s.cfg.N_OUT ≤ c.val → t.ch[c] = s.ch[c]) ∧
      (∀ c : Fin 16, c.val < s.cfg.N_OUT →
        let sum : Int := (252 * s.ch[c].dcAcc.toInt) / 256 +
          (s.ch[c].smp.toInt - s.ch[c].dcPrevX.toInt) * 2 ^ 32
        t.ch[c] = { s.ch[c] with
          dcAcc := BitVec.ofInt 64 sum, dcPrevX := s.ch[c].smp, smp := t.ch[c].smp } ∧
        t.ch[c].smp.toInt = (BitVec.ofInt 64 sum).toInt / 2 ^ 32) ∧
      ((∀ c : Fin 16, c.val < s.cfg.N_OUT →
          -2 ^ 63 ≤ (252 * s.ch[c].dcAcc.toInt) / 256 +
            (s.ch[c].smp.toInt - s.ch[c].dcPrevX.toInt) * 2 ^ 32 ∧
          (252 * s.ch[c].dcAcc.toInt) / 256 +
            (s.ch[c].smp.toInt - s.ch[c].dcPrevX.toInt) * 2 ^ 32 < 2 ^ 63) →
        t.status = s.status) ∧
      ((∃ c : Fin 16, c.val < s.cfg.N_OUT ∧
          ((252 * s.ch[c].dcAcc.toInt) / 256 +
            (s.ch[c].smp.toInt - s.ch[c].dcPrevX.toInt) * 2 ^ 32 < -2 ^ 63 ∨
          2 ^ 63 ≤ (252 * s.ch[c].dcAcc.toInt) / 256 +
            (s.ch[c].smp.toInt - s.ch[c].dcPrevX.toInt) * 2 ^ 32)) →
        t.status = s.status ||| 0b10000#5))

/-- 95_test_vectors.md V-DC-5, from 43_dcoe.md R197 and R198: as long as no update leaves 64 bits, the
accumulator, read with its 32 fraction bits, is never above the exact recurrence and less than 64 units of
the last fraction bit below it. -/
def Obligations.DcOffsetTracksTheRecurrence : Prop :=
  ∀ xs : List Word, dcoeFits xs →
    (dcoeReference (xs.map BitVec.toInt)).1 - 64 / 2 ^ 32 <
        ((dcoeAfter xs).dcAcc.toInt : Rat) / 2 ^ 32 ∧
      ((dcoeAfter xs).dcAcc.toInt : Rat) / 2 ^ 32 ≤ (dcoeReference (xs.map BitVec.toInt)).1

/-- 46_control_sequencer.md R300: FIRBLK goes on and runs every processed channel's block words through Stage 1
and Stage 2, oldest group first, takes the last Stage-2 output, runs it through Stage 3 when there are three
stages, sets `S2SAT` and `S3SAT` exactly when an output was clamped, and says in `SMP_VALID` whether a column was
produced; a coefficient nothing has written is `fault(UNINIT)`. The Stage-2 output of a channel whose last pass
emitted nothing (its phase was shifted by a unit step) is the free value of log 10. The polarity inside Stage 1
is log 17. -/
def Obligations.FilterBlock : Prop :=
  encode .firblk = 0x2400000000000000#64 ∧
  ∀ s : State, s.cseq = .fir → s.fatal = false → LegalCfg s.cfg → Written s.ob s.cfg.OBW →
    (∀ c : Fin 16, s.ch[c].st2.ph.toNat < s.cfg.D2) →
    (s.cfg.nStages.toNat = 3 → ∀ c : Fin 16, s.ch[c].st3.ph.toNat < s.cfg.D3) →
    (CoefficientsWritten s → ∃ (t : State) (clamped2 clamped3 : Fin 16 → Bool), exec .firblk s = .next t ∧
      t = { s with
        ch := t.ch, status := t.status, smpValid := t.smpValid,
        cseq := if t.smpValid then .dcoe else .req, freeTick := s.freeTick + 1 } ∧
      (∀ c : Fin 16, s.cfg.N_OUT ≤ c.val → t.ch[c] = s.ch[c]) ∧
      (∀ c : Fin 16, c.val < s.cfg.N_OUT →
        ChannelFiltered s c t.ch[c] (clamped2 c) (clamped3 c)) ∧
      (t.flag .s2sat = true ↔
        s.flag .s2sat = true ∨ ∃ c : Fin 16, c.val < s.cfg.N_OUT ∧ clamped2 c = true) ∧
      (t.flag .s3sat = true ↔
        s.flag .s3sat = true ∨ ∃ c : Fin 16, c.val < s.cfg.N_OUT ∧ clamped3 c = true) ∧
      t.status &&& 0b10011#5 = s.status &&& 0b10011#5 ∧
      (s.cfg.nStages.toNat = 2 → t.smpValid = true) ∧
      (s.cfg.nStages.toNat = 3 →
        (t.smpValid = true ↔ ∃ c : Fin 16, c.val < s.cfg.N_OUT ∧
          s.ch[c].st3.ph.toNat + 1 = s.cfg.D3))) ∧
    (¬ CoefficientsWritten s →
      ∃ m ∈ [Space.coef1, .coef2, .coef3], exec .firblk s = .fault (.uninit m))

/-! ### Framing, delivery, shutdown -/

/-- 45_framing_transfer.md R252: FRMADD stores one sample column into the current frame buffer and counts
it; the last column of a frame leads to `C_FRMTX`; away from `C_FRMADD` or after a fatal stop it answers the
same state (log 2). -/
def Obligations.FrameColumnAdded : Prop :=
  encode .frmadd = 0x2900000000000000#64 ∧
  (∀ s : State, ¬ (s.cseq = .frmadd ∧ s.fatal = false) → exec .frmadd s = .next s) ∧
  ∀ s : State, s.cseq = .frmadd → s.fatal = false → LegalCfg s.cfg →
    s.frmCol.toNat < s.cfg.SPF → s.frmBuf.toNat < s.cfg.NFB →
    ∃ t, exec .frmadd s = .next t ∧
      t = { s with frm := t.frm, frmCol := t.frmCol, cseq := t.cseq } ∧
      (∀ c : Fin 16, c.val < s.cfg.N_OUT →
        t.frm.read (s.cfg.frmIndex s.frmBuf.toNat c.val s.frmCol.toNat) = some s.ch[c].smp) ∧
      (∀ i, (∀ c < s.cfg.N_OUT, i ≠ s.cfg.frmIndex s.frmBuf.toNat c s.frmCol.toNat) →
        t.frm.read i = s.frm.read i) ∧
      (s.frmCol.toNat = s.cfg.SPF - 1 → t.frmCol = 0 ∧ t.cseq = .frmtx) ∧
      (s.frmCol.toNat ≠ s.cfg.SPF - 1 → t.frmCol.toNat = s.frmCol.toNat + 1 ∧ t.cseq = .req)

/-- 45_framing_transfer.md R255, R256, 30_encoding.md R113: a waiting RXFRAME receives the frame
channel-major, a waiting RXFRAMET sample-major; the link carries `EOM`, `CONT`, the words channel-major,
`EOM`, `ACK`; the ring advances and the consumer goes on. The lists of returned values and of link symbols
are the model's (log 11, log 12). -/
def Obligations.FrameDelivered : Prop :=
  ∀ s : State, s.cseq = .frmtx → s.fatal = false → LegalCfg s.cfg → s.frmBuf.toNat < s.cfg.NFB →
    (∀ c < s.cfg.N_OUT, ∀ k < s.cfg.SPF,
      (s.frm.read (s.cfg.frmIndex s.frmBuf.toNat c k)).isSome = true) →
    s.hostPend = .rxframe ∨ s.hostPend = .rxframet →
    ∃ (major minor : List Word) (t : State), exec .frmtx s = .next t ∧
      major.length = s.cfg.N_OUT * s.cfg.SPF ∧ minor.length = s.cfg.N_OUT * s.cfg.SPF ∧
      (∀ i < s.cfg.N_OUT * s.cfg.SPF,
        major[i]? = s.frm.read (s.cfg.frmIndex s.frmBuf.toNat (i / s.cfg.SPF) (i % s.cfg.SPF)) ∧
        minor[i]? = s.frm.read (s.cfg.frmIndex s.frmBuf.toNat (i % s.cfg.N_OUT) (i / s.cfg.N_OUT))) ∧
      t = { s with
        hostPend := .none, frmBuf := t.frmBuf, cseq := .req,
        link := s.link ++ ([.eom, .cont] ++ major.map .data ++ [.eom, .ack]),
        returned := s.returned ++
          [.frame (if s.hostPend = .rxframe then major else minor)] } ∧
      t.frmBuf.toNat = (s.frmBuf.toNat + 1) % s.cfg.NFB

/-- 45_framing_transfer.md R255: a waiting SHUTDOWN is answered without a frame, the command stays waiting
and the consumer unwinds; with no command waiting FRMTX is not enabled and answers the same state (log 2). The
list of link symbols is the model's (log 12). -/
def Obligations.ShutdownSeenAtAFrameBoundary : Prop :=
  encode .frmtx = 0x2A00000000000000#64 ∧
  ∀ s : State, s.cseq = .frmtx → s.fatal = false →
    (s.hostPend = .shutdown →
      exec .frmtx s = .next { s with cseq := .unwind, link := s.link ++ [.eom, .sdack] }) ∧
    (s.hostPend = .none → exec .frmtx s = .next s)

/-- 45_framing_transfer.md R262: UNWIND raises the shutdown flag; not enabled, it answers the same state
(log 2). -/
def Obligations.UnwindRaisesTheFlag : Prop :=
  encode .unwind = 0x2B00000000000000#64 ∧
  ∀ s : State,
    (s.cseq = .unwind ∧ s.fatal = false →
      exec .unwind s = .next { s with rxSdFlag := true, cseq := .drain }) ∧
    (¬ (s.cseq = .unwind ∧ s.fatal = false) → exec .unwind s = .next s)

/-- 45_framing_transfer.md R263: DRAIN discards queued blocks one at a time; with the FIFO empty, the producer
stopped and no push pending it releases the host; otherwise it is not enabled and answers the same state: the
consumer waits (log 2). The lists of returned values and of link symbols are the model's (log 11, log 12). -/
def Obligations.DrainDiscardsThenReleases : Prop :=
  encode .drain = 0x2C00000000000000#64 ∧
  (∀ s : State, ¬ (s.cseq = .drain ∧ s.fatal = false) → exec .drain s = .next s) ∧
  ∀ s : State, s.cseq = .drain → s.fatal = false →
    (∀ h rest, s.fifo = h :: rest → ∃ t, exec .drain s = .next t ∧
      t = { s with fifo := rest, own := t.own } ∧ t.own[h] = .producer ∧
      ∀ k : Half, k ≠ h → t.own[k] = s.own[k]) ∧
    (s.fifo = [] → s.rxState = .stopped ∧ s.hoPend = false →
      exec .drain s = .next { s with
        hostPend := .none, cseq := .off, link := s.link ++ [.eom],
        returned := s.returned ++ [.shutdownDone] }) ∧
    (s.fifo = [] → ¬ (s.rxState = .stopped ∧ s.hoPend = false) → exec .drain s = .next s)

/-- 45_framing_transfer.md R264, R266: a shutdown seen with any number of blocks queued, and with or without a
hand-off pending, completes: the frame is discarded, one DRAIN a block, the pending hand-off and its DRAIN, one
word, RXEXIT and a last DRAIN leave the state of R264, with the filters, the frames and the counters as they
were. Every half that was queued or pending is the producer's again; so both are when no half is tagged
otherwise, as under the flow-control invariant without an overrun. The lists of returned values and of link
symbols are the model's (log 11, log 12). -/
def Obligations.ShutdownCompletes : Prop :=
  ∀ (s : State) (w : Word), s.cseq = .frmtx → s.hostPend = .shutdown → s.rxState = .running →
    s.fatal = false →
    ∃ t, performAll ([.frmtx, .unwind] ++ List.replicate s.fifo.length .drain ++
        (if s.hoPend then [.handoff, .drain] else []) ++ [.pdmword w, .rxexit, .drain]) s = .next t ∧
      t = { s with
        cseq := .off, rxState := .stopped, fifo := [], own := t.own, hoPend := false, hostPend := .none,
        rxSdFlag := true, link := s.link ++ [.eom, .sdack, .eom],
        returned := s.returned ++ [.shutdownDone] } ∧
      (∀ h : Half, t.own[h] =
        if h ∈ s.fifo ∨ (s.hoPend = true ∧ h = s.hoHalf) then .producer else s.own[h]) ∧
      ((∀ h : Half, s.own[h] = .producer ∨ h ∈ s.fifo) → ∀ h : Half, t.own[h] = .producer) ∧
      (FlowInv s → t.credit = 0 ∧ (Reliable s → ∀ h : Half, t.own[h] = .producer))

/-! ### Whole-machine rules -/

/-- 44_pdm_rx_credit_fifo.md R210: `RX_STATE` moves only along the rows of the table. -/
def Obligations.ProducerStatesMoveByTheTable : Prop :=
  ∀ (i : Instr) (s t : State), exec i s = .next t → t.rxState ≠ s.rxState → ProducerEdge s i t.rxState

/-- 46_control_sequencer.md R296: the consumer never skips a state and never goes back except along the
table's edges. -/
def Obligations.ConsumerMovesByTheTable : Prop :=
  ∀ (i : Instr) (s t : State), exec i s = .next t → t.cseq ≠ s.cseq → ConsumerEdge s.cseq i t.cseq

/-- 60_exceptions.md R322: after a fatal stop every operation but CSRRD and RESET is disabled: whatever is
performed, nothing changes. -/
def Obligations.FatalStopFreezes : Prop :=
  ∀ (i : Instr) (s t : State), s.fatal = true → i ≠ .reset → (∀ b, i ≠ .csrrd b) →
    exec i s = .next t → t = s

/-- 10_state.md R40: a status bit once set stays set until INIT (bits 1 to 4) or RESET (all). -/
def Obligations.StatusIsSticky : Prop :=
  ∀ (i : Instr) (s t : State) (f : Flag), exec i s = .next t → i ≠ .reset →
    (i = .init → f = .fatal) → s.flag f = true → t.flag f = true

/-- 20_memory.md R90 with 46_control_sequencer.md R280: while the producer is armed, running or
shutting-down no operation but RESET changes the configuration or a coefficient. -/
def Obligations.TablesAreLockedWhileActive : Prop :=
  ∀ (i : Instr) (s t : State), s.active → i ≠ .reset → exec i s = .next t →
    t.cfg = s.cfg ∧ t.coef1 = s.coef1 ∧ t.coef2 = s.coef2 ∧ t.coef3 = s.coef3

/-- 60_exceptions.md R340: the producer's operations leave the consumer's state, the host's state and the
half that is not being filled alone. -/
def Obligations.ProducerRights : Prop :=
  ∀ (i : Instr) (s t : State), agentOf i = .source ∨ agentOf i = .producer → exec i s = .next t →
    t = { s with
      buf := t.buf, wrPos := t.wrPos, fillSel := t.fillSel, hoPend := t.hoPend, hoHalf := t.hoHalf,
      rxState := t.rxState, fifo := t.fifo, credit := t.credit, own := t.own,
      dropCount := t.dropCount, status := t.status, fatalCause := t.fatalCause } ∧
    (∀ h : Half, h ≠ s.fillSel → t.buf[h] = s.buf[h]) ∧ s.fifo <+: t.fifo

/-- 60_exceptions.md R340: the consumer's operations leave the producer's registers, the counters, the
tables and the half that is not the current one alone. -/
def Obligations.ConsumerRights : Prop :=
  ∀ (i : Instr) (s t : State), agentOf i = .consumer → exec i s = .next t →
    t.rxState = s.rxState ∧ t.wrPos = s.wrPos ∧ t.fillSel = s.fillSel ∧ t.hoPend = s.hoPend ∧
    t.hoHalf = s.hoHalf ∧ t.dropCount = s.dropCount ∧ t.fatalCause = s.fatalCause ∧ t.cfg = s.cfg ∧
    t.coef1 = s.coef1 ∧ t.coef2 = s.coef2 ∧ t.coef3 = s.coef3 ∧
    (t.hostPend = s.hostPend ∨ t.hostPend = .none) ∧ t.fifo <:+ s.fifo ∧
    (∀ h : Half, h ≠ s.cur → t.buf[h] = s.buf[h]) ∧
    t.flag .fatal = s.flag .fatal ∧ t.flag .overrun = s.flag .overrun

/-- 60_exceptions.md R340: the host's commands, RESET and INIT apart, leave the buffers, the frames, the
filters and the flow control alone. -/
def Obligations.HostRights : Prop :=
  ∀ (i : Instr) (s t : State), agentOf i = .host → i ≠ .reset → i ≠ .init → exec i s = .next t →
    t = { s with
      rxState := t.rxState, cseq := t.cseq, hostPend := t.hostPend, cfg := t.cfg, coef1 := t.coef1,
      coef2 := t.coef2, coef3 := t.coef3, returned := t.returned }

/-! ### Invariants -/

/-- The canonical form of every memory is kept by every step (the form is the model's, log 4). -/
def Obligations.StepKeepsMemoriesCanonical : Prop :=
  ∀ s t : State, MemoriesWf s → step s = .next t → MemoriesWf t

/-- The flow-control invariant of 44_pdm_rx_credit_fifo.md R230, with the premise of log 24 on its clauses
about the mode, is kept by every step. -/
def Obligations.StepKeepsFlowControl : Prop :=
  ∀ s t : State, FlowInv s → step s = .next t → FlowInv t

/-- The configuration stays legal and every position in its range while the producer is active, and no
operation of the consumer will read a word nothing has written: kept by every step (10_state.md R22, R28,
R38, R42, R60; 40_deinterleave.md R141; 60_exceptions.md R330). -/
def Obligations.StepKeepsRunnable : Prop :=
  ∀ s t : State, RunInv s → step s = .next t → RunInv t

/-- 60_exceptions.md R330: in a state of such a run the only faults are the host's: a link command while
another waits, and a coefficient the host never wrote. -/
def Obligations.OnlyTheHostCausesFaults : Prop :=
  ∀ (i : Instr) (s : State) (e : Fault), RunInv s → exec i s = .fault e →
    (isLinkCommand i = true ∧ s.hostPend ≠ .none ∧ e = .hostMisuse) ∨
    (¬ CoefficientsWritten s ∧ (e = .uninit .coef1 ∨ e = .uninit .coef2 ∨ e = .uninit .coef3))

/-- 60_exceptions.md R331: in interrupt-driven mode with the fatal drop policy the overrun flag stays clear:
kept by every step. -/
def Obligations.StepKeepsOverrunClear : Prop :=
  ∀ s t : State, NoOverrunInv s → step s = .next t → NoOverrunInv t

/-- 10_state.md R41, 60_exceptions.md R322, R323: `FATAL_CAUSE` is 0 exactly without a fatal stop: kept by
every step. -/
def Obligations.StepKeepsCauseInStep : Prop :=
  ∀ s t : State, CauseInv s → step s = .next t → CauseInv t

/-- The invariants hold at reset. -/
def Obligations.ResetMeetsTheInvariants : Prop :=
  MemoriesWf State.reset ∧ FlowInv State.reset ∧ RunInv State.reset ∧ NoOverrunInv State.reset ∧
    CauseInv State.reset

end
end

