-- ==== Sys2Proof/Laws/State.lean ====
section
/-! SUPPORT. One lemma per field per update of the state: no proof unfolds a record update. -/

namespace Sys2Proof.Machine

variable (s : State) (f : Flag) (on : Bool) (h : Half) (r : Returned) (l : List LinkSymbol) (w : OpWord)
  (a b : List Word) (c : Cause) (st : Stage) (k : Nat) (v : Word) (g : Reg)

/-! ### `raiseFlag`: the status flags -/

@[simp] theorem State.raiseFlag_rxState : (s.raiseFlag f on).rxState = s.rxState := rfl
@[simp] theorem State.raiseFlag_wrPos : (s.raiseFlag f on).wrPos = s.wrPos := rfl
@[simp] theorem State.raiseFlag_fillSel : (s.raiseFlag f on).fillSel = s.fillSel := rfl
@[simp] theorem State.raiseFlag_cseq : (s.raiseFlag f on).cseq = s.cseq := rfl
@[simp] theorem State.raiseFlag_cur : (s.raiseFlag f on).cur = s.cur := rfl
@[simp] theorem State.raiseFlag_credit : (s.raiseFlag f on).credit = s.credit := rfl
@[simp] theorem State.raiseFlag_fifo : (s.raiseFlag f on).fifo = s.fifo := rfl
@[simp] theorem State.raiseFlag_own : (s.raiseFlag f on).own = s.own := rfl
@[simp] theorem State.raiseFlag_hoPend : (s.raiseFlag f on).hoPend = s.hoPend := rfl
@[simp] theorem State.raiseFlag_hoHalf : (s.raiseFlag f on).hoHalf = s.hoHalf := rfl
@[simp] theorem State.raiseFlag_rxSdFlag : (s.raiseFlag f on).rxSdFlag = s.rxSdFlag := rfl
@[simp] theorem State.raiseFlag_hostPend : (s.raiseFlag f on).hostPend = s.hostPend := rfl
@[simp] theorem State.raiseFlag_dropCount : (s.raiseFlag f on).dropCount = s.dropCount := rfl
@[simp] theorem State.raiseFlag_frmCol : (s.raiseFlag f on).frmCol = s.frmCol := rfl
@[simp] theorem State.raiseFlag_frmBuf : (s.raiseFlag f on).frmBuf = s.frmBuf := rfl
@[simp] theorem State.raiseFlag_status : (s.raiseFlag f on).status = if on then s.status ||| (1#5 <<< f.bit) else s.status := rfl
@[simp] theorem State.raiseFlag_fatalCause : (s.raiseFlag f on).fatalCause = s.fatalCause := rfl
@[simp] theorem State.raiseFlag_cfg : (s.raiseFlag f on).cfg = s.cfg := rfl
@[simp] theorem State.raiseFlag_smpValid : (s.raiseFlag f on).smpValid = s.smpValid := rfl
@[simp] theorem State.raiseFlag_ch : (s.raiseFlag f on).ch = s.ch := rfl
@[simp] theorem State.raiseFlag_buf : (s.raiseFlag f on).buf = s.buf := rfl
@[simp] theorem State.raiseFlag_ob : (s.raiseFlag f on).ob = s.ob := rfl
@[simp] theorem State.raiseFlag_coef1 : (s.raiseFlag f on).coef1 = s.coef1 := rfl
@[simp] theorem State.raiseFlag_coef2 : (s.raiseFlag f on).coef2 = s.coef2 := rfl
@[simp] theorem State.raiseFlag_coef3 : (s.raiseFlag f on).coef3 = s.coef3 := rfl
@[simp] theorem State.raiseFlag_frm : (s.raiseFlag f on).frm = s.frm := rfl
@[simp] theorem State.raiseFlag_agenda : (s.raiseFlag f on).agenda = s.agenda := rfl
@[simp] theorem State.raiseFlag_returned : (s.raiseFlag f on).returned = s.returned := rfl
@[simp] theorem State.raiseFlag_link : (s.raiseFlag f on).link = s.link := rfl
@[simp] theorem State.raiseFlag_freeTick : (s.raiseFlag f on).freeTick = s.freeTick := rfl

/-! ### `push`: the block FIFO -/

@[simp] theorem State.push_rxState : (s.push h).rxState = s.rxState := rfl
@[simp] theorem State.push_wrPos : (s.push h).wrPos = s.wrPos := rfl
@[simp] theorem State.push_fillSel : (s.push h).fillSel = s.fillSel := rfl
@[simp] theorem State.push_cseq : (s.push h).cseq = s.cseq := rfl
@[simp] theorem State.push_cur : (s.push h).cur = s.cur := rfl
@[simp] theorem State.push_credit : (s.push h).credit = s.credit := rfl
@[simp] theorem State.push_fifo : (s.push h).fifo = s.fifo ++ [h] := rfl
@[simp] theorem State.push_own : (s.push h).own = s.own.set h .queued := rfl
@[simp] theorem State.push_hoPend : (s.push h).hoPend = s.hoPend := rfl
@[simp] theorem State.push_hoHalf : (s.push h).hoHalf = s.hoHalf := rfl
@[simp] theorem State.push_rxSdFlag : (s.push h).rxSdFlag = s.rxSdFlag := rfl
@[simp] theorem State.push_hostPend : (s.push h).hostPend = s.hostPend := rfl
@[simp] theorem State.push_dropCount : (s.push h).dropCount = s.dropCount := rfl
@[simp] theorem State.push_frmCol : (s.push h).frmCol = s.frmCol := rfl
@[simp] theorem State.push_frmBuf : (s.push h).frmBuf = s.frmBuf := rfl
@[simp] theorem State.push_status : (s.push h).status = s.status := rfl
@[simp] theorem State.push_fatalCause : (s.push h).fatalCause = s.fatalCause := rfl
@[simp] theorem State.push_cfg : (s.push h).cfg = s.cfg := rfl
@[simp] theorem State.push_smpValid : (s.push h).smpValid = s.smpValid := rfl
@[simp] theorem State.push_ch : (s.push h).ch = s.ch := rfl
@[simp] theorem State.push_buf : (s.push h).buf = s.buf := rfl
@[simp] theorem State.push_ob : (s.push h).ob = s.ob := rfl
@[simp] theorem State.push_coef1 : (s.push h).coef1 = s.coef1 := rfl
@[simp] theorem State.push_coef2 : (s.push h).coef2 = s.coef2 := rfl
@[simp] theorem State.push_coef3 : (s.push h).coef3 = s.coef3 := rfl
@[simp] theorem State.push_frm : (s.push h).frm = s.frm := rfl
@[simp] theorem State.push_agenda : (s.push h).agenda = s.agenda := rfl
@[simp] theorem State.push_returned : (s.push h).returned = s.returned := rfl
@[simp] theorem State.push_link : (s.push h).link = s.link := rfl
@[simp] theorem State.push_freeTick : (s.push h).freeTick = s.freeTick := rfl

/-! ### `giveBack`: the transcript of returned values -/

@[simp] theorem State.giveBack_rxState : (s.giveBack r).rxState = s.rxState := rfl
@[simp] theorem State.giveBack_wrPos : (s.giveBack r).wrPos = s.wrPos := rfl
@[simp] theorem State.giveBack_fillSel : (s.giveBack r).fillSel = s.fillSel := rfl
@[simp] theorem State.giveBack_cseq : (s.giveBack r).cseq = s.cseq := rfl
@[simp] theorem State.giveBack_cur : (s.giveBack r).cur = s.cur := rfl
@[simp] theorem State.giveBack_credit : (s.giveBack r).credit = s.credit := rfl
@[simp] theorem State.giveBack_fifo : (s.giveBack r).fifo = s.fifo := rfl
@[simp] theorem State.giveBack_own : (s.giveBack r).own = s.own := rfl
@[simp] theorem State.giveBack_hoPend : (s.giveBack r).hoPend = s.hoPend := rfl
@[simp] theorem State.giveBack_hoHalf : (s.giveBack r).hoHalf = s.hoHalf := rfl
@[simp] theorem State.giveBack_rxSdFlag : (s.giveBack r).rxSdFlag = s.rxSdFlag := rfl
@[simp] theorem State.giveBack_hostPend : (s.giveBack r).hostPend = s.hostPend := rfl
@[simp] theorem State.giveBack_dropCount : (s.giveBack r).dropCount = s.dropCount := rfl
@[simp] theorem State.giveBack_frmCol : (s.giveBack r).frmCol = s.frmCol := rfl
@[simp] theorem State.giveBack_frmBuf : (s.giveBack r).frmBuf = s.frmBuf := rfl
@[simp] theorem State.giveBack_status : (s.giveBack r).status = s.status := rfl
@[simp] theorem State.giveBack_fatalCause : (s.giveBack r).fatalCause = s.fatalCause := rfl
@[simp] theorem State.giveBack_cfg : (s.giveBack r).cfg = s.cfg := rfl
@[simp] theorem State.giveBack_smpValid : (s.giveBack r).smpValid = s.smpValid := rfl
@[simp] theorem State.giveBack_ch : (s.giveBack r).ch = s.ch := rfl
@[simp] theorem State.giveBack_buf : (s.giveBack r).buf = s.buf := rfl
@[simp] theorem State.giveBack_ob : (s.giveBack r).ob = s.ob := rfl
@[simp] theorem State.giveBack_coef1 : (s.giveBack r).coef1 = s.coef1 := rfl
@[simp] theorem State.giveBack_coef2 : (s.giveBack r).coef2 = s.coef2 := rfl
@[simp] theorem State.giveBack_coef3 : (s.giveBack r).coef3 = s.coef3 := rfl
@[simp] theorem State.giveBack_frm : (s.giveBack r).frm = s.frm := rfl
@[simp] theorem State.giveBack_agenda : (s.giveBack r).agenda = s.agenda := rfl
@[simp] theorem State.giveBack_returned : (s.giveBack r).returned = s.returned ++ [r] := rfl
@[simp] theorem State.giveBack_link : (s.giveBack r).link = s.link := rfl
@[simp] theorem State.giveBack_freeTick : (s.giveBack r).freeTick = s.freeTick := rfl

/-! ### `exchange`: the transcript of the frame link -/

@[simp] theorem State.exchange_rxState : (s.exchange l).rxState = s.rxState := rfl
@[simp] theorem State.exchange_wrPos : (s.exchange l).wrPos = s.wrPos := rfl
@[simp] theorem State.exchange_fillSel : (s.exchange l).fillSel = s.fillSel := rfl
@[simp] theorem State.exchange_cseq : (s.exchange l).cseq = s.cseq := rfl
@[simp] theorem State.exchange_cur : (s.exchange l).cur = s.cur := rfl
@[simp] theorem State.exchange_credit : (s.exchange l).credit = s.credit := rfl
@[simp] theorem State.exchange_fifo : (s.exchange l).fifo = s.fifo := rfl
@[simp] theorem State.exchange_own : (s.exchange l).own = s.own := rfl
@[simp] theorem State.exchange_hoPend : (s.exchange l).hoPend = s.hoPend := rfl
@[simp] theorem State.exchange_hoHalf : (s.exchange l).hoHalf = s.hoHalf := rfl
@[simp] theorem State.exchange_rxSdFlag : (s.exchange l).rxSdFlag = s.rxSdFlag := rfl
@[simp] theorem State.exchange_hostPend : (s.exchange l).hostPend = s.hostPend := rfl
@[simp] theorem State.exchange_dropCount : (s.exchange l).dropCount = s.dropCount := rfl
@[simp] theorem State.exchange_frmCol : (s.exchange l).frmCol = s.frmCol := rfl
@[simp] theorem State.exchange_frmBuf : (s.exchange l).frmBuf = s.frmBuf := rfl
@[simp] theorem State.exchange_status : (s.exchange l).status = s.status := rfl
@[simp] theorem State.exchange_fatalCause : (s.exchange l).fatalCause = s.fatalCause := rfl
@[simp] theorem State.exchange_cfg : (s.exchange l).cfg = s.cfg := rfl
@[simp] theorem State.exchange_smpValid : (s.exchange l).smpValid = s.smpValid := rfl
@[simp] theorem State.exchange_ch : (s.exchange l).ch = s.ch := rfl
@[simp] theorem State.exchange_buf : (s.exchange l).buf = s.buf := rfl
@[simp] theorem State.exchange_ob : (s.exchange l).ob = s.ob := rfl
@[simp] theorem State.exchange_coef1 : (s.exchange l).coef1 = s.coef1 := rfl
@[simp] theorem State.exchange_coef2 : (s.exchange l).coef2 = s.coef2 := rfl
@[simp] theorem State.exchange_coef3 : (s.exchange l).coef3 = s.coef3 := rfl
@[simp] theorem State.exchange_frm : (s.exchange l).frm = s.frm := rfl
@[simp] theorem State.exchange_agenda : (s.exchange l).agenda = s.agenda := rfl
@[simp] theorem State.exchange_returned : (s.exchange l).returned = s.returned := rfl
@[simp] theorem State.exchange_link : (s.exchange l).link = s.link ++ l := rfl
@[simp] theorem State.exchange_freeTick : (s.exchange l).freeTick = s.freeTick := rfl

/-! ### `present`: the agenda -/

@[simp] theorem State.present_rxState : (s.present w).rxState = s.rxState := rfl
@[simp] theorem State.present_wrPos : (s.present w).wrPos = s.wrPos := rfl
@[simp] theorem State.present_fillSel : (s.present w).fillSel = s.fillSel := rfl
@[simp] theorem State.present_cseq : (s.present w).cseq = s.cseq := rfl
@[simp] theorem State.present_cur : (s.present w).cur = s.cur := rfl
@[simp] theorem State.present_credit : (s.present w).credit = s.credit := rfl
@[simp] theorem State.present_fifo : (s.present w).fifo = s.fifo := rfl
@[simp] theorem State.present_own : (s.present w).own = s.own := rfl
@[simp] theorem State.present_hoPend : (s.present w).hoPend = s.hoPend := rfl
@[simp] theorem State.present_hoHalf : (s.present w).hoHalf = s.hoHalf := rfl
@[simp] theorem State.present_rxSdFlag : (s.present w).rxSdFlag = s.rxSdFlag := rfl
@[simp] theorem State.present_hostPend : (s.present w).hostPend = s.hostPend := rfl
@[simp] theorem State.present_dropCount : (s.present w).dropCount = s.dropCount := rfl
@[simp] theorem State.present_frmCol : (s.present w).frmCol = s.frmCol := rfl
@[simp] theorem State.present_frmBuf : (s.present w).frmBuf = s.frmBuf := rfl
@[simp] theorem State.present_status : (s.present w).status = s.status := rfl
@[simp] theorem State.present_fatalCause : (s.present w).fatalCause = s.fatalCause := rfl
@[simp] theorem State.present_cfg : (s.present w).cfg = s.cfg := rfl
@[simp] theorem State.present_smpValid : (s.present w).smpValid = s.smpValid := rfl
@[simp] theorem State.present_ch : (s.present w).ch = s.ch := rfl
@[simp] theorem State.present_buf : (s.present w).buf = s.buf := rfl
@[simp] theorem State.present_ob : (s.present w).ob = s.ob := rfl
@[simp] theorem State.present_coef1 : (s.present w).coef1 = s.coef1 := rfl
@[simp] theorem State.present_coef2 : (s.present w).coef2 = s.coef2 := rfl
@[simp] theorem State.present_coef3 : (s.present w).coef3 = s.coef3 := rfl
@[simp] theorem State.present_frm : (s.present w).frm = s.frm := rfl
@[simp] theorem State.present_agenda : (s.present w).agenda = w :: s.agenda := rfl
@[simp] theorem State.present_returned : (s.present w).returned = s.returned := rfl
@[simp] theorem State.present_link : (s.present w).link = s.link := rfl
@[simp] theorem State.present_freeTick : (s.present w).freeTick = s.freeTick := rfl

/-! ### `deliver`: the end of a delivery -/

@[simp] theorem State.deliver_rxState : (s.deliver a b).rxState = s.rxState := rfl
@[simp] theorem State.deliver_wrPos : (s.deliver a b).wrPos = s.wrPos := rfl
@[simp] theorem State.deliver_fillSel : (s.deliver a b).fillSel = s.fillSel := rfl
@[simp] theorem State.deliver_cseq : (s.deliver a b).cseq = .req := rfl
@[simp] theorem State.deliver_cur : (s.deliver a b).cur = s.cur := rfl
@[simp] theorem State.deliver_credit : (s.deliver a b).credit = s.credit := rfl
@[simp] theorem State.deliver_fifo : (s.deliver a b).fifo = s.fifo := rfl
@[simp] theorem State.deliver_own : (s.deliver a b).own = s.own := rfl
@[simp] theorem State.deliver_hoPend : (s.deliver a b).hoPend = s.hoPend := rfl
@[simp] theorem State.deliver_hoHalf : (s.deliver a b).hoHalf = s.hoHalf := rfl
@[simp] theorem State.deliver_rxSdFlag : (s.deliver a b).rxSdFlag = s.rxSdFlag := rfl
@[simp] theorem State.deliver_hostPend : (s.deliver a b).hostPend = .none := rfl
@[simp] theorem State.deliver_dropCount : (s.deliver a b).dropCount = s.dropCount := rfl
@[simp] theorem State.deliver_frmCol : (s.deliver a b).frmCol = s.frmCol := rfl
@[simp] theorem State.deliver_frmBuf : (s.deliver a b).frmBuf = BitVec.ofNat 8 ((s.frmBuf.toNat + 1) % s.cfg.NFB) := rfl
@[simp] theorem State.deliver_status : (s.deliver a b).status = s.status := rfl
@[simp] theorem State.deliver_fatalCause : (s.deliver a b).fatalCause = s.fatalCause := rfl
@[simp] theorem State.deliver_cfg : (s.deliver a b).cfg = s.cfg := rfl
@[simp] theorem State.deliver_smpValid : (s.deliver a b).smpValid = s.smpValid := rfl
@[simp] theorem State.deliver_ch : (s.deliver a b).ch = s.ch := rfl
@[simp] theorem State.deliver_buf : (s.deliver a b).buf = s.buf := rfl
@[simp] theorem State.deliver_ob : (s.deliver a b).ob = s.ob := rfl
@[simp] theorem State.deliver_coef1 : (s.deliver a b).coef1 = s.coef1 := rfl
@[simp] theorem State.deliver_coef2 : (s.deliver a b).coef2 = s.coef2 := rfl
@[simp] theorem State.deliver_coef3 : (s.deliver a b).coef3 = s.coef3 := rfl
@[simp] theorem State.deliver_frm : (s.deliver a b).frm = s.frm := rfl
@[simp] theorem State.deliver_agenda : (s.deliver a b).agenda = s.agenda := rfl
@[simp] theorem State.deliver_returned : (s.deliver a b).returned = s.returned ++ [.frame b] := rfl
@[simp] theorem State.deliver_link : (s.deliver a b).link = s.link ++ frameSymbols a := rfl
@[simp] theorem State.deliver_freeTick : (s.deliver a b).freeTick = s.freeTick := rfl

/-! ### `afterInit`: a successful INIT -/

@[simp] theorem State.afterInit_rxState : (s.afterInit).rxState = .armed := rfl
@[simp] theorem State.afterInit_wrPos : (s.afterInit).wrPos = BitVec.ofNat 8 (s.cfg.BW - 1) := rfl
@[simp] theorem State.afterInit_fillSel : (s.afterInit).fillSel = 0 := rfl
@[simp] theorem State.afterInit_cseq : (s.afterInit).cseq = .off := rfl
@[simp] theorem State.afterInit_cur : (s.afterInit).cur = 0 := rfl
@[simp] theorem State.afterInit_credit : (s.afterInit).credit = 0 := rfl
@[simp] theorem State.afterInit_fifo : (s.afterInit).fifo = [] := rfl
@[simp] theorem State.afterInit_own : (s.afterInit).own = Vector.replicate 2 .producer := rfl
@[simp] theorem State.afterInit_hoPend : (s.afterInit).hoPend = false := rfl
@[simp] theorem State.afterInit_hoHalf : (s.afterInit).hoHalf = 0 := rfl
@[simp] theorem State.afterInit_rxSdFlag : (s.afterInit).rxSdFlag = false := rfl
@[simp] theorem State.afterInit_hostPend : (s.afterInit).hostPend = s.hostPend := rfl
@[simp] theorem State.afterInit_dropCount : (s.afterInit).dropCount = 0 := rfl
@[simp] theorem State.afterInit_frmCol : (s.afterInit).frmCol = 0 := rfl
@[simp] theorem State.afterInit_frmBuf : (s.afterInit).frmBuf = 0 := rfl
@[simp] theorem State.afterInit_status : (s.afterInit).status = s.status &&& 1#5 := rfl
@[simp] theorem State.afterInit_fatalCause : (s.afterInit).fatalCause = s.fatalCause := rfl
@[simp] theorem State.afterInit_cfg : (s.afterInit).cfg = s.cfg := rfl
@[simp] theorem State.afterInit_smpValid : (s.afterInit).smpValid = false := rfl
@[simp] theorem State.afterInit_ch : (s.afterInit).ch = Vector.replicate 16 Channel.afterInit := rfl
@[simp] theorem State.afterInit_buf : (s.afterInit).buf = Vector.replicate 2 [] := rfl
@[simp] theorem State.afterInit_ob : (s.afterInit).ob = [] := rfl
@[simp] theorem State.afterInit_coef1 : (s.afterInit).coef1 = s.coef1 := rfl
@[simp] theorem State.afterInit_coef2 : (s.afterInit).coef2 = s.coef2 := rfl
@[simp] theorem State.afterInit_coef3 : (s.afterInit).coef3 = s.coef3 := rfl
@[simp] theorem State.afterInit_frm : (s.afterInit).frm = [] := rfl
@[simp] theorem State.afterInit_agenda : (s.afterInit).agenda = s.agenda := rfl
@[simp] theorem State.afterInit_returned : (s.afterInit).returned = s.returned := rfl
@[simp] theorem State.afterInit_link : (s.afterInit).link = s.link := rfl
@[simp] theorem State.afterInit_freeTick : (s.afterInit).freeTick = s.freeTick := rfl

/-! ### `raiseFatal`: the fatal stop -/

@[simp] theorem State.raiseFatal_rxState : (s.raiseFatal c).rxState = s.rxState := by
  unfold State.raiseFatal; split <;> rfl
@[simp] theorem State.raiseFatal_wrPos : (s.raiseFatal c).wrPos = s.wrPos := by
  unfold State.raiseFatal; split <;> rfl
@[simp] theorem State.raiseFatal_fillSel : (s.raiseFatal c).fillSel = s.fillSel := by
  unfold State.raiseFatal; split <;> rfl
@[simp] theorem State.raiseFatal_cseq : (s.raiseFatal c).cseq = s.cseq := by
  unfold State.raiseFatal; split <;> rfl
@[simp] theorem State.raiseFatal_cur : (s.raiseFatal c).cur = s.cur := by
  unfold State.raiseFatal; split <;> rfl
@[simp] theorem State.raiseFatal_credit : (s.raiseFatal c).credit = s.credit := by
  unfold State.raiseFatal; split <;> rfl
@[simp] theorem State.raiseFatal_fifo : (s.raiseFatal c).fifo = s.fifo := by
  unfold State.raiseFatal; split <;> rfl
@[simp] theorem State.raiseFatal_own : (s.raiseFatal c).own = s.own := by
  unfold State.raiseFatal; split <;> rfl
@[simp] theorem State.raiseFatal_hoPend : (s.raiseFatal c).hoPend = s.hoPend := by
  unfold State.raiseFatal; split <;> rfl
@[simp] theorem State.raiseFatal_hoHalf : (s.raiseFatal c).hoHalf = s.hoHalf := by
  unfold State.raiseFatal; split <;> rfl
@[simp] theorem State.raiseFatal_rxSdFlag : (s.raiseFatal c).rxSdFlag = s.rxSdFlag := by
  unfold State.raiseFatal; split <;> rfl
@[simp] theorem State.raiseFatal_hostPend : (s.raiseFatal c).hostPend = s.hostPend := by
  unfold State.raiseFatal; split <;> rfl
@[simp] theorem State.raiseFatal_dropCount : (s.raiseFatal c).dropCount = s.dropCount := by
  unfold State.raiseFatal; split <;> rfl
@[simp] theorem State.raiseFatal_frmCol : (s.raiseFatal c).frmCol = s.frmCol := by
  unfold State.raiseFatal; split <;> rfl
@[simp] theorem State.raiseFatal_frmBuf : (s.raiseFatal c).frmBuf = s.frmBuf := by
  unfold State.raiseFatal; split <;> rfl
@[simp] theorem State.raiseFatal_status :
    (s.raiseFatal c).status = if s.fatal then s.status else s.status ||| 1#5 := by
  unfold State.raiseFatal; split <;> rfl
@[simp] theorem State.raiseFatal_fatalCause :
    (s.raiseFatal c).fatalCause = if s.fatal then s.fatalCause else c.code := by
  unfold State.raiseFatal; split <;> rfl
@[simp] theorem State.raiseFatal_cfg : (s.raiseFatal c).cfg = s.cfg := by
  unfold State.raiseFatal; split <;> rfl
@[simp] theorem State.raiseFatal_smpValid : (s.raiseFatal c).smpValid = s.smpValid := by
  unfold State.raiseFatal; split <;> rfl
@[simp] theorem State.raiseFatal_ch : (s.raiseFatal c).ch = s.ch := by
  unfold State.raiseFatal; split <;> rfl
@[simp] theorem State.raiseFatal_buf : (s.raiseFatal c).buf = s.buf := by
  unfold State.raiseFatal; split <;> rfl
@[simp] theorem State.raiseFatal_ob : (s.raiseFatal c).ob = s.ob := by
  unfold State.raiseFatal; split <;> rfl
@[simp] theorem State.raiseFatal_coef1 : (s.raiseFatal c).coef1 = s.coef1 := by
  unfold State.raiseFatal; split <;> rfl
@[simp] theorem State.raiseFatal_coef2 : (s.raiseFatal c).coef2 = s.coef2 := by
  unfold State.raiseFatal; split <;> rfl
@[simp] theorem State.raiseFatal_coef3 : (s.raiseFatal c).coef3 = s.coef3 := by
  unfold State.raiseFatal; split <;> rfl
@[simp] theorem State.raiseFatal_frm : (s.raiseFatal c).frm = s.frm := by
  unfold State.raiseFatal; split <;> rfl
@[simp] theorem State.raiseFatal_agenda : (s.raiseFatal c).agenda = s.agenda := by
  unfold State.raiseFatal; split <;> rfl
@[simp] theorem State.raiseFatal_returned : (s.raiseFatal c).returned = s.returned := by
  unfold State.raiseFatal; split <;> rfl
@[simp] theorem State.raiseFatal_link : (s.raiseFatal c).link = s.link := by
  unfold State.raiseFatal; split <;> rfl
@[simp] theorem State.raiseFatal_freeTick : (s.raiseFatal c).freeTick = s.freeTick := by
  unfold State.raiseFatal; split <;> rfl

/-! ### `writeCoef`, `writeReg`: the host's tables -/

@[simp] theorem State.writeCoef_rxState :
    (s.writeCoef st k v).rxState = s.rxState := by cases st <;> rfl
@[simp] theorem State.writeCoef_wrPos :
    (s.writeCoef st k v).wrPos = s.wrPos := by cases st <;> rfl
@[simp] theorem State.writeCoef_fillSel :
    (s.writeCoef st k v).fillSel = s.fillSel := by cases st <;> rfl
@[simp] theorem State.writeCoef_cseq :
    (s.writeCoef st k v).cseq = s.cseq := by cases st <;> rfl
@[simp] theorem State.writeCoef_cur :
    (s.writeCoef st k v).cur = s.cur := by cases st <;> rfl
@[simp] theorem State.writeCoef_credit :
    (s.writeCoef st k v).credit = s.credit := by cases st <;> rfl
@[simp] theorem State.writeCoef_fifo :
    (s.writeCoef st k v).fifo = s.fifo := by cases st <;> rfl
@[simp] theorem State.writeCoef_own :
    (s.writeCoef st k v).own = s.own := by cases st <;> rfl
@[simp] theorem State.writeCoef_hoPend :
    (s.writeCoef st k v).hoPend = s.hoPend := by cases st <;> rfl
@[simp] theorem State.writeCoef_hoHalf :
    (s.writeCoef st k v).hoHalf = s.hoHalf := by cases st <;> rfl
@[simp] theorem State.writeCoef_rxSdFlag :
    (s.writeCoef st k v).rxSdFlag = s.rxSdFlag := by cases st <;> rfl
@[simp] theorem State.writeCoef_hostPend :
    (s.writeCoef st k v).hostPend = s.hostPend := by cases st <;> rfl
@[simp] theorem State.writeCoef_dropCount :
    (s.writeCoef st k v).dropCount = s.dropCount := by cases st <;> rfl
@[simp] theorem State.writeCoef_frmCol :
    (s.writeCoef st k v).frmCol = s.frmCol := by cases st <;> rfl
@[simp] theorem State.writeCoef_frmBuf :
    (s.writeCoef st k v).frmBuf = s.frmBuf := by cases st <;> rfl
@[simp] theorem State.writeCoef_status :
    (s.writeCoef st k v).status = s.status := by cases st <;> rfl
@[simp] theorem State.writeCoef_fatalCause :
    (s.writeCoef st k v).fatalCause = s.fatalCause := by cases st <;> rfl
@[simp] theorem State.writeCoef_cfg :
    (s.writeCoef st k v).cfg = s.cfg := by cases st <;> rfl
@[simp] theorem State.writeCoef_smpValid :
    (s.writeCoef st k v).smpValid = s.smpValid := by cases st <;> rfl
@[simp] theorem State.writeCoef_ch :
    (s.writeCoef st k v).ch = s.ch := by cases st <;> rfl
@[simp] theorem State.writeCoef_buf :
    (s.writeCoef st k v).buf = s.buf := by cases st <;> rfl
@[simp] theorem State.writeCoef_ob :
    (s.writeCoef st k v).ob = s.ob := by cases st <;> rfl
@[simp] theorem State.writeCoef_frm :
    (s.writeCoef st k v).frm = s.frm := by cases st <;> rfl
@[simp] theorem State.writeCoef_agenda :
    (s.writeCoef st k v).agenda = s.agenda := by cases st <;> rfl
@[simp] theorem State.writeCoef_returned :
    (s.writeCoef st k v).returned = s.returned := by cases st <;> rfl
@[simp] theorem State.writeCoef_link :
    (s.writeCoef st k v).link = s.link := by cases st <;> rfl
@[simp] theorem State.writeCoef_freeTick :
    (s.writeCoef st k v).freeTick = s.freeTick := by cases st <;> rfl
@[simp] theorem writeReg_rxState : (writeReg s v g).rxState = s.rxState := by
  cases g <;> rfl
@[simp] theorem writeReg_wrPos : (writeReg s v g).wrPos = s.wrPos := by
  cases g <;> rfl
@[simp] theorem writeReg_fillSel : (writeReg s v g).fillSel = s.fillSel := by
  cases g <;> rfl
@[simp] theorem writeReg_cseq : (writeReg s v g).cseq = s.cseq := by
  cases g <;> rfl
@[simp] theorem writeReg_cur : (writeReg s v g).cur = s.cur := by
  cases g <;> rfl
@[simp] theorem writeReg_credit : (writeReg s v g).credit = s.credit := by
  cases g <;> rfl
@[simp] theorem writeReg_fifo : (writeReg s v g).fifo = s.fifo := by
  cases g <;> rfl
@[simp] theorem writeReg_own : (writeReg s v g).own = s.own := by
  cases g <;> rfl
@[simp] theorem writeReg_hoPend : (writeReg s v g).hoPend = s.hoPend := by
  cases g <;> rfl
@[simp] theorem writeReg_hoHalf : (writeReg s v g).hoHalf = s.hoHalf := by
  cases g <;> rfl
@[simp] theorem writeReg_rxSdFlag : (writeReg s v g).rxSdFlag = s.rxSdFlag := by
  cases g <;> rfl
@[simp] theorem writeReg_hostPend : (writeReg s v g).hostPend = s.hostPend := by
  cases g <;> rfl
@[simp] theorem writeReg_dropCount : (writeReg s v g).dropCount = s.dropCount := by
  cases g <;> rfl
@[simp] theorem writeReg_frmCol : (writeReg s v g).frmCol = s.frmCol := by
  cases g <;> rfl
@[simp] theorem writeReg_frmBuf : (writeReg s v g).frmBuf = s.frmBuf := by
  cases g <;> rfl
@[simp] theorem writeReg_status : (writeReg s v g).status = s.status := by
  cases g <;> rfl
@[simp] theorem writeReg_fatalCause : (writeReg s v g).fatalCause = s.fatalCause := by
  cases g <;> rfl
@[simp] theorem writeReg_smpValid : (writeReg s v g).smpValid = s.smpValid := by
  cases g <;> rfl
@[simp] theorem writeReg_ch : (writeReg s v g).ch = s.ch := by
  cases g <;> rfl
@[simp] theorem writeReg_buf : (writeReg s v g).buf = s.buf := by
  cases g <;> rfl
@[simp] theorem writeReg_ob : (writeReg s v g).ob = s.ob := by
  cases g <;> rfl
@[simp] theorem writeReg_coef1 : (writeReg s v g).coef1 = s.coef1 := by
  cases g <;> rfl
@[simp] theorem writeReg_coef2 : (writeReg s v g).coef2 = s.coef2 := by
  cases g <;> rfl
@[simp] theorem writeReg_coef3 : (writeReg s v g).coef3 = s.coef3 := by
  cases g <;> rfl
@[simp] theorem writeReg_frm : (writeReg s v g).frm = s.frm := by
  cases g <;> rfl
@[simp] theorem writeReg_agenda : (writeReg s v g).agenda = s.agenda := by
  cases g <;> rfl
@[simp] theorem writeReg_returned : (writeReg s v g).returned = s.returned := by
  cases g <;> rfl
@[simp] theorem writeReg_link : (writeReg s v g).link = s.link := by
  cases g <;> rfl
@[simp] theorem writeReg_freeTick : (writeReg s v g).freeTick = s.freeTick := by
  cases g <;> rfl

end Sys2Proof.Machine
end

