-- ==== Sys2Proof/Laws/Ops.lean ====
section
/-! SUPPORT. What each shared operation can do, said once: memory words, loops, flags, the fatal stop, the
hand-off, the step. -/

namespace Sys2Proof.Machine

/-! ### Memory words -/

@[simp] theorem Memory.read_nil (i : Nat) : Memory.read [] i = none := rfl

/-- A word read after a write is the word written, or what was there. -/
theorem Memory.read_write (m : Memory) (i j : Nat) (v : Word) :
    (m.write i v).read j = if j = i then some v else m.read j := by
  induction m with
  | nil => simp only [Memory.write, Memory.read]
  | cons p m ih =>
    obtain ⟨a, x⟩ := p
    simp only [Memory.write]
    split
    · simp only [Memory.read]
    · split <;> simp only [Memory.read] at ih ⊢ <;> grind

@[simp] theorem Memory.read_write_self (m : Memory) (i : Nat) (v : Word) :
    (m.write i v).read i = some v := by simp [Memory.read_write]

theorem Memory.read_write_ne (m : Memory) {i j : Nat} (v : Word) (h : j ≠ i) :
    (m.write i v).read j = m.read j := by simp [Memory.read_write, h]

@[simp] theorem Memory.wf_nil : Memory.wf [] = true := rfl

/-- Every index of a canonical memory's tail is above its head. -/
theorem Memory.wf_cons (a : Nat) (x : Word) (m : Memory) :
    Memory.wf ((a, x) :: m) = true ↔ (∀ p ∈ m, a < p.1) ∧ m.wf = true := by
  induction m generalizing a x with
  | nil => simp [Memory.wf]
  | cons p m ih =>
    obtain ⟨b, y⟩ := p
    simp only [Memory.wf, Bool.and_eq_true, decide_eq_true_eq, ih, List.mem_cons, forall_eq_or_imp]
    constructor
    · rintro ⟨h1, h2, h3⟩
      exact ⟨⟨h1, fun q hq => lt_trans h1 (h2 q hq)⟩, h2, h3⟩
    · rintro ⟨⟨h1, -⟩, h2, h3⟩
      exact ⟨h1, h2, h3⟩

theorem Memory.mem_write {m : Memory} {i : Nat} {v : Word} {p : Nat × Word} (h : p ∈ m.write i v) :
    p.1 = i ∨ p ∈ m := by
  induction m with
  | nil => simp_all [Memory.write]
  | cons q m ih => obtain ⟨a, x⟩ := q; simp only [Memory.write] at h; grind

/-- A write keeps the canonical form. -/
theorem Memory.wf_write (m : Memory) (i : Nat) (v : Word) (h : m.wf = true) : (m.write i v).wf = true := by
  induction m with
  | nil => rfl
  | cons q m ih =>
    obtain ⟨a, x⟩ := q
    rw [Memory.wf_cons] at h
    simp only [Memory.write]
    split
    · rename_i hlt
      rw [Memory.wf_cons, Memory.wf_cons]
      refine ⟨?_, h⟩
      intro p hp
      rcases List.mem_cons.1 hp with rfl | hp
      · exact hlt
      · exact lt_trans hlt (h.1 p hp)
    · split
      · subst_vars; rw [Memory.wf_cons]; exact h
      · rw [Memory.wf_cons]
        refine ⟨fun p hp => ?_, ih h.2⟩
        rcases Memory.mem_write hp with hp | hp
        · omega
        · exact h.1 p hp

/-- A word of a canonical memory is read as listed. -/
theorem Memory.read_eq_some_iff (m : Memory) (h : m.wf = true) (i : Nat) (v : Word) :
    m.read i = some v ↔ (i, v) ∈ m := by
  induction m with
  | nil => simp
  | cons q m ih =>
    obtain ⟨a, x⟩ := q
    rw [Memory.wf_cons] at h
    simp only [Memory.read, List.mem_cons, Prod.mk.injEq]
    split
    · subst_vars
      constructor
      · rintro ⟨⟩; simp
      · rintro (⟨-, rfl⟩ | hm)
        · rfl
        · exact absurd (h.1 _ hm) (lt_irrefl _)
    · rename_i hne; simp [ih h.2, hne]

theorem load_eq_ok {sp : Space} {n i : Nat} {m : Memory} {v : Word} :
    load sp n m i = .ok v ↔ i < n ∧ m.read i = some v := by
  unfold load; split <;> [split; skip] <;> simp_all

theorem load_eq_error {sp : Space} {n i : Nat} {m : Memory} {e : Fault} :
    load sp n m i = .error e ↔
      (i < n ∧ m.read i = none ∧ e = .uninit sp) ∨ (n ≤ i ∧ e = .badIndex sp) := by
  unfold load
  split
  · rename_i hi
    have hn : ¬ n ≤ i := by omega
    cases m.read i <;> simp [hi, hn, eq_comm]
  · simp_all [eq_comm]

theorem store_eq_ok {sp : Space} {n i : Nat} {m m' : Memory} {v : Word} :
    store sp n m i v = .ok m' ↔ i < n ∧ m' = m.write i v := by
  unfold store; split <;> simp_all [eq_comm]

theorem store_eq_error {sp : Space} {n i : Nat} {m : Memory} {v : Word} {e : Fault} :
    store sp n m i v = .error e ↔ n ≤ i ∧ e = .badIndex sp := by
  unfold store; split <;> simp_all [eq_comm]

theorem channelIndex_eq_ok {c : Nat} {i : Fin 16} : channelIndex c = .ok i ↔ i.val = c := by
  unfold channelIndex
  split
  · rw [Except.ok.injEq, Fin.ext_iff, eq_comm]
  · simp; omega

theorem channelIndex_eq_error {c : Nat} {e : Fault} :
    channelIndex c = .error e ↔ 16 ≤ c ∧ e = .badChannel := by
  unfold channelIndex; split <;> simp_all [eq_comm]

/-! ### Loops -/

theorem forRange_zero {σ : Type} (f : Nat → σ → Except Fault σ) (a : σ) : forRange 0 f a = .ok a := rfl

theorem forRange_succ_eq_ok {σ : Type} {n : Nat} {f : Nat → σ → Except Fault σ} {a c : σ} :
    forRange (n + 1) f a = .ok c ↔ ∃ b, forRange n f a = .ok b ∧ f n b = .ok c := by
  simp only [forRange]; split <;> simp_all

/-- A loop whose passes keep an indexed property ends in it. -/
theorem forRange_ok_of {σ : Type} {f : Nat → σ → Except Fault σ} (P : Nat → σ → Prop) (n : Nat) {a : σ}
    (h0 : P 0 a) (hs : ∀ i a, i < n → P i a → ∃ b, f i a = .ok b ∧ P (i + 1) b) :
    ∃ b, forRange n f a = .ok b ∧ P n b := by
  induction n with
  | zero => exact ⟨a, rfl, h0⟩
  | succ n ih =>
    obtain ⟨b, hb, hP⟩ := ih fun i a hi => hs i a (by omega)
    obtain ⟨c, hc, hP'⟩ := hs n b (by omega) hP
    exact ⟨c, forRange_succ_eq_ok.2 ⟨b, hb, hc⟩, hP'⟩

/-- The same for a loop that is known to end normally. -/
theorem forRange_ok_ind {σ : Type} {f : Nat → σ → Except Fault σ} (P : Nat → σ → Prop) {n : Nat} {a b : σ}
    (h : forRange n f a = .ok b) (h0 : P 0 a)
    (hs : ∀ i a b, i < n → P i a → f i a = .ok b → P (i + 1) b) : P n b := by
  induction n generalizing b with
  | zero => cases h; exact h0
  | succ n ih =>
    obtain ⟨c, hc, hb⟩ := forRange_succ_eq_ok.1 h
    exact hs n c b (by omega) (ih hc fun i a b hi => hs i a b (by omega)) hb

/-- A loop that faults faults in one of its passes. -/
theorem forRange_error {σ : Type} {f : Nat → σ → Except Fault σ} {n : Nat} {a : σ} {e : Fault}
    (h : forRange n f a = .error e) : ∃ i b, i < n ∧ forRange i f a = .ok b ∧ f i b = .error e := by
  induction n with
  | zero => cases h
  | succ n ih =>
    simp only [forRange] at h
    split at h
    · rename_i b hb; exact ⟨n, b, by omega, hb, h⟩
    · rename_i e' he; cases h
      obtain ⟨i, b, hi, hb⟩ := ih he
      exact ⟨i, b, by omega, hb⟩

/-- What a list read word by word holds. -/
theorem collect_eq_ok {α : Type} {f : Nat → Except Fault α} {i n : Nat} {vs : List α} :
    collect f i n = .ok vs ↔ vs.length = n ∧ ∀ j (h : j < vs.length), f (i + j) = .ok vs[j] := by
  induction n generalizing i vs with
  | zero => cases vs <;> simp [collect]
  | succ n ih =>
    simp only [collect]
    cases hv : f i with
    | error e =>
      simp only [reduceCtorEq, false_iff, not_and]
      intro hl hj
      have := hj 0 (by omega)
      simp [hv] at this
    | ok v =>
      cases hc : collect f (i + 1) n with
      | error e =>
        simp only [reduceCtorEq, false_iff, not_and]
        intro hl hj
        cases vs with
        | nil => simp at hl
        | cons w vs =>
          have : collect f (i + 1) n = .ok vs := ih.2 ⟨by simpa using hl, fun j h => by
            have := hj (j + 1) (by simpa using h)
            simpa [Nat.add_assoc, Nat.add_comm 1 j] using this⟩
          simp [hc] at this
      | ok ws =>
        obtain ⟨h1, h2⟩ := ih.1 hc
        simp only [Except.ok.injEq]
        constructor
        · rintro rfl
          refine ⟨by simp [h1], fun j h => ?_⟩
          cases j with
          | zero => simpa using hv
          | succ j => simpa [Nat.add_assoc, Nat.add_comm 1 j] using h2 j (by simpa using h)
        · rintro ⟨hl, hj⟩
          cases vs with
          | nil => simp at hl
          | cons w vs =>
            have hw := hj 0 (by simp)
            simp [hv] at hw
            have : collect f (i + 1) n = .ok vs := ih.2 ⟨by simpa using hl, fun j h => by
              have := hj (j + 1) (by simpa using h)
              simpa [Nat.add_assoc, Nat.add_comm 1 j] using this⟩
            simp [hc] at this
            simp [hw, this]

/-- A list of readable words is read. -/
theorem collect_ok_of {α : Type} {f : Nat → Except Fault α} {i n : Nat}
    (h : ∀ j < n, ∃ v, f (i + j) = .ok v) : ∃ vs, collect f i n = .ok vs := by
  induction n generalizing i with
  | zero => exact ⟨[], rfl⟩
  | succ n ih =>
    obtain ⟨v, hv⟩ := h 0 (by omega)
    obtain ⟨vs, hvs⟩ := ih (i := i + 1) fun j hj => by
      obtain ⟨w, hw⟩ := h (j + 1) (by omega)
      exact ⟨w, by simpa [Nat.add_assoc, Nat.add_comm 1 j] using hw⟩
    exact ⟨v :: vs, by simp only [Nat.add_zero] at hv; simp [collect, hv, hvs]⟩

theorem collect_error {α : Type} {f : Nat → Except Fault α} {i n : Nat} {e : Fault}
    (h : collect f i n = .error e) : ∃ j < n, f (i + j) = .error e := by
  induction n generalizing i with
  | zero => cases h
  | succ n ih =>
    simp only [collect] at h
    split at h
    · rename_i e' he; cases h; exact ⟨0, by omega, he⟩
    · split at h
      · rename_i e' he; cases h
        obtain ⟨j, hj, hf⟩ := ih he
        exact ⟨j + 1, by omega, by simpa [Nat.add_assoc, Nat.add_comm 1 j] using hf⟩
      · cases h

/-- What a loop of stores to distinct words leaves. -/
theorem forRange_store {f : Nat → Memory → Except Fault Memory} {a : Nat → Nat} {v : Nat → Word} {n : Nat}
    (hf : ∀ c < n, ∀ m, f c m = .ok (m.write (a c) (v c)))
    (ha : ∀ c < n, ∀ d < n, a c = a d → c = d) (m : Memory) :
    ∃ m', forRange n f m = .ok m' ∧ (∀ c < n, m'.read (a c) = some (v c)) ∧
      ∀ i, (∀ c < n, i ≠ a c) → m'.read i = m.read i := by
  refine forRange_ok_of (fun k (m' : Memory) => (∀ c < k, m'.read (a c) = some (v c)) ∧
    ∀ i, (∀ c < k, i ≠ a c) → m'.read i = m.read i) n ⟨fun c hc => absurd hc (by omega), fun _ _ => rfl⟩ ?_
  rintro k b hk ⟨h1, h2⟩
  refine ⟨_, hf k hk b, fun c hc => ?_, fun i hi => ?_⟩
  · rw [Memory.read_write]
    split
    · rename_i he; rw [ha c (by omega) k hk he]
    · rename_i hne
      have : c ≠ k := fun h => hne (by rw [h])
      exact h1 c (by omega)
  · rw [Memory.read_write_ne _ _ (hi k (by omega))]
    exact h2 i fun c hc => hi c (by omega)

theorem sumTo_eq_sum (n : Nat) (f : Nat → Int) : sumTo n f = ∑ i ∈ Finset.range n, f i := by
  induction n with
  | zero => rfl
  | succ n ih => simp [sumTo, ih, Finset.sum_range_succ]

/-! ### Canonical form -/

/-- A loop whose passes keep the canonical form keeps it. -/
theorem wf_forRange {f : Nat → Memory → Except Fault Memory} {n : Nat} {m m' : Memory}
    (hf : ∀ i m m', m.wf = true → f i m = .ok m' → m'.wf = true) (h : forRange n f m = .ok m')
    (hm : m.wf = true) : m'.wf = true :=
  forRange_ok_ind (fun _ m => m.wf = true) h hm fun i a b _ ha hb => hf i a b ha hb

/-- A store keeps the canonical form. -/
theorem wf_store {sp : Space} {n i : Nat} {v : Word} {m m' : Memory} (h : store sp n m i v = .ok m')
    (hm : m.wf = true) : m'.wf = true := by
  rw [(store_eq_ok.1 h).2]; exact m.wf_write i v hm

/-! ### Indexed registers -/

/-- An element of a register file after one element is set. -/
theorem getElem_set_fin {α : Type} {n : Nat} (v : Vector α n) (i j : Fin n) (x : α) :
    (v.set i x)[j] = if j = i then x else v[j] := by
  simp only [Fin.getElem_fin, Vector.getElem_set, Fin.ext_iff, eq_comm]

theorem getElem_set_fin_ne {α : Type} {n : Nat} (v : Vector α n) {i j : Fin n} (x : α) (h : j ≠ i) :
    (v.set i x)[j] = v[j] := by rw [getElem_set_fin, if_neg h]

theorem other_half_ne (h : Half) : 1 - h ≠ h := by revert h; decide

/-! ### Flags -/

/-- Raising a flag sets that flag when the condition holds and changes no other. -/
@[simp] theorem State.flag_raiseFlag (s : State) (f g : Flag) (on : Bool) :
    (s.raiseFlag f on).flag g = (s.flag g || (on && decide (f = g))) := by
  cases on <;> cases f <;> cases g <;> simp [State.flag, Flag.bit]

@[simp] theorem State.fatal_raiseFlag (s : State) (f : Flag) (on : Bool) :
    (s.raiseFlag f on).fatal = (s.fatal || (on && decide (f = .fatal))) :=
  State.flag_raiseFlag s f .fatal on

@[simp] theorem State.flag_raiseFatal (s : State) (c : Cause) (g : Flag) :
    (s.raiseFatal c).flag g = (s.flag g || decide (g = .fatal)) := by
  cases h : s.flag .fatal <;> cases g <;>
    simp_all [State.raiseFatal, State.flag, State.fatal, State.raiseFlag, Flag.bit]

@[simp] theorem State.fatal_raiseFatal (s : State) (c : Cause) : (s.raiseFatal c).fatal = true := by
  simp [State.fatal]

theorem Cause.code_ne_zero (c : Cause) : c.code ≠ 0 := by cases c <;> decide

/-- The reset state's memories have the canonical form. -/
theorem reset_memories_wf : (∀ h : Half, State.reset.buf[h].wf = true) ∧ State.reset.ob.wf = true ∧
    State.reset.frm.wf = true ∧ State.reset.coef1.wf = true ∧ State.reset.coef2.wf = true ∧
    State.reset.coef3.wf = true := by
  refine ⟨fun h => ?_, rfl, rfl, rfl, rfl, rfl⟩
  simp [State.reset]

/-! ### The hand-off -/

/-- What a hand-off can do: queue the half and take a credit in interrupt-driven mode; drop the block there;
queue the half in thread-driven mode; leave it pending there. -/
theorem State.handoffAttempt_cases (s : State) (h : Half) :
    (s.cfg.threadMode = false ∧ 0 < s.credit.toNat ∧
      s.handoffAttempt h = { s.push h with credit := s.credit - 1 }) ∨
    (s.cfg.threadMode = false ∧ s.credit = 0 ∧ s.cfg.countAndDrop = true ∧
      s.handoffAttempt h = { s with dropCount := s.dropCount + 1 }) ∨
    (s.cfg.threadMode = false ∧ s.credit = 0 ∧ s.cfg.countAndDrop = false ∧
      s.handoffAttempt h = s.raiseFatal .droppedBlock) ∨
    (s.cfg.threadMode = true ∧ s.fifo.length < 2 ∧ s.handoffAttempt h = s.push h) ∨
    (s.cfg.threadMode = true ∧ 2 ≤ s.fifo.length ∧
      s.handoffAttempt h = { s with hoPend := true, hoHalf := h }) := by
  unfold State.handoffAttempt State.handoffIrq State.handoffThread Config.fifoSlots
  have hz : ¬ 0 < s.credit.toNat → s.credit = 0 := fun hc =>
    BitVec.eq_of_toNat_eq (by simpa using Nat.eq_zero_of_not_pos hc)
  cases hm : s.cfg.threadMode <;> simp only [Bool.false_eq_true, if_false, if_true]
  · split
    · simp_all
    · cases hd : s.cfg.countAndDrop <;> simp_all
  · split <;> simp_all; omega

/-! ### The step -/

theorem step_nil {s : State} (h : s.agenda = []) : step s = .next s := by
  simp [step, State.fetch, h]

theorem step_cons {s : State} {w : OpWord} {rest : List OpWord} (h : s.agenda = w :: rest) :
    step s = match decode w with
      | .error e => .refused (.reservedWord e)
      | .ok i => exec i { s with agenda := rest } := by
  have hf : s.fetch = some (w, { s with agenda := rest }) := by unfold State.fetch; rw [h]
  cases hd : decode w <;> simp only [step, hf, hd]

/-- A step that goes on did nothing, or performed one decoded operation. -/
theorem step_eq_next {s t : State} (h : step s = .next t) :
    (s.agenda = [] ∧ t = s) ∨
    ∃ w rest i, s.agenda = w :: rest ∧ decode w = .ok i ∧ exec i { s with agenda := rest } = .next t := by
  cases ha : s.agenda with
  | nil => rw [step_nil ha] at h; cases h; exact .inl ⟨rfl, rfl⟩
  | cons w rest =>
    rw [step_cons ha] at h
    split at h
    · cases h
    · rename_i i hi; exact .inr ⟨w, rest, i, rfl, hi, h⟩

end Sys2Proof.Machine
end

