-- ==== Sys2Proof/Laws/Filters.lean ====
section
/-! SUPPORT. What one step of a FIR stage does, in the sums of Safety.lean. -/

namespace Sys2Proof.Machine

/-! ### Coefficients -/

/-- Reading the first `n` coefficients succeeds when all were written, and faults otherwise. -/
theorem loadCoefs_spec (sp : Space) (m : Memory) {n : Nat} (hn : n ≤ 256) :
    (Written m n → ∃ cs, loadCoefs sp m n = .ok cs ∧ ∀ a < n, cs.getD a 0#32 = (m.read a).getD 0#32) ∧
    (¬ Written m n → loadCoefs sp m n = .error (.uninit sp)) := by
  constructor
  · intro h
    obtain ⟨cs, hcs⟩ : ∃ cs, loadCoefs sp m n = .ok cs := collect_ok_of fun j hj => by
      obtain ⟨v, hv⟩ := Option.isSome_iff_exists.1 (h j hj)
      exact ⟨v, load_eq_ok.2 ⟨by simp only [Config.coefWords, Nat.zero_add]; omega, by simpa using hv⟩⟩
    obtain ⟨hl, hr⟩ := collect_eq_ok.1 hcs
    refine ⟨cs, hcs, fun a ha => ?_⟩
    have hal : a < cs.length := by rw [hl]; exact ha
    have := (load_eq_ok.1 (hr a hal)).2
    rw [Nat.zero_add] at this
    simp [List.getD_eq_getElem?_getD, hal, this]
  · intro h
    cases hc : loadCoefs sp m n with
    | ok cs =>
      obtain ⟨hl, hr⟩ := collect_eq_ok.1 hc
      refine absurd (fun j hj => ?_) h
      have := (load_eq_ok.1 (hr j (by rw [hl]; exact hj))).2
      rw [Nat.zero_add] at this
      simp [this]
    | error e =>
      obtain ⟨j, hj, he⟩ := collect_error hc
      rcases load_eq_error.1 he with ⟨-, -, rfl⟩ | ⟨hge, -⟩
      · rfl
      · simp only [Config.coefWords, Nat.zero_add] at hge; omega

/-! ### Stage 1 -/

theorem pushHist_zero (w : Word) (h : Vector Word 8) : (pushHist w h)[0] = w := by simp [pushHist]

theorem pushHist_pos (w : Word) (h : Vector Word 8) (i : Fin 8) (hi : 0 < i.val) :
    (pushHist w h)[i] = h[i.val - 1] := by
  simp [pushHist]
  intro h; omega

/-- The dot product with the coefficients read is the sum over the memory (41_stage1.md R163). -/
theorem s1Dot_eq_dotSum {m : Memory} {cs : List Word} (h : Vector Word 8)
    (hcs : ∀ a < 256, cs.getD a 0#32 = (m.read a).getD 0#32) : s1Dot h (coef16 cs) = dotSum h m := by
  unfold s1Dot dotSum Config.s1Taps
  rw [sumTo_eq_sum]
  refine Finset.sum_congr rfl fun a ha => ?_
  rw [coef16, coef16At, hcs a (Finset.mem_range.1 ha)]
  rfl

theorem coef16At_bounds (m : Memory) (a : Nat) : -32768 ≤ coef16At m a ∧ coef16At m a ≤ 32767 := by
  unfold coef16At
  generalize ((m.read a).getD 0#32).setWidth 16 = x
  have h1 := BitVec.le_toInt x
  have h2 := BitVec.toInt_lt (x := x)
  norm_num at h1 h2
  omega

/-- 41_stage1.md R164: the dot product is far inside 32 bits. -/
theorem dotSum_bounds (h : Vector Word 8) (m : Memory) : -8388608 ≤ dotSum h m ∧ dotSum h m ≤ 8388608 := by
  have key : |dotSum h m| ≤ 8388608 := by
    unfold dotSum
    refine (Finset.abs_sum_le_sum_abs _ _).trans ?_
    calc _ ≤ ∑ _a ∈ Finset.range 256, (32768 : Int) := by
          refine Finset.sum_le_sum fun a _ => ?_
          have := coef16At_bounds m a
          split <;> rw [abs_le] <;> omega
      _ = 8388608 := by simp
  exact abs_le.1 key

theorem toInt_ofInt_32 {z : Int} (h1 : -2147483648 ≤ z) (h2 : z ≤ 2147483647) :
    (BitVec.ofInt 32 z).toInt = z := by
  rw [BitVec.toInt_ofInt]
  exact Int.bmod_eq_of_le (by norm_num; omega) (by norm_num; omega)

/-- One S1STEP on a history, all coefficients written. -/
theorem s1Step_ok {m : Memory} (hm : Written m 256) (w : Word) (h : Vector Word 8) :
    ∃ y, s1Step m w h = .ok (pushHist w h, y) ∧ y.toInt = dotSum (pushHist w h) m := by
  obtain ⟨cs, h1, h2⟩ := (loadCoefs_spec .coef1 m (le_refl 256)).1 hm
  refine ⟨BitVec.ofInt 32 (s1Dot (pushHist w h) (coef16 cs)), by simp only [s1Step, Config.s1Taps, h1], ?_⟩
  rw [s1Dot_eq_dotSum _ h2]
  have := dotSum_bounds (pushHist w h) m
  exact toInt_ofInt_32 (by omega) (by omega)

theorem s1Step_error {m : Memory} (hm : ¬ Written m 256) (w : Word) (h : Vector Word 8) :
    s1Step m w h = .error (.uninit .coef1) := by
  simp only [s1Step, Config.s1Taps, (loadCoefs_spec .coef1 m (le_refl 256)).2 hm]

/-! ### Stage 2 and Stage 3 -/

theorem pushSample_zero (taps : Nat) (x : Word) (h : Vector Word 256) : (pushSample taps x h)[0] = x := by
  simp [pushSample]

theorem pushSample_older (taps : Nat) (x : Word) (h : Vector Word 256) (k : Fin 256) (h0 : 0 < k.val)
    (ht : k.val < taps) : (pushSample taps x h)[k] = h[k.val - 1] := by
  simp [pushSample, ht]
  intro h; omega

theorem pushSample_beyond (taps : Nat) (x : Word) (h : Vector Word 256) (k : Fin 256) (h0 : 0 < k.val)
    (ht : taps ≤ k.val) : (pushSample taps x h)[k] = h[k] := by
  simp [pushSample, Nat.not_lt.2 ht]
  intro h; omega

/-- The taps of a branch are those whose coefficient index is below the tap count. -/
theorem branchTaps_spec {taps dec r j : Nat} (hd : 0 < dec) :
    j < branchTaps taps dec r ↔ r + j * dec < taps := by
  unfold branchTaps
  rw [Nat.lt_div_iff_mul_lt hd]
  constructor <;> intro h
  · by_contra hc
    have : taps - r ≤ j * dec := by omega
    omega
  · omega

/-- The branch sum over the coefficients read is the sum over the memory (42_stage23.md R177, R179). -/
theorem branchSum_eq {m : Memory} {p : FirParams} {cs : List Word} (hd : 0 < p.dec) (ht : p.taps ≤ 256)
    (hcs : ∀ a < p.taps, cs.getD a 0#32 = (m.read a).getD 0#32) (x : Vector Word 256) (r : Nat) :
    branchSum cs p x r = branchOver m p x r := by
  have hb : ∀ j, j < branchTaps p.taps p.dec r ↔ r + j * p.dec < p.taps := fun j => branchTaps_spec hd
  rw [branchSum, sumTo_eq_sum, branchOver]
  have hset : (Finset.range 256).filter (fun j => r + j * p.dec < p.taps) =
      Finset.range (branchTaps p.taps p.dec r) := by
    ext j
    simp only [Finset.mem_filter, Finset.mem_range, hb]
    constructor
    · exact fun h => h.2
    · intro h
      have := Nat.le_mul_of_pos_right j hd
      exact ⟨by omega, h⟩
  rw [hset]
  refine Finset.sum_congr rfl fun j hj => ?_
  rw [hcs _ ((hb j).1 (Finset.mem_range.1 hj))]
  rfl

theorem sat32_clamp (z : Int) : clamp z = (BitVec.ofInt 32 (max (-2147483648) (min 2147483647 z)),
    decide (z < -2147483648 ∨ 2147483647 < z)) := by
  have h : sat32 z = max (-2147483648) (min 2147483647 z) := by norm_num [sat32]
  unfold clamp
  rw [h, Prod.mk.injEq, decide_eq_decide]
  exact ⟨rfl, by omega⟩

/-- One step of Stage 2 or Stage 3 (42_stage23.md R177 to R183). -/
theorem firStep_ok {sp : Space} {m : Memory} {p : FirParams} {f : FirState} (hr : FirReady m p f)
    (x : Word) :
    ∃ o, firStep sp m p x f = .ok o ∧ FirStepped m p x f o.st o.out o.sat ∧ o.st.ph.toNat < p.dec := by
  obtain ⟨hd, ht1, ht, hw, hph⟩ := hr
  have hd0 : 0 < p.dec := by omega
  have hd6 : p.dec ≤ 6 := by omega
  obtain ⟨cs, h1, h2⟩ := (loadCoefs_spec sp m ht).1 hw
  refine ⟨firFinish p (pushSample p.taps x f.x) (BitVec.ofInt 72 (f.acc.toInt +
    branchOver m p (pushSample p.taps x f.x) (p.dec - 1 - f.ph.toNat))) f.ph,
    by simp only [firStep, h1, branchSum_eq hd0 ht h2], ?_, ?_⟩
  · unfold firFinish
    split
    · rename_i he
      refine ⟨pushSample_zero _ _ _, pushSample_older _ _ _, pushSample_beyond _ _ _,
        fun h => by omega, fun _ => ⟨rfl, rfl, _, rfl, ?_, ?_⟩⟩
      · rw [sat32_clamp, he]; simp
      · rw [sat32_clamp, he]; simp
    · rename_i hne
      refine ⟨pushSample_zero _ _ _, pushSample_older _ _ _, pushSample_beyond _ _ _,
        fun _ => ⟨rfl, ?_, rfl, rfl⟩, fun h => by omega⟩
      rw [BitVec.toNat_add_of_lt (by simp; omega)]; rfl
  · unfold firFinish
    split
    · simpa using hd0
    · rw [BitVec.toNat_add_of_lt (by simp; omega)]; simp; omega

/-- One step of Stage 2 or Stage 3, a coefficient below the tap count not written (42_stage23.md R177). -/
theorem firStep_unwritten {sp : Space} {m : Memory} {p : FirParams} (ht : p.taps ≤ 256)
    (hw : ¬ Written m p.taps) (x : Word) (f : FirState) : firStep sp m p x f = .error (.uninit sp) := by
  simp only [firStep, (loadCoefs_spec sp m ht).2 hw]

theorem firStep_error {sp : Space} {m : Memory} {p : FirParams} {x : Word} {f : FirState} {e : Fault}
    (ht : p.taps ≤ 256) (h : firStep sp m p x f = .error e) : e = .uninit sp ∧ ¬ Written m p.taps := by
  by_cases hw : Written m p.taps
  · obtain ⟨cs, h1, -⟩ := (loadCoefs_spec sp m ht).1 hw
    simp [firStep, h1] at h
  · rw [firStep_unwritten ht hw] at h; cases h; exact ⟨rfl, hw⟩

end Sys2Proof.Machine
end

