-- ==== Sys2Proof/Laws/Effects.lean ====
section
/-! SUPPORT. What each operation can do: if it goes on, it changed nothing, or did exactly this. One lemma per
operation whose meaning has cases; the rest is `simp`. -/

namespace Sys2Proof.Machine

variable {s t : State}

/-! ### Host -/

theorem execCfgwr_next {b : BitVec 16} {v : Word} (h : execCfgwr b v s = .next t) :
    t = s ∨ (s.configOpen = true ∧ ∃ r, regOfIndex b = some r ∧ t = writeReg s v r) := by
  unfold execCfgwr at h
  split at h
  · cases h
  · rename_i r hr
    split at h <;> cases h
    · exact .inr ⟨‹_›, r, hr, rfl⟩
    · exact .inl rfl

theorem execCsrrd_next {b : BitVec 16} (h : execCsrrd b s = .next t) :
    ∃ r, regOfIndex b = some r ∧ t = s.giveBack (.csr (readReg s r)) := by
  unfold execCsrrd at h
  split at h <;> cases h
  exact ⟨_, ‹_›, rfl⟩

theorem execCoefwr_next {a : BitVec 8} {b : BitVec 16} {v : Word} (h : execCoefwr a b v s = .next t) :
    t = s ∨ (s.configOpen = true ∧ ∃ st k, k < 256 ∧ t = s.writeCoef st k (coefOperand st v)) := by
  unfold execCoefwr at h
  split at h
  · rename_i st k hst hk
    have hk' : k < 256 := by
      unfold tapOf Config.coefWords at hk
      split at hk <;> cases hk
      assumption
    split at h <;> cases h
    · exact .inr ⟨‹_›, st, k, hk', rfl⟩
    · exact .inl rfl
  · cases h

theorem execInit_next (h : execInit s = .next t) :
    t = s ∨ (s.configOpen = true ∧ ∃ c, initFailure s.cfg = some c ∧ t = s.raiseFatal c) ∨
      (s.configOpen = true ∧ initFailure s.cfg = none ∧ t = s.afterInit) := by
  unfold execInit at h
  split at h
  · split at h <;> cases h
    · exact .inr (.inl ⟨‹_›, _, ‹_›, rfl⟩)
    · exact .inr (.inr ⟨‹_›, ‹_›, rfl⟩)
  · cases h; exact .inl rfl

theorem execStart_next (h : execStart s = .next t) :
    t = s ∨ (s.rxState = .armed ∧ s.fatal = false ∧ t = { s with rxState := .running, cseq := .req }) := by
  unfold execStart at h
  cases h
  split
  · rename_i ho
    simp only [State.startOpen, Bool.and_eq_true, beq_iff_eq, Bool.not_eq_true'] at ho
    exact .inr ⟨ho.1, ho.2, rfl⟩
  · exact .inl rfl

theorem linkCommand_next {p : HostPend} (h : linkCommand p s = .next t) :
    t = s ∨ (s.hostPend = .none ∧ (s.rxState = .armed ∨ s.rxState = .running) ∧ s.fatal = false ∧
      t = { s with hostPend := p }) := by
  unfold linkCommand at h
  split at h
  · cases h
  · rename_i hp
    cases h
    split
    · rename_i ho
      simp only [State.linkOpen, Bool.and_eq_true, Bool.or_eq_true, beq_iff_eq, Bool.not_eq_true'] at ho
      exact .inr ⟨by simpa using hp, ho.1, ho.2, rfl⟩
    · exact .inl rfl

theorem linkCommand_fault {p : HostPend} {e : Fault} (h : linkCommand p s = .fault e) :
    s.hostPend ≠ .none ∧ e = .hostMisuse := by
  unfold linkCommand at h
  split at h
  · rename_i hp; cases h; exact ⟨by simpa using hp, rfl⟩
  · cases h

/-! ### Producer -/

/-- The state once a word is stored and, at position 0, before the hand-off. -/
def State.wordTaken (s : State) (w : Word) : State :=
  { s.raiseFlag .overrun (s.own[s.fillSel] != .producer) with
    buf := s.buf.set s.fillSel (s.buf[s.fillSel].write s.wrPos.toNat w) }

theorem storeWord_eq_ok {w : Word} :
    s.storeWord w = .ok t ↔ s.wrPos.toNat < 96 ∧ t = s.wordTaken w := by
  unfold State.storeWord State.wordTaken
  cases h : store .buf Config.bufWords s.buf[s.fillSel] s.wrPos.toNat w with
  | ok m =>
    obtain ⟨h1, rfl⟩ := store_eq_ok.1 h
    simp only [Config.bufWords] at h1
    simp only [Except.ok.injEq, h1, true_and]
    exact eq_comm
  | error e =>
    obtain ⟨h1, -⟩ := store_eq_error.1 h
    simp only [Config.bufWords] at h1
    simp only [reduceCtorEq, false_iff, not_and]
    omega

theorem storeWord_eq_error {w : Word} {e : Fault} (h : s.storeWord w = .error e) :
    96 ≤ s.wrPos.toNat ∧ e = .badIndex .buf := by
  unfold State.storeWord at h
  split at h
  · cases h
  · rename_i e' he; cases h; exact store_eq_error.1 he

theorem wordEnabled_iff :
    s.wordEnabled = true ↔ s.rxState = .running ∧ s.hoPend = false ∧ s.fatal = false := by
  simp [State.wordEnabled, and_assoc]

theorem execPdmword_next {w : Word} (h : execPdmword w s = .next t) :
    t = s ∨ (s.rxState = .running ∧ s.hoPend = false ∧ s.fatal = false ∧
      ((s.rxSdFlag = true ∧ t = { s with rxState := .shuttingDown }) ∨
       (s.rxSdFlag = false ∧ s.wrPos.toNat < 96 ∧ 0 < s.wrPos.toNat ∧
          t = { s.wordTaken w with wrPos := s.wrPos - 1 }) ∨
       (s.rxSdFlag = false ∧ s.wrPos = 0 ∧
          t = { s.wordTaken w with
            wrPos := BitVec.ofNat 8 (s.cfg.BW - 1), fillSel := 1 - s.fillSel }.handoffAttempt s.fillSel))) := by
  unfold execPdmword at h
  split at h
  · obtain ⟨h1, h2, h3⟩ := wordEnabled_iff.1 ‹_›
    refine .inr ⟨h1, h2, h3, ?_⟩
    split at h
    · cases h; exact .inl ⟨‹_›, rfl⟩
    · rename_i hsd
      split at h
      · rename_i u hu
        cases h
        obtain ⟨hw, rfl⟩ := storeWord_eq_ok.1 hu
        refine .inr ?_
        unfold State.advanceWord
        split
        · exact .inl ⟨by simpa using hsd, hw, ‹_›, rfl⟩
        · rename_i hz
          refine .inr ⟨by simpa using hsd, BitVec.eq_of_toNat_eq (Nat.eq_zero_of_not_pos hz), rfl⟩
      · cases h
  · cases h; exact .inl rfl

theorem execHandoff_next (h : execHandoff s = .next t) :
    t = s ∨ (s.hoPend = true ∧ s.fifo.length < 2 ∧ s.fatal = false ∧
      t = { s.push s.hoHalf with hoPend := false }) := by
  unfold execHandoff at h
  cases h
  split
  · rename_i ho
    simp only [State.handoffEnabled, Bool.and_eq_true, Bool.not_eq_true'] at ho
    exact .inr ⟨ho.1.1, of_decide_eq_true ho.1.2, ho.2, rfl⟩
  · exact .inl rfl

theorem execRxexit_next (h : execRxexit s = .next t) :
    t = s ∨ (s.rxState = .shuttingDown ∧ s.fatal = false ∧ t = { s with rxState := .stopped }) := by
  unfold execRxexit at h
  cases h
  split
  · rename_i ho
    simp only [State.exitEnabled, Bool.and_eq_true, beq_iff_eq, Bool.not_eq_true'] at ho
    exact .inr ⟨ho.1, ho.2, rfl⟩
  · exact .inl rfl

/-! ### Consumer -/

theorem at_iff {q : CSeq} : s.at q = true ↔ s.cseq = q ∧ s.fatal = false := by simp [State.at]

theorem execBlkreq_next (h : execBlkreq s = .next t) :
    t = s ∨ (s.cseq = .req ∧ s.fatal = false ∧
      t = { s with credit := if s.cfg.threadMode then s.credit else 1, cseq := .wait }) := by
  unfold execBlkreq at h
  cases h
  split
  · rename_i ho; exact .inr ⟨(at_iff.1 ho).1, (at_iff.1 ho).2, rfl⟩
  · exact .inl rfl

theorem execBlkpop_next (h : execBlkpop s = .next t) :
    t = s ∨ (s.cseq = .wait ∧ s.fatal = false ∧ ∃ k rest, s.fifo = k :: rest ∧
      t = { s with cur := k, fifo := rest, own := s.own.set k .consumer, cseq := .deint }) := by
  unfold execBlkpop at h
  split at h
  · rename_i ho
    split at h <;> cases h
    · exact .inl rfl
    · exact .inr ⟨(at_iff.1 ho).1, (at_iff.1 ho).2, _, _, ‹_›, rfl⟩
  · cases h; exact .inl rfl

theorem execDeint_next (h : execDeint s = .next t) :
    t = s ∨ (s.cseq = .deint ∧ s.fatal = false ∧ ∃ m, deintHalf s.cfg.N_IN s.cfg.D2 s.buf[s.cur] = .ok m ∧
      t = { s with buf := s.buf.set s.cur m, cseq := .chsel }) := by
  unfold execDeint at h
  split at h
  · rename_i ho
    split at h <;> cases h
    exact .inr ⟨(at_iff.1 ho).1, (at_iff.1 ho).2, _, ‹_›, rfl⟩
  · cases h; exact .inl rfl

theorem execChsel_next (h : execChsel s = .next t) :
    t = s ∨ (s.cseq = .chsel ∧ s.fatal = false ∧ ∃ m, selectBlock s.cfg s.buf[s.cur] s.ob = .ok m ∧
      t = { s with ob := m, own := s.own.set s.cur .producer, cseq := .fir }) := by
  unfold execChsel at h
  split at h
  · rename_i ho
    split at h <;> cases h
    exact .inr ⟨(at_iff.1 ho).1, (at_iff.1 ho).2, _, ‹_›, rfl⟩
  · cases h; exact .inl rfl

theorem execDcoe_next (h : execDcoe s = .next t) :
    t = s ∨ (s.cseq = .dcoe ∧ s.fatal = false ∧
      ((s.cfg.dcoeEn = true ∧ t = { s.raiseFlag .dcovf (dcoeColumnOverflows s.cfg.N_OUT s.ch) with
          ch := dcoeColumn s.cfg.N_OUT s.ch, cseq := .frmadd }) ∨
        (s.cfg.dcoeEn = false ∧ t = { s with cseq := .frmadd }))) := by
  unfold execDcoe at h
  split at h
  · rename_i ho
    refine .inr ⟨(at_iff.1 ho).1, (at_iff.1 ho).2, ?_⟩
    split at h <;> cases h
    · exact .inl ⟨‹_›, rfl⟩
    · exact .inr ⟨Bool.eq_false_iff.2 ‹_›, rfl⟩
  · cases h; exact .inl rfl

theorem execFrmadd_next (h : execFrmadd s = .next t) :
    t = s ∨ (s.cseq = .frmadd ∧ s.fatal = false ∧ ∃ m, forRange s.cfg.N_OUT (addSample s) s.frm = .ok m ∧
      ((s.frmCol.toNat = s.cfg.SPF - 1 ∧ t = { s with frm := m, frmCol := 0, cseq := .frmtx }) ∨
        (s.frmCol.toNat ≠ s.cfg.SPF - 1 ∧
          t = { s with frm := m, frmCol := s.frmCol + 1, cseq := .req }))) := by
  unfold execFrmadd at h
  split at h
  · rename_i ho
    refine .inr ⟨(at_iff.1 ho).1, (at_iff.1 ho).2, ?_⟩
    split at h
    · cases h
    · rename_i m hm
      refine ⟨m, hm, ?_⟩
      split at h <;> cases h
      · exact .inl ⟨‹_›, rfl⟩
      · exact .inr ⟨‹_›, rfl⟩
  · cases h; exact .inl rfl

theorem execFrmtx_next (h : execFrmtx s = .next t) :
    t = s ∨ (s.cseq = .frmtx ∧ s.fatal = false ∧
      ((s.hostPend = .shutdown ∧ t = { s with cseq := .unwind }.exchange [.eom, .sdack]) ∨
        ∃ ws wt, frameWords s = .ok ws ∧
          ((s.hostPend = .rxframe ∧ wt = ws) ∨
            (s.hostPend = .rxframet ∧ frameWordsTransposed s = .ok wt)) ∧ t = s.deliver ws wt)) := by
  unfold execFrmtx at h
  split at h
  · rename_i ho
    obtain ⟨h1, h2⟩ := at_iff.1 ho
    cases hp : s.hostPend <;> simp only [hp] at h
    · cases h; exact .inl rfl
    · split at h <;> cases h
      exact .inr ⟨h1, h2, .inr ⟨_, _, ‹_›, .inl ⟨rfl, rfl⟩, rfl⟩⟩
    · split at h <;> cases h
      exact .inr ⟨h1, h2, .inr ⟨_, _, ‹_›, .inr ⟨rfl, ‹_›⟩, rfl⟩⟩
    · cases h; exact .inr ⟨h1, h2, .inl ⟨rfl, rfl⟩⟩
  · cases h; exact .inl rfl

theorem execUnwind_next (h : execUnwind s = .next t) :
    t = s ∨ (s.cseq = .unwind ∧ s.fatal = false ∧ t = { s with rxSdFlag := true, cseq := .drain }) := by
  unfold execUnwind at h
  cases h
  split
  · rename_i ho; exact .inr ⟨(at_iff.1 ho).1, (at_iff.1 ho).2, rfl⟩
  · exact .inl rfl

theorem execDrain_next (h : execDrain s = .next t) :
    t = s ∨ (s.cseq = .drain ∧ s.fatal = false ∧
      ((∃ k rest, s.fifo = k :: rest ∧ t = { s with fifo := rest, own := s.own.set k .producer }) ∨
        (s.fifo = [] ∧ s.rxState = .stopped ∧ s.hoPend = false ∧
          t = ({ s with hostPend := .none, cseq := .off }.exchange [.eom]).giveBack .shutdownDone))) := by
  unfold execDrain at h
  split at h
  · rename_i ho
    simp only [State.drainEnabled, Bool.and_eq_true, Bool.or_eq_true, Bool.not_eq_true', beq_iff_eq] at ho
    refine .inr ⟨(at_iff.1 ho.1).1, (at_iff.1 ho.1).2, ?_⟩
    split at h <;> cases h
    · exact .inl ⟨_, _, ‹_›, rfl⟩
    · rename_i hq
      rcases ho.2 with hn | ⟨h1, h2⟩
      · simp [hq] at hn
      · exact .inr ⟨hq, h1, h2, rfl⟩
  · cases h; exact .inl rfl

/-! ### The filters -/

theorem unitEnabled_iff :
    s.unitEnabled = true ↔ (s.rxState = .armed ∨ s.rxState = .running) ∧ s.fatal = false := by
  simp [State.unitEnabled]

theorem execS1step_next {a : BitVec 8} {w : Word} (h : execS1step a w s = .next t) :
    t = s ∨ ((s.rxState = .armed ∨ s.rxState = .running) ∧ s.fatal = false ∧ ∃ (c : Fin 16) (v : Vector Word 8)
      (y : Word), s1Step s.coef1 w s.ch[c].h1 = .ok (v, y) ∧
      t = { s with ch := s.ch.set c { s.ch[c] with h1 := v } }.giveBack (.sample (some y))) := by
  unfold execS1step at h
  split at h
  · cases h
  · rename_i c hc
    split at h
    · obtain ⟨h1, h2⟩ := unitEnabled_iff.1 ‹_›
      split at h <;> cases h
      exact .inr ⟨h1, h2, c, _, _, ‹_›, rfl⟩
    · cases h; exact .inl rfl

theorem execS2step_next {a : BitVec 8} {x : Word} (h : execS2step a x s = .next t) :
    t = s ∨ ((s.rxState = .armed ∨ s.rxState = .running) ∧ s.fatal = false ∧ ∃ (c : Fin 16) (o : FirOut),
      s.stage2 x s.ch[c].st2 = .ok o ∧
      t = ({ s with ch := s.ch.set c { s.ch[c] with st2 := o.st } }.raiseFlag .s2sat o.sat).giveBack
        (.sample o.out)) := by
  unfold execS2step at h
  split at h
  · cases h
  · rename_i c hc
    split at h
    · obtain ⟨h1, h2⟩ := unitEnabled_iff.1 ‹_›
      split at h <;> cases h
      exact .inr ⟨h1, h2, c, _, ‹_›, rfl⟩
    · cases h; exact .inl rfl

theorem execS3step_next {a : BitVec 8} {x : Word} (h : execS3step a x s = .next t) :
    t = s ∨ ((s.rxState = .armed ∨ s.rxState = .running) ∧ s.fatal = false ∧ s.cfg.nStages = 3 ∧
      ∃ (c : Fin 16) (o : FirOut), s.stage3 x s.ch[c].st3 = .ok o ∧
      t = ({ s with ch := s.ch.set c { s.ch[c] with st3 := o.st } }.raiseFlag .s3sat o.sat).giveBack
        (.sample o.out)) := by
  unfold execS3step at h
  split at h
  · cases h
  · rename_i c hc
    split at h
    · rename_i hu
      rw [Bool.and_eq_true, beq_iff_eq] at hu
      obtain ⟨h1, h2⟩ := unitEnabled_iff.1 hu.1
      split at h <;> cases h
      exact .inr ⟨h1, h2, hu.2, c, _, ‹_›, rfl⟩
    · cases h; exact .inl rfl

/-- What the loop over the channels leaves alone: everything but the channels and the two saturation
flags. -/
def BlockFrame (s u : State) : Prop :=
  u = { s with ch := u.ch, status := u.status } ∧ s.status &&& u.status = s.status ∧
    u.status &&& 0b10011#5 = s.status &&& 0b10011#5

theorem BlockFrame.refl (s : State) : BlockFrame s s := ⟨rfl, BitVec.and_self, rfl⟩

theorem BlockFrame.setCh {u : State} (h : BlockFrame s u) (v : Vector Channel 16) :
    BlockFrame s { u with ch := v } := by
  obtain ⟨h1, h2, h3⟩ := h
  exact ⟨by rw [h1], h2, h3⟩

theorem status_or_facts (x y : BitVec 5) :
    (x &&& y = x → x &&& (y ||| 4#5) = x ∧ x &&& (y ||| 8#5) = x) ∧
    (y &&& 0b10011#5 = x &&& 0b10011#5 → (y ||| 4#5) &&& 0b10011#5 = x &&& 0b10011#5 ∧
      (y ||| 8#5) &&& 0b10011#5 = x &&& 0b10011#5) := by
  revert x y; decide +kernel

theorem BlockFrame.raise {u : State} (h : BlockFrame s u) {f : Flag} (hf : f = .s2sat ∨ f = .s3sat)
    (on : Bool) : BlockFrame s (u.raiseFlag f on) := by
  obtain ⟨h1, h2, h3⟩ := h
  have key := status_or_facts s.status u.status
  refine ⟨by rw [h1]; rfl, ?_, ?_⟩ <;>
  · rcases hf with rfl | rfl <;> cases on <;>
      simp only [State.raiseFlag_status, Bool.false_eq_true, if_false, if_true, Flag.bit] <;>
      first | assumption | exact (key.1 h2).1 | exact (key.1 h2).2 | exact (key.2 h3).1 | exact (key.2 h3).2

theorem blockTail_frame {b b' : BlockOut} {c : Fin 16} {ch : Channel} {y : Word}
    (hb : BlockFrame s b.st) (h : blockTail b c ch y = .ok b') : BlockFrame s b'.st := by
  unfold blockTail at h
  split at h
  · cases h; exact hb.setCh _
  · split at h <;> cases h
    exact (hb.setCh _).raise (.inr rfl) _

theorem blockChannel_frame {b b' : BlockOut} {c : Nat} (hb : BlockFrame s b.st)
    (h : blockChannel c b = .ok b') : BlockFrame s b'.st := by
  unfold blockChannel at h
  split at h
  · cases h
  · split at h
    · cases h
    · exact blockTail_frame (by exact hb.raise (.inl rfl) _) h

theorem execFirblk_next (h : execFirblk s = .next t) :
    t = s ∨ (s.cseq = .fir ∧ s.fatal = false ∧ ∃ b : BlockOut,
      forRange s.cfg.N_OUT blockChannel { st := s, valid := false } = .ok b ∧ BlockFrame s b.st ∧
      t = { s with
        ch := b.st.ch, status := b.st.status, smpValid := b.valid,
        cseq := if b.valid then .dcoe else .req, freeTick := s.freeTick + 1 }) := by
  unfold execFirblk at h
  split at h
  · rename_i ho
    split at h <;> cases h
    rename_i b hb
    have hf : BlockFrame s b.st := forRange_ok_ind (fun _ (b : BlockOut) => BlockFrame s b.st) hb
      (BlockFrame.refl s) fun i a b _ ha h => blockChannel_frame ha h
    refine .inr ⟨(at_iff.1 ho).1, (at_iff.1 ho).2, b, hb, hf, ?_⟩
    rw [hf.1]
  · cases h; exact .inl rfl

end Sys2Proof.Machine
end

