-- ==== Sys2Proof/Laws/Block.lean ====
section
/-! SUPPORT. What FIRBLK does to one channel (46_control_sequencer.md R300), in the terms of Safety.lean. -/

namespace Sys2Proof.Machine

/-- What the loops of FIRBLK need of a state, whatever the channels hold so far. -/
structure BlockReady (s : State) : Prop where
  legal : LegalCfg s.cfg
  block : Written s.ob s.cfg.OBW
  coef : CoefficientsWritten s
  ph2 : ∀ c : Fin 16, s.ch[c].st2.ph.toNat < s.cfg.D2
  ph3 : s.cfg.nStages.toNat = 3 → ∀ c : Fin 16, s.ch[c].st3.ph.toNat < s.cfg.D3

/-- The numeric content of a legal configuration that the filters use. -/
theorem LegalCfg.stages {g : CfgRegs} (h : LegalCfg g) :
    (g.nIn.toNat ∈ [1, 2, 4, 8, 16] ∧ 1 ≤ g.N_OUT ∧ g.N_OUT ≤ g.N_IN) ∧ g.nStages.toNat ∈ [2, 3] ∧
    g.D2 ∈ [2, 3, 6] ∧ (1 ≤ g.T2 ∧ g.T2 ≤ 256) ∧
    (g.nStages.toNat = 3 → g.D3 ∈ [2, 3, 6] ∧ 1 ≤ g.T3 ∧ g.T3 ≤ 256) := by
  unfold LegalCfg initConditions at h
  simp only [List.forall_mem_cons] at h
  obtain ⟨h1, h2, -, h4, h5, h6, -, h8, h9, -⟩ := h
  exact ⟨⟨h1, h2⟩, h4, h5, h6.1, fun h3 => ⟨h8 h3, (h9 h3).1⟩⟩

theorem BlockReady.bounds {s : State} (h : BlockReady s) :
    1 ≤ s.cfg.N_OUT ∧ s.cfg.N_OUT ≤ 16 ∧ (s.cfg.D2 = 2 ∨ s.cfg.D2 = 3 ∨ s.cfg.D2 = 6) := by
  obtain ⟨⟨h1, h2, h3⟩, -, h5, -⟩ := h.legal.stages
  simp only [List.mem_cons, List.not_mem_nil, or_false] at h1 h5
  unfold CfgRegs.N_IN at h3
  exact ⟨h2, by omega, h5⟩

/-- The Stage-2 step is defined at every phase in range. -/
theorem BlockReady.fir2 {s : State} (h : BlockReady s) {f : FirState} (hf : f.ph.toNat < s.cfg.D2) :
    FirReady s.coef2 s.cfg.s2.params f := by
  obtain ⟨-, -, h5, h6, -⟩ := h.legal.stages
  simp only [List.mem_cons, List.not_mem_nil, or_false] at h5
  exact ⟨h5, h6.1, h6.2, h.coef.2.1, hf⟩

theorem BlockReady.fir3 {s : State} (h : BlockReady s) (h3 : s.cfg.nStages.toNat = 3) (c : Fin 16) :
    FirReady s.coef3 s.cfg.s3.params s.ch[c].st3 := by
  obtain ⟨-, -, -, -, h5⟩ := h.legal.stages
  obtain ⟨h5, h6⟩ := h5 h3
  simp only [List.mem_cons, List.not_mem_nil, or_false] at h5
  exact ⟨h5, h6.1, h6.2, h.coef.2.2 h3, h.ph3 h3 c⟩

/-- One pass of the inner loop. -/
theorem blockPass_ok {s : State} (h : BlockReady s) {c : Fin 16} (hc : c.val < s.cfg.N_OUT) {k : Nat}
    (hk : k < s.cfg.D2) {a : BlockAcc} (ha : a.ch.st2.ph.toNat < s.cfg.D2) :
    ∃ (w y1 : Word) (o : FirOut),
      blockPass s c k a = .ok
        { ch := { a.ch with h1 := pushHist w a.ch.h1, st2 := o.st }, y2 := o.out, sat := a.sat || o.sat } ∧
      s.ob.read (c.val * s.cfg.D2 + (s.cfg.D2 - 1 - k)) = some w ∧
      y1.toInt = dotSum (pushHist w a.ch.h1) s.coef1 ∧
      FirStepped s.coef2 s.cfg.s2.params y1 a.ch.st2 o.st o.out o.sat ∧ o.st.ph.toNat < s.cfg.D2 := by
  obtain ⟨hb1, hb2, hd⟩ := h.bounds
  have hlt : c.val * s.cfg.D2 + (s.cfg.D2 - 1 - k) < s.cfg.OBW := by
    have : (c.val + 1) * s.cfg.D2 ≤ s.cfg.N_OUT * s.cfg.D2 := Nat.mul_le_mul_right _ hc
    rw [Nat.succ_mul] at this
    unfold CfgRegs.OBW
    omega
  have hcap : s.cfg.OBW ≤ 96 := by
    have : s.cfg.N_OUT * s.cfg.D2 ≤ 16 * 6 := Nat.mul_le_mul hb2 (by omega)
    unfold CfgRegs.OBW; omega
  obtain ⟨w, hw⟩ := Option.isSome_iff_exists.1 (h.block _ hlt)
  obtain ⟨y1, h1, hy⟩ := s1Step_ok h.coef.1 w a.ch.h1
  obtain ⟨o, ho, hs, hp⟩ := firStep_ok (sp := .coef2) (h.fir2 ha) y1
  refine ⟨w, y1, o, ?_, hw, hy, hs, hp⟩
  have hload : load .ob Config.bufWords s.ob (c.val * s.cfg.D2 + (s.cfg.D2 - 1 - k)) = .ok w :=
    load_eq_ok.2 ⟨by unfold Config.bufWords; omega, hw⟩
  simp only [blockPass, hload, h1, State.stage2, ho]

/-- The phase of a stage after `k` steps. -/
theorem phase_after {m : Memory} {p : FirParams} {x : Nat → Word} {st : Nat → FirState}
    {out : Nat → Option Word} {sat : Nat → Bool} {n : Nat} (h0 : (st 0).ph.toNat < p.dec)
    (hs : ∀ k < n, FirStepped m p (x k) (st k) (st (k + 1)) (out k) (sat k)) (k : Nat) (hk : k ≤ n) :
    (st k).ph.toNat = ((st 0).ph.toNat + k) % p.dec := by
  induction k with
  | zero => rw [Nat.add_zero, Nat.mod_eq_of_lt h0]
  | succ k ih =>
    have ih := ih (by omega)
    have hlt : (st k).ph.toNat < p.dec := by rw [ih]; exact Nat.mod_lt _ (by omega)
    rw [← Nat.add_assoc, Nat.add_mod, ← ih]
    rcases Nat.lt_or_ge ((st k).ph.toNat + 1) p.dec with hl | hg
    · rw [((hs k (by omega)).between hl).2.1]
      rw [Nat.mod_eq_of_lt (a := 1) (by omega), Nat.mod_eq_of_lt hl]
    · have he : (st k).ph.toNat + 1 = p.dec := by omega
      rw [((hs k (by omega)).output he).2.1]
      rcases Nat.lt_or_ge 1 p.dec with h1 | h1
      · rw [Nat.mod_eq_of_lt h1, he, Nat.mod_self]; rfl
      · have : p.dec = 1 := by omega
        rw [this, Nat.mod_one]; rfl

/-- The inner loop of FIRBLK over channel `c`. -/
theorem blockPasses_ok {s : State} (h : BlockReady s) {c : Fin 16} (hc : c.val < s.cfg.N_OUT) :
    ∃ (a : BlockAcc) (hist : Nat → Vector Word 8) (st : Nat → FirState) (out : Nat → Option Word)
      (sat : Nat → Bool),
      forRange s.cfg.D2 (blockPass s c) { ch := s.ch[c], y2 := none, sat := false } = .ok a ∧
      BlockPasses s c hist st out sat ∧
      a.ch = { s.ch[c] with h1 := hist s.cfg.D2, st2 := st s.cfg.D2 } ∧ a.y2 = out (s.cfg.D2 - 1) ∧
      (a.sat = true ↔ ∃ k < s.cfg.D2, sat k = true) := by
  have hd := h.bounds.2.2
  have hA : ∀ n ≤ s.cfg.D2, ∃ a, forRange n (blockPass s c) { ch := s.ch[c], y2 := none, sat := false } = .ok a ∧
      a.ch.st2.ph.toNat < s.cfg.D2 := fun n hn =>
    forRange_ok_of (fun _ (a : BlockAcc) => a.ch.st2.ph.toNat < s.cfg.D2) n (h.ph2 c) fun i a hi ha => by
      obtain ⟨w, y1, o, h1, -, -, -, h5⟩ := blockPass_ok h hc (by omega : i < s.cfg.D2) ha
      exact ⟨_, h1, h5⟩
  choose A hA hph using hA
  have hstep : ∀ k (hk : k < s.cfg.D2), ∃ (w y1 : Word) (o : FirOut),
      A (k + 1) hk =
        { ch := { (A k hk.le).ch with h1 := pushHist w (A k hk.le).ch.h1, st2 := o.st },
          y2 := o.out, sat := (A k hk.le).sat || o.sat } ∧
      s.ob.read (c.val * s.cfg.D2 + (s.cfg.D2 - 1 - k)) = some w ∧
      y1.toInt = dotSum (pushHist w (A k hk.le).ch.h1) s.coef1 ∧
      FirStepped s.coef2 s.cfg.s2.params y1 (A k hk.le).ch.st2 o.st o.out o.sat := fun k hk => by
    obtain ⟨w, y1, o, h1, h2, h3, h4, -⟩ := blockPass_ok h hc hk (hph k hk.le)
    refine ⟨w, y1, o, ?_, h2, h3, h4⟩
    have := hA (k + 1) hk
    simp only [forRange, hA k hk.le, h1, Except.ok.injEq] at this
    exact this.symm
  choose w y1 o hs hr hy hf using hstep
  have h0 : A 0 (Nat.zero_le _) = { ch := s.ch[c], y2 := none, sat := false } := by
    have := hA 0 (Nat.zero_le _)
    simp only [forRange, Except.ok.injEq] at this
    exact this.symm
  let B : Nat → BlockAcc := fun k => if hk : k ≤ s.cfg.D2 then A k hk else A 0 (Nat.zero_le _)
  let sat : Nat → Bool := fun k => if hk : k < s.cfg.D2 then (o k hk).sat else false
  have hB : ∀ k (hk : k ≤ s.cfg.D2), B k = A k hk := fun k hk => dif_pos hk
  have hsat : ∀ k (hk : k < s.cfg.D2), sat k = (o k hk).sat := fun k hk => dif_pos hk
  have hrest : ∀ k ≤ s.cfg.D2, (B k).ch = { s.ch[c] with h1 := (B k).ch.h1, st2 := (B k).ch.st2 } ∧
      ((B k).sat = true ↔ ∃ j < k, sat j = true) := fun k hk => by
    induction k with
    | zero => rw [hB 0 hk, h0]; simp
    | succ k ih =>
      obtain ⟨i1, i2⟩ := ih (by omega)
      have hk' : k < s.cfg.D2 := hk
      rw [hB k hk'.le] at i1 i2
      rw [hB (k + 1) hk, hs k hk']
      refine ⟨by simp only; rw [i1], ?_⟩
      simp only [Bool.or_eq_true, i2, ← hsat k hk']
      constructor
      · rintro (⟨j, hj, hjs⟩ | hjs)
        · exact ⟨j, by omega, hjs⟩
        · exact ⟨k, by omega, hjs⟩
      · rintro ⟨j, hj, hjs⟩
        rcases Nat.lt_or_ge j k with hl | hg
        · exact .inl ⟨j, hl, hjs⟩
        · rw [show j = k by omega] at hjs; exact .inr hjs
  refine ⟨B s.cfg.D2, fun k => (B k).ch.h1, fun k => (B k).ch.st2, fun k => (B (k + 1)).y2, sat,
    by rw [hB _ le_rfl]; exact hA _ le_rfl, ⟨?_, fun k hk => ?_⟩, (hrest _ le_rfl).1, ?_, (hrest _ le_rfl).2⟩
  · simp only [hB 0 (Nat.zero_le _), h0, and_self]
  · refine ⟨w k hk, y1 k hk, hr k hk, ?_, ?_, ?_⟩
    · simp only [hB k hk.le, hB (k + 1) hk, hs k hk]
    · simp only [hB (k + 1) hk, hs k hk]; exact hy k hk
    · simp only [hB k hk.le, hB (k + 1) hk, hs k hk, hsat k hk]; exact hf k hk
  · simp only; rw [Nat.sub_add_cancel (by omega)]

/-- The phase is back where it was after `D2` passes; from phase 0 the last pass emits (42_stage23.md R180). -/
theorem BlockPasses.phase {s : State} (h : BlockReady s) {c : Fin 16} {hist : Nat → Vector Word 8}
    {st : Nat → FirState} {out : Nat → Option Word} {sat : Nat → Bool} (hp : BlockPasses s c hist st out sat) :
    (st s.cfg.D2).ph = s.ch[c].st2.ph ∧
    (s.ch[c].st2.ph = 0 → ∃ y, out (s.cfg.D2 - 1) = some y) := by
  have hd := h.bounds.2.2
  have hph := h.ph2 c
  obtain ⟨⟨-, h0⟩, hpass⟩ := hp
  choose w y1 h1 h2 h3 hf using hpass
  let x : Nat → Word := fun k => if hk : k < s.cfg.D2 then y1 k hk else 0
  have hs : ∀ k < s.cfg.D2, FirStepped s.coef2 s.cfg.s2.params (x k) (st k) (st (k + 1)) (out k) (sat k) :=
    fun k hk => by simp only [x, dif_pos hk]; exact hf k hk
  have hk := phase_after (by rw [h0]; exact hph) hs
  rw [h0] at hk
  have hdec : s.cfg.s2.params.dec = s.cfg.D2 := rfl
  rw [hdec] at hk
  constructor
  · apply BitVec.eq_of_toNat_eq
    rw [hk _ le_rfl, Nat.add_mod_right, Nat.mod_eq_of_lt hph]
  · intro hz
    have := hk (s.cfg.D2 - 1) (by omega)
    rw [hz] at this
    simp only [BitVec.ofNat_eq_ofNat, BitVec.toNat_ofNat, Nat.zero_mod, Nat.zero_add] at this
    rw [Nat.mod_eq_of_lt (by omega)] at this
    obtain ⟨-, -, z, -, hz, -⟩ := (hs (s.cfg.D2 - 1) (by omega)).output (by rw [hdec]; omega)
    exact ⟨_, hz⟩

/-- The whole of FIRBLK for one channel: it goes on, the channel is filtered, the flags and `v` take what the
channel's outputs say, and nothing else changes. -/
theorem blockChannel_ok {s : State} (h : BlockReady s) {c : Fin 16} (hc : c.val < s.cfg.N_OUT) (v : Bool) :
    ∃ (ch' : Channel) (cl2 cl3 : Bool),
      blockChannel c { st := s, valid := v } =
        .ok { st := ({ s with ch := s.ch.set c ch' }.raiseFlag .s2sat cl2).raiseFlag .s3sat cl3,
              valid := v || (s.cfg.nStages.toNat == 2) || (s.ch[c].st3.ph.toNat + 1 == s.cfg.D3) } ∧
      ChannelFiltered s c ch' cl2 cl3 := by
  obtain ⟨a, hist, st, out, sat, ha, hp, hch, hy, hsat⟩ := blockPasses_ok h hc
  obtain ⟨hph, hout⟩ := hp.phase h
  have hidx : channelIndex c.val = .ok c := channelIndex_eq_ok.2 rfl
  have hst := h.legal.stages.2.1
  simp only [List.mem_cons, List.not_mem_nil, or_false] at hst
  have hout' : s.ch[c].st2.ph = 0 →
      out (s.cfg.D2 - 1) = some ((out (s.cfg.D2 - 1)).getD (Config.freeSample s.freeTick c)) := fun hz => by
    obtain ⟨y, hy⟩ := hout hz; rw [hy]; rfl
  rcases hst with h2 | h3
  · have hb : (s.cfg.nStages == 2) = true := by
      rw [beq_iff_eq]; exact BitVec.eq_of_toNat_eq (by rw [h2]; rfl)
    refine ⟨{ a.ch with smp := a.y2.getD (Config.freeSample s.freeTick c) }, a.sat, false, ?_,
      hist, st, out, sat, _, hp, rfl, hout', hsat, ?_⟩
    · simp only [blockChannel, hidx, ha, blockTail, State.raiseFlag_cfg, hb, if_true, h2]
      simp [State.raiseFlag]
    · rw [hch, hy]
      exact ⟨rfl, rfl, hph, rfl, rfl, fun _ => ⟨rfl, rfl, rfl⟩, fun h3 => by omega⟩
  · have hb : (s.cfg.nStages == 2) = false := by
      rw [beq_eq_false_iff_ne]; intro he; rw [he] at h3; exact absurd h3 (by decide)
    obtain ⟨o, ho, hs3, -⟩ := firStep_ok (sp := .coef3) (h.fir3 h3 c)
      ((out (s.cfg.D2 - 1)).getD (Config.freeSample s.freeTick c))
    have hv : o.out.isSome = (s.ch[c].st3.ph.toNat + 1 == s.cfg.D3) := by
      have hlt := h.ph3 h3 c
      have hdec : s.cfg.s3.params.dec = s.cfg.D3 := rfl
      rcases Nat.lt_or_ge (s.ch[c].st3.ph.toNat + 1) s.cfg.D3 with hl | hg
      · rw [(hs3.between (by rw [hdec]; exact hl)).2.2.1]
        exact (beq_eq_false_iff_ne.2 (by omega)).symm
      · obtain ⟨-, -, z, -, hz, -⟩ := hs3.output (by rw [hdec]; omega)
        rw [hz]
        exact (beq_iff_eq.2 (by omega)).symm
    refine ⟨{ a.ch with st3 := o.st, smp := o.out.getD s.ch[c].smp }, a.sat, o.sat, ?_,
      hist, st, out, sat, _, hp, rfl, hout', hsat, ?_⟩
    · have ho' : firStep .coef3 s.coef3 s.cfg.s3.params (a.y2.getD (Config.freeSample s.freeTick c))
          a.ch.st3 = .ok o := by rw [hy, hch]; exact ho
      have h2 : (s.cfg.nStages.toNat == 2) = false := by rw [h3]; rfl
      simp only [blockChannel, hidx, ha, blockTail, State.raiseFlag_cfg, hb, Bool.false_eq_true, if_false,
        State.stage3, State.raiseFlag_coef3, State.raiseFlag_freeTick, ho', hv, h2, Bool.or_false]
      rw [hch]
      rfl
    · rw [hch]
      exact ⟨rfl, rfl, hph, rfl, rfl, fun h2 => by omega, fun _ => ⟨o.out, hs3, rfl⟩⟩

end Sys2Proof.Machine
end

