-- ==== Sys2Proof/Laws/Deadline.lean ====
section
/-! SUPPORT. The real-time duty of 70_reset_and_hazards.md R371: a schedule that meets its premise loses no
block. One operation keeps `OnTime`; a run is the iteration. -/

namespace Sys2Proof.Machine

variable {s t : State} {ready : Bool}

/-- The flow-control registers are the same, `CSEQ` apart. -/
structure SameFlow (s t : State) : Prop where
  rxState : t.rxState = s.rxState
  fillSel : t.fillSel = s.fillSel
  cur : t.cur = s.cur
  credit : t.credit = s.credit
  fifo : t.fifo = s.fifo
  own : t.own = s.own
  hoPend : t.hoPend = s.hoPend
  dropCount : t.dropCount = s.dropCount
  cfg : t.cfg = s.cfg
  fatal : t.fatal = s.fatal
  overrun : t.flag .overrun = s.flag .overrun

theorem OnTime.nothingLost (h : OnTime ready s) : NothingLost s where
  notStopped := h.kept.1
  noneDropped := h.kept.2.1
  noOverrun := h.kept.2.2.1
  notBlocked := h.kept.2.2.2
  level := by rcases h.queued with e | ⟨e, -⟩ <;> simp [e]
  ownHalf := by
    by_contra hc
    rcases h.tags _ hc with hm | ⟨he, hq⟩
    · rcases h.queued with e | ⟨e, -⟩
      · simp [e] at hm
      · rw [e, List.mem_singleton] at hm; exact other_half_ne _ hm.symm
    · exact h.held hq he.symm

/-- Away from `C_WAIT` the FIFO is empty. -/
theorem OnTime.empty (h : OnTime ready s) (hq : s.cseq ≠ .wait) : s.fifo = [] :=
  h.queued.resolve_right fun e => hq e.2

theorem OnTime.same (h : OnTime ready s) (f : SameFlow s t) (e : t.cseq = s.cseq) : OnTime ready t where
  kept := by
    have := h.kept
    simpa only [Reliable, f.fatal, f.dropCount, f.overrun, f.hoPend] using this
  queued := by simpa only [f.fifo, f.fillSel, e] using h.queued
  held := by simpa only [f.cur, f.fillSel, e] using h.held
  tags := by simpa only [f.own, f.fifo, f.cur, e] using h.tags
  heard := by simpa only [f.rxState, f.fifo, f.cfg, f.credit, e] using h.heard
  armed := by simpa only [f.rxState, e] using h.armed

/-- The consumer moves from a place other than `C_WAIT` and `C_OFF`, neither taking nor giving up a half. -/
theorem OnTime.move (h : OnTime ready s) (f : SameFlow s t) (h1 : s.cseq ≠ .wait) (h2 : s.cseq ≠ .off)
    (h3 : t.cseq = .deint ∨ t.cseq = .chsel ↔ s.cseq = .deint ∨ s.cseq = .chsel) : OnTime ready t where
  kept := by
    have := h.kept
    simpa only [Reliable, f.fatal, f.dropCount, f.overrun, f.hoPend] using this
  queued := .inl (f.fifo.trans (h.empty h1))
  held := by simpa only [f.cur, f.fillSel, h3] using h.held
  tags := by simpa only [f.own, f.fifo, f.cur, h3] using h.tags
  heard := fun hr ha => absurd (h.heard hr (by rwa [← f.rxState])).1 h1
  armed := fun ha => absurd (h.armed (by rwa [← f.rxState])) h2

theorem OnTime.afterInit (hf : s.fatal = false) (ready : Bool) : OnTime ready s.afterInit where
  kept := by
    refine ⟨?_, rfl, ?_, rfl⟩
    · simpa [State.fatal, State.flag, Flag.bit] using hf
    · simp [Reliable, State.flag, Flag.bit]
  queued := .inl rfl
  held := by rintro (h | h) <;> cases h
  tags := fun h hh => absurd (by simp) hh
  heard := fun _ h => absurd rfl h
  armed := fun _ => rfl

theorem OnTime.started (h : OnTime ready s) (ha : s.rxState = .armed) :
    OnTime false { s with rxState := .running, cseq := .req } where
  kept := h.kept
  queued := .inl (h.empty (by rw [h.armed ha]; decide))
  held := by rintro (h | h) <;> cases h
  tags := fun k hk => by
    rcases h.tags k hk with hm | ⟨-, hq⟩
    · exact .inl hm
    · rw [h.armed ha] at hq; rcases hq with hq | hq <;> cases hq
  heard := fun hr => by cases hr
  armed := fun hr => by cases hr

/-- BLKREQ: the consumer reaches `C_WAIT`. -/
theorem OnTime.requested (h : OnTime ready s) (hq : s.cseq = .req) :
    OnTime true { s with credit := if s.cfg.threadMode then s.credit else 1, cseq := .wait } where
  kept := h.kept
  queued := .inl (h.empty (by rw [hq]; decide))
  held := by rintro (h | h) <;> cases h
  tags := fun k hk => by
    rcases h.tags k hk with hm | ⟨-, hc⟩
    · exact .inl hm
    · rw [hq] at hc; rcases hc with hc | hc <;> cases hc
  heard := fun _ _ => ⟨rfl, h.empty (by rw [hq]; decide), fun hm => by
    show 0 < (if s.cfg.threadMode = true then s.credit else 1).toNat
    rw [if_neg (by rw [show s.cfg.threadMode = false from hm]; decide)]; decide⟩
  armed := fun ha => by have := h.armed ha; rw [hq] at this; cases this

theorem OnTime.popped (h : OnTime ready s) (hq : s.cseq = .wait) {k : Half} {rest : List Half}
    (hk : s.fifo = k :: rest) :
    OnTime ready { s with cur := k, fifo := rest, own := s.own.set k .consumer, cseq := .deint } := by
  have he : k = 1 - s.fillSel ∧ rest = [] := by
    rcases h.queued with e | ⟨e, -⟩
    · rw [e] at hk; cases hk
    · rw [e] at hk; cases hk; exact ⟨rfl, rfl⟩
  have hn : ready = true → s.rxState ≠ .armed → False := fun h1 h2 => by
    have := (h.heard h1 h2).2.1; rw [hk] at this; cases this
  refine ⟨h.kept, .inl he.2, fun _ => ?_, fun j hj => ?_, fun h1 h2 => absurd (hn h1 h2) id, fun ha => ?_⟩
  · show k ≠ s.fillSel
    rw [he.1]; exact other_half_ne _
  · by_cases hjk : j = k
    · exact .inr ⟨hjk, .inl rfl⟩
    · have hj' : s.own[j] ≠ .producer := by
        simpa only [getElem_set_fin_ne _ _ hjk] using hj
      rcases h.tags j hj' with hm | ⟨-, hc⟩
      · rw [hk, he.2, List.mem_singleton] at hm; exact absurd hm hjk
      · rw [hq] at hc; rcases hc with hc | hc <;> cases hc
  · have := h.armed ha; rw [hq] at this; cases this

theorem OnTime.released (h : OnTime ready s) (hq : s.cseq = .chsel) (m : Memory) :
    OnTime ready { s with ob := m, own := s.own.set s.cur .producer, cseq := .fir } where
  kept := h.kept
  queued := .inl (h.empty (by rw [hq]; decide))
  held := by rintro (h | h) <;> cases h
  tags := fun j hj => by
    by_cases hjc : j = s.cur
    · subst hjc; exact absurd (by rw [getElem_set_fin, if_pos rfl]) hj
    · have hj' : s.own[j] ≠ .producer := by
        simpa only [getElem_set_fin_ne _ _ hjc] using hj
      rcases h.tags j hj' with hm | ⟨e, -⟩
      · exact .inl hm
      · exact absurd e hjc
  heard := fun h1 h2 => by have := (h.heard h1 h2).1; rw [hq] at this; cases this
  armed := fun ha => by have := h.armed ha; rw [hq] at this; cases this

theorem overrun_wordTaken (s : State) (w : Word) :
    (s.wordTaken w).flag .overrun = (s.flag .overrun || s.own[s.fillSel] != .producer) := by
  have : (s.wordTaken w).flag .overrun =
    (s.raiseFlag .overrun (s.own[s.fillSel] != .producer)).flag .overrun := rfl
  rw [this]; simp

theorem fatal_wordTaken (s : State) (w : Word) : (s.wordTaken w).fatal = s.fatal := by
  have : (s.wordTaken w).fatal = (s.raiseFlag .overrun (s.own[s.fillSel] != .producer)).fatal := rfl
  rw [this]; simp [State.fatal]

/-- A word that does not complete a block. -/
theorem OnTime.word (h : OnTime ready s) (w : Word) :
    OnTime ready { s.wordTaken w with wrPos := s.wrPos - 1 } := by
  refine h.same ⟨rfl, rfl, rfl, rfl, rfl, rfl, rfl, rfl, rfl, fatal_wordTaken s w, ?_⟩ rfl
  refine (overrun_wordTaken s w).trans ?_
  rw [h.nothingLost.ownHalf]; simp

/-- A word that completes a block, the consumer in `C_WAIT`: the block is queued. -/
theorem OnTime.completed (h : OnTime true s) (hr : s.rxState = .running) (w : Word) (p : BitVec 8) :
    OnTime false ({ s.wordTaken w with wrPos := p, fillSel := 1 - s.fillSel }.handoffAttempt s.fillSel) := by
  obtain ⟨hw, hf, hc⟩ := h.heard rfl (by rw [hr]; decide)
  have hown : s.own[s.fillSel] = .producer := h.nothingLost.ownHalf
  have key : ∀ c : BitVec 2, OnTime false
      { ({ s.wordTaken w with wrPos := p, fillSel := 1 - s.fillSel } : State).push s.fillSel with
        credit := c } := by
    intro c
    refine ⟨⟨(fatal_wordTaken s w).trans h.kept.1, h.kept.2.1, ?_, h.kept.2.2.2⟩, .inr ⟨?_, hw⟩, ?_, ?_, ?_,
      fun ha => absurd (hr.symm.trans ha) (by decide)⟩
    · refine (overrun_wordTaken s w).trans ?_
      rw [hown, show s.flag .overrun = false from h.kept.2.2.1]; rfl
    · show s.fifo ++ [s.fillSel] = [1 - (1 - s.fillSel)]
      rw [hf, List.nil_append, sub_sub_cancel]
    · intro hq
      have hq' : s.cseq = .deint ∨ s.cseq = .chsel := hq
      rw [hw] at hq'; rcases hq' with hq' | hq' <;> cases hq'
    · intro j hj
      by_cases hjf : j = s.fillSel
      · refine .inl ?_
        show j ∈ s.fifo ++ [s.fillSel]
        simp [hjf]
      · have hj' : s.own[j] ≠ .producer := by
          have hj2 : (s.own.set s.fillSel .queued)[j] ≠ .producer := hj
          rwa [getElem_set_fin_ne _ _ hjf] at hj2
        rcases h.tags j hj' with hm | hm
        · rw [hf] at hm; cases hm
        · exact .inr hm
    · intro h; cases h
  rcases State.handoffAttempt_cases { s.wordTaken w with wrPos := p, fillSel := 1 - s.fillSel } s.fillSel with
    ⟨_, _, e⟩ | ⟨hm, hz, _⟩ | ⟨hm, hz, _⟩ | ⟨_, _, e⟩ | ⟨_, hl, _⟩
  · rw [e]; exact key _
  · have h0 : s.credit = 0 := hz
    have := hc hm; rw [h0] at this; exact absurd this (by decide)
  · have h0 : s.credit = 0 := hz
    have := hc hm; rw [h0] at this; exact absurd this (by decide)
  · rw [e]; exact key _
  · have h0 : 2 ≤ s.fifo.length := hl
    rw [hf] at h0; exact absurd h0 (by decide)

/-- The producer has seen the shutdown flag. -/
theorem OnTime.rx (h : OnTime ready s) (hr : s.rxState ≠ .armed) :
    OnTime ready { s with rxState := .shuttingDown } :=
  ⟨h.kept, h.queued, h.held, h.tags, fun h1 _ => h.heard h1 hr, fun ha => by cases ha⟩

/-! ### One operation -/

theorem active_of_eq (e : t.rxState = s.rxState) (h : t.active) : s.active := by
  unfold State.active at h ⊢; rwa [e] at h

theorem not_active_of_configOpen (h : s.configOpen = true) : ¬ s.active := by
  simp only [State.configOpen, Bool.and_eq_true, Bool.or_eq_true, beq_iff_eq] at h
  rintro (ha | ha | ha) <;> simp [ha] at h

/-- Bits 0 and 1 of `STATUS` left alone are `FATAL` and `OVERRUN` left alone. -/
theorem flags_of_mask {u : State} (h : u.status &&& 0b10011#5 = s.status &&& 0b10011#5) :
    u.fatal = s.fatal ∧ u.flag .overrun = s.flag .overrun := by
  have key : ∀ x y : BitVec 5, x &&& 0b10011#5 = y &&& 0b10011#5 →
      x.getLsbD 0 = y.getLsbD 0 ∧ x.getLsbD 1 = y.getLsbD 1 := by decide +kernel
  exact key _ _ h

/-- An arithmetic flag raised leaves `FATAL` and `OVERRUN` alone. -/
theorem flags_of_raise {f : Flag} (hf : f = .s2sat ∨ f = .s3sat ∨ f = .dcovf) {on : Bool}
    (h : t.status = (s.raiseFlag f on).status) :
    t.fatal = s.fatal ∧ t.flag .overrun = s.flag .overrun := by
  have e : ∀ g, t.flag g = (s.raiseFlag f on).flag g := fun g => by rw [State.flag, h, State.flag]
  simp only [State.fatal, e, State.flag_raiseFlag]
  rcases hf with rfl | rfl | rfl <;> simp

/-- An operation of which R371 says nothing leaves `ready` as it is. -/
theorem readyAfter_eq {i : Instr} (h1 : completesBlock i s = false) (h2 : startsRun i s = false)
    (h3 : reachesWait i s = false) : readyAfter ready i s = ready := by
  simp [readyAfter, h1, h2, h3]

theorem onTime_pdmword {w : Word} (h : s.active → OnTime ready s)
    (hd : completesBlock (.pdmword w) s = true → ready = true) (he : execPdmword w s = .next t) :
    t.active → OnTime (readyAfter ready (.pdmword w) s) t := by
  intro ha
  cases hc : completesBlock (.pdmword w) s with
  | true =>
    obtain rfl := hd hc
    simp only [completesBlock, Bool.and_eq_true, Bool.not_eq_true', beq_iff_eq] at hc
    obtain ⟨⟨hw, hs⟩, hz⟩ := hc
    rw [show readyAfter true (.pdmword w) s = false by simp [readyAfter, completesBlock, hw, hs, hz]]
    rcases execPdmword_next he with rfl | ⟨hr, -, -, ⟨h1, -⟩ | ⟨-, -, h1, -⟩ | ⟨-, -, rfl⟩⟩
    · unfold execPdmword at he
      rw [if_pos hw, if_neg (by simp [hs])] at he
      split at he
      · rename_i u hu
        obtain ⟨-, rfl⟩ := storeWord_eq_ok.1 hu
        have hr := (wordEnabled_iff.1 hw).1
        have := (h ha).completed hr w (BitVec.ofNat 8 (t.cfg.BW - 1))
        rw [Host.Outcome.next.injEq] at he
        rw [show t = (t.wordTaken w).advanceWord from he.symm]
        unfold State.advanceWord
        rw [if_neg (by show ¬ 0 < t.wrPos.toNat; rw [hz]; decide)]
        exact this
      · cases he
    · simp [hs] at h1
    · simp [hz] at h1
    · exact (h (.inr (.inl hr))).completed hr w _
  | false =>
    rw [readyAfter_eq hc rfl rfl]
    rcases execPdmword_next he with rfl | ⟨hr, h2, h3, ⟨-, rfl⟩ | ⟨-, -, -, rfl⟩ | ⟨h4, h5, -⟩⟩
    · exact h ha
    · exact (h (.inr (.inl hr))).rx (by rw [hr]; decide)
    · exact (h (.inr (.inl hr))).word w
    · rw [completesBlock, wordEnabled_iff.2 ⟨hr, h2, h3⟩, h4, h5] at hc; cases hc

/-- One operation keeps `OnTime`, when the consumer is ready for the block it completes. -/
theorem onTime_exec (i : Instr) (h : s.active → OnTime ready s)
    (hd : completesBlock i s = true → ready = true) (he : exec i s = .next t) :
    t.active → OnTime (readyAfter ready i s) t := by
  intro ha
  cases i with
  | pdmword w => exact onTime_pdmword h hd he ha
  | start =>
    unfold exec execStart at he
    cases he
    cases hs : s.startOpen with
    | true =>
      rw [show readyAfter ready .start s = false by simp [readyAfter, startsRun, hs], if_pos rfl]
      simp only [State.startOpen, Bool.and_eq_true, beq_iff_eq] at hs
      exact (h (.inl hs.1)).started hs.1
    | false =>
      rw [hs] at ha
      rw [readyAfter_eq rfl (by simpa [startsRun] using hs) rfl]
      exact h ha
  | blkreq =>
    unfold exec execBlkreq at he
    cases he
    cases hs : s.at .req with
    | true =>
      rw [show readyAfter ready .blkreq s = true by
        simp [readyAfter, completesBlock, startsRun, reachesWait, hs], if_pos rfl]
      rw [hs] at ha
      exact (h ha).requested (at_iff.1 hs).1
    | false =>
      rw [hs] at ha
      rw [readyAfter_eq rfl rfl (by simpa [reachesWait] using hs)]
      exact h ha
  | reset =>
    cases he
    rcases ha with ha | ha | ha <;> cases ha
  | cfgwr b v =>
    rcases execCfgwr_next he with rfl | ⟨hc, r, -, rfl⟩
    · rw [readyAfter_eq rfl rfl rfl]; exact h ha
    · exact absurd (active_of_eq (by simp) ha) (not_active_of_configOpen hc)
  | csrrd b =>
    obtain ⟨r, -, rfl⟩ := execCsrrd_next he
    rw [readyAfter_eq rfl rfl rfl]
    exact (h ha).same ⟨rfl, rfl, rfl, rfl, rfl, rfl, rfl, rfl, rfl, rfl, rfl⟩ rfl
  | coefwr a b v =>
    rcases execCoefwr_next he with rfl | ⟨hc, r, k, -, rfl⟩
    · rw [readyAfter_eq rfl rfl rfl]; exact h ha
    · exact absurd (active_of_eq (by simp) ha) (not_active_of_configOpen hc)
  | init =>
    rcases execInit_next he with rfl | ⟨hc, c, -, rfl⟩ | ⟨hc, -, rfl⟩
    · rw [readyAfter_eq rfl rfl rfl]; exact h ha
    · exact absurd (active_of_eq (by simp) ha) (not_active_of_configOpen hc)
    · refine OnTime.afterInit ?_ _
      simp only [State.configOpen, Bool.and_eq_true, Bool.not_eq_true'] at hc
      exact hc.2
  | rxframe =>
    rw [readyAfter_eq rfl rfl rfl]
    rcases linkCommand_next he with rfl | ⟨-, -, -, rfl⟩
    · exact h ha
    · exact (h ha).same ⟨rfl, rfl, rfl, rfl, rfl, rfl, rfl, rfl, rfl, rfl, rfl⟩ rfl
  | rxframet =>
    rw [readyAfter_eq rfl rfl rfl]
    rcases linkCommand_next he with rfl | ⟨-, -, -, rfl⟩
    · exact h ha
    · exact (h ha).same ⟨rfl, rfl, rfl, rfl, rfl, rfl, rfl, rfl, rfl, rfl, rfl⟩ rfl
  | shutdown =>
    rw [readyAfter_eq rfl rfl rfl]
    rcases linkCommand_next he with rfl | ⟨-, -, -, rfl⟩
    · exact h ha
    · exact (h ha).same ⟨rfl, rfl, rfl, rfl, rfl, rfl, rfl, rfl, rfl, rfl, rfl⟩ rfl
  | handoff =>
    rw [readyAfter_eq rfl rfl rfl]
    rcases execHandoff_next he with rfl | ⟨hp, -, -, rfl⟩
    · exact h ha
    · have := (h (active_of_eq (by simp) ha)).kept.2.2.2
      rw [hp] at this; cases this
  | rxexit =>
    rcases execRxexit_next he with rfl | ⟨-, -, rfl⟩
    · rw [readyAfter_eq rfl rfl rfl]; exact h ha
    · rcases ha with ha | ha | ha <;> cases ha
  | blkpop =>
    rw [readyAfter_eq rfl rfl rfl]
    rcases execBlkpop_next he with rfl | ⟨hq, -, k, rest, hk, rfl⟩
    · exact h ha
    · exact (h ha).popped hq hk
  | deint =>
    rw [readyAfter_eq rfl rfl rfl]
    rcases execDeint_next he with rfl | ⟨hq, -, m, -, rfl⟩
    · exact h ha
    · exact (h ha).move ⟨rfl, rfl, rfl, rfl, rfl, rfl, rfl, rfl, rfl, rfl, rfl⟩ (by simp [hq]) (by simp [hq])
        (by simp [hq])
  | chsel =>
    rw [readyAfter_eq rfl rfl rfl]
    rcases execChsel_next he with rfl | ⟨hq, -, m, -, rfl⟩
    · exact h ha
    · exact (h ha).released hq m
  | firblk =>
    rw [readyAfter_eq rfl rfl rfl]
    rcases execFirblk_next he with rfl | ⟨hq, -, b, -, hb, rfl⟩
    · exact h ha
    · have hf := flags_of_mask hb.2.2
      refine (h ha).move ⟨rfl, rfl, rfl, rfl, rfl, rfl, rfl, rfl, rfl, hf.1, hf.2⟩ (by simp [hq])
        (by simp [hq]) ?_
      cases b.valid <;> simp [hq]
  | s1step a w =>
    rw [readyAfter_eq rfl rfl rfl]
    rcases execS1step_next he with rfl | ⟨-, -, c, v, y, -, rfl⟩
    · exact h ha
    · exact (h ha).same ⟨rfl, rfl, rfl, rfl, rfl, rfl, rfl, rfl, rfl, rfl, rfl⟩ rfl
  | s2step a w =>
    rw [readyAfter_eq rfl rfl rfl]
    rcases execS2step_next he with rfl | ⟨-, -, c, o, -, rfl⟩
    · exact h ha
    · exact (h ha).same ⟨rfl, rfl, rfl, rfl, rfl, rfl, rfl, rfl, rfl, (flags_of_raise (.inl rfl) rfl).1,
        (flags_of_raise (.inl rfl) rfl).2⟩ rfl
  | s3step a w =>
    rw [readyAfter_eq rfl rfl rfl]
    rcases execS3step_next he with rfl | ⟨-, -, -, c, o, -, rfl⟩
    · exact h ha
    · exact (h ha).same ⟨rfl, rfl, rfl, rfl, rfl, rfl, rfl, rfl, rfl, (flags_of_raise (.inr (.inl rfl)) rfl).1,
        (flags_of_raise (.inr (.inl rfl)) rfl).2⟩ rfl
  | dcoe =>
    rw [readyAfter_eq rfl rfl rfl]
    rcases execDcoe_next he with rfl | ⟨hq, -, ⟨-, rfl⟩ | ⟨-, rfl⟩⟩
    · exact h ha
    · exact (h ha).move ⟨rfl, rfl, rfl, rfl, rfl, rfl, rfl, rfl, rfl, (flags_of_raise (.inr (.inr rfl)) rfl).1,
        (flags_of_raise (.inr (.inr rfl)) rfl).2⟩ (by simp [hq]) (by simp [hq]) (by simp [hq])
    · exact (h ha).move ⟨rfl, rfl, rfl, rfl, rfl, rfl, rfl, rfl, rfl, rfl, rfl⟩ (by simp [hq]) (by simp [hq])
        (by simp [hq])
  | frmadd =>
    rw [readyAfter_eq rfl rfl rfl]
    rcases execFrmadd_next he with rfl | ⟨hq, -, m, -, ⟨-, rfl⟩ | ⟨-, rfl⟩⟩
    · exact h ha
    all_goals
      exact (h ha).move ⟨rfl, rfl, rfl, rfl, rfl, rfl, rfl, rfl, rfl, rfl, rfl⟩ (by simp [hq]) (by simp [hq])
        (by simp [hq])
  | frmtx =>
    rw [readyAfter_eq rfl rfl rfl]
    rcases execFrmtx_next he with rfl | ⟨hq, -, ⟨-, rfl⟩ | ⟨ws, wt, -, -, rfl⟩⟩
    · exact h ha
    all_goals
      exact (h ha).move ⟨rfl, rfl, rfl, rfl, rfl, rfl, rfl, rfl, rfl, rfl, rfl⟩ (by simp [hq]) (by simp [hq])
        (by simp [hq])
  | unwind =>
    rw [readyAfter_eq rfl rfl rfl]
    rcases execUnwind_next he with rfl | ⟨hq, -, rfl⟩
    · exact h ha
    · exact (h ha).move ⟨rfl, rfl, rfl, rfl, rfl, rfl, rfl, rfl, rfl, rfl, rfl⟩ (by simp [hq]) (by simp [hq])
        (by simp [hq])
  | drain =>
    rw [readyAfter_eq rfl rfl rfl]
    rcases execDrain_next he with rfl | ⟨hq, -, ⟨k, rest, hk, rfl⟩ | ⟨-, -, -, rfl⟩⟩
    · exact h ha
    · have := (h ha).empty (by simp [hq]); rw [hk] at this; cases this
    · exact (h ha).move ⟨rfl, rfl, rfl, rfl, rfl, rfl, rfl, rfl, rfl, rfl, rfl⟩ (by simp [hq]) (by simp [hq])
        (by simp [hq])

/-! ### A schedule (70_reset_and_hazards.md R371) -/

/-- Any number of operations of a schedule that meets the premise. The premise of a schedule is that of its
beginnings (`meetsDeadline_append`), so this holds at every point of it. -/
theorem onTime_performAll (ops : List Instr) (h : s.active → OnTime ready s)
    (hd : meetsDeadline ready ops s = true) (he : performAll ops s = .next t) : t.active → NothingLost t := by
  induction ops generalizing s ready with
  | nil => cases he; exact fun ha => (h ha).nothingLost
  | cons i is ih =>
    simp only [performAll] at he
    simp only [meetsDeadline, Bool.and_eq_true, Bool.or_eq_true, Bool.not_eq_true'] at hd
    split at he
    · rename_i u hu
      rw [hu] at hd
      exact ih (onTime_exec i h (fun hc => hd.1.resolve_left (by simp [hc])) hu) hd.2 he
    · cases he
    · cases he

/-- A beginning of a schedule that meets the premise meets it. -/
theorem meetsDeadline_append (ops more : List Instr) (h : meetsDeadline ready (ops ++ more) s = true) :
    meetsDeadline ready ops s = true := by
  induction ops generalizing s ready with
  | nil => rfl
  | cons i is ih =>
    simp only [List.cons_append, meetsDeadline, Bool.and_eq_true] at h ⊢
    refine ⟨h.1, ?_⟩
    cases he : exec i s with
    | next u => rw [he] at h; exact ih h.2
    | fault e => rfl
    | refused r => rfl

/-- R371: from a machine that is not active (after RESET, or stopped), however it is configured and started,
a schedule that meets the premise loses no block, at any point of it while the machine is active. -/
theorem deadline_nothing_lost (s : State) (ops more : List Instr) (t : State) (hs : ¬ s.active)
    (hd : meetsDeadline false (ops ++ more) s = true) (he : performAll ops s = .next t) (ha : t.active) :
    NothingLost t :=
  onTime_performAll ops (fun h => absurd h hs) (meetsDeadline_append ops more hd) he ha

end Sys2Proof.Machine
end

