-- ==== Sys2Proof/Laws/Deinterleave.lean ====
section
/-! SUPPORT. What DEINT and CHSEL do to a half and to the output block buffer, word by word. -/

namespace Sys2Proof.Machine

theorem length_deintGroup (n : Nat) (ws : List Word) : (deintGroup n ws).length = n := by
  simp [deintGroup]

theorem length_interleaveGroup (n : Nat) (ws : List Word) : (interleaveGroup n ws).length = n := by
  simp [interleaveGroup]

/-- A bit of a channel word (40_deinterleave.md R142). -/
theorem getLsbD_deintGroup {n c j : Nat} (ws : List Word) (hc : c < n) (hj : j < 32) :
    ((deintGroup n ws).getD c 0#32).getLsbD j = deintBit n ws c j := by
  simp [deintGroup, List.getD_eq_getElem?_getD, hc, hj]

/-- A bit of a raw word (40_deinterleave.md R146). -/
theorem getLsbD_interleaveGroup {n m b : Nat} (ws : List Word) (hm : m < n) (hb : b < 32) :
    ((interleaveGroup n ws).getD m 0#32).getLsbD b =
      (ws.getD (b % n) 0#32).getLsbD ((n - 1 - m) * instantsPerWord n + b / n) := by
  simp [interleaveGroup, List.getD_eq_getElem?_getD, hm, hb]

/-- One group: its words become the channel words, every other word stays (40_deinterleave.md R141). -/
theorem deintOneGroup_spec {n g : Nat} {m : Memory} (hb : g * n + n ≤ Config.bufWords)
    (hw : ∀ k < n, (m.read (g * n + k)).isSome = true) :
    ∃ m' ws, deintOneGroup n g m = .ok m' ∧ ws.length = n ∧
      (∀ k (h : k < ws.length), m.read (g * n + k) = some ws[k]) ∧
      (∀ c < n, m'.read (g * n + c) = some ((deintGroup n ws).getD c 0#32)) ∧
      ∀ i, (∀ c < n, i ≠ g * n + c) → m'.read i = m.read i := by
  obtain ⟨ws, hws⟩ : ∃ ws, collect (fun k => load .buf Config.bufWords m (g * n + k)) 0 n = .ok ws :=
    collect_ok_of fun j hj => by
      obtain ⟨v, hv⟩ := Option.isSome_iff_exists.1 (hw j hj)
      exact ⟨v, load_eq_ok.2 ⟨by omega, by simpa using hv⟩⟩
  obtain ⟨hl, hr⟩ := collect_eq_ok.1 hws
  obtain ⟨m', h1, h2, h3⟩ := forRange_store (n := n)
    (f := fun c m' => store .buf Config.bufWords m' (g * n + c) ((deintGroup n ws).getD c 0#32))
    (a := fun c => g * n + c) (v := fun c => (deintGroup n ws).getD c 0#32)
    (fun c hc m => store_eq_ok.2 ⟨by omega, rfl⟩) (fun c _ d _ h => by simpa using h) m
  refine ⟨m', ws, by simp only [deintOneGroup, hws, h1], hl, fun k hk => ?_, h2, h3⟩
  simpa using (load_eq_ok.1 (hr k hk)).2

/-- A whole half (40_deinterleave.md R141). -/
theorem deintHalf_spec {n groups : Nat} {m : Memory} (hb : groups * n ≤ Config.bufWords)
    (hw : ∀ i < groups * n, (m.read i).isSome = true) :
    ∃ m', deintHalf n groups m = .ok m' ∧ (∀ i, groups * n ≤ i → m'.read i = m.read i) ∧
      ∀ g < groups, ∃ ws : List Word, ws.length = n ∧
        (∀ k (h : k < ws.length), m.read (g * n + k) = some ws[k]) ∧
        ∀ c < n, m'.read (g * n + c) = some ((deintGroup n ws).getD c 0#32) := by
  have key := forRange_ok_of (f := deintOneGroup n) (a := m)
    (fun k (m' : Memory) => (∀ i, k * n ≤ i → m'.read i = m.read i) ∧
      ∀ g < k, ∃ ws : List Word, ws.length = n ∧
        (∀ j (h : j < ws.length), m.read (g * n + j) = some ws[j]) ∧
        ∀ c < n, m'.read (g * n + c) = some ((deintGroup n ws).getD c 0#32)) groups
    ⟨fun _ _ => rfl, fun g hg => absurd hg (by omega)⟩ ?_
  · obtain ⟨m', h1, h2, h3⟩ := key
    exact ⟨m', h1, h2, h3⟩
  rintro k b hk ⟨h1, h2⟩
  have hkn : k * n + n ≤ groups * n := by
    calc k * n + n = (k + 1) * n := by ring
      _ ≤ groups * n := Nat.mul_le_mul_right n hk
  obtain ⟨m', ws, e1, e2, e3, e4, e5⟩ := deintOneGroup_spec (m := b) (n := n) (g := k) (by omega)
    fun j hj => by rw [h1 _ (by omega)]; exact hw _ (by omega)
  refine ⟨m', e1, fun i hi => ?_, fun g hg => ?_⟩
  · have : (k + 1) * n = k * n + n := by ring
    rw [e5 i fun c hc => by omega, h1 i (by omega)]
  · rcases Nat.lt_succ_iff_lt_or_eq.1 hg with hg | rfl
    · obtain ⟨vs, w1, w2, w3⟩ := h2 g hg
      refine ⟨vs, w1, w2, fun c hc => ?_⟩
      have : g * n + n ≤ k * n := by
        calc g * n + n = (g + 1) * n := by ring
          _ ≤ k * n := Nat.mul_le_mul_right n hg
      rw [e5 _ fun d hd => by omega, w3 c hc]
    · exact ⟨ws, e2, fun j hj => by rw [← h1 _ (by omega)]; exact e3 j hj, e4⟩

/-- The output block buffer after channel selection (40_deinterleave.md R150). -/
theorem selectBlock_spec {g : CfgRegs} {half ob : Memory} (hn : g.N_OUT ≤ 16)
    (hb : g.OBW ≤ Config.bufWords)
    (hw : ∀ c : Fin 16, c.val < g.N_OUT → ∀ k < g.D2,
      k * g.N_IN + g.chmap[c].toNat < Config.bufWords ∧
      (half.read (k * g.N_IN + g.chmap[c].toNat)).isSome = true) :
    ∃ ob', selectBlock g half ob = .ok ob' ∧
      (∀ c : Fin 16, c.val < g.N_OUT → ∀ k < g.D2,
        ob'.read (c.val * g.D2 + k) = half.read (k * g.N_IN + g.chmap[c].toNat)) ∧
      ∀ i, g.OBW ≤ i → ob'.read i = ob.read i := by
  have hOB : g.OBW = g.N_OUT * g.D2 := rfl
  have key := forRange_ok_of (a := ob)
    (f := fun c ob' => forRange g.D2 (fun k ob'' => selectWord g half c k ob'') ob')
    (fun n (ob' : Memory) => (∀ c : Fin 16, c.val < n → ∀ k < g.D2,
        ob'.read (c.val * g.D2 + k) = half.read (k * g.N_IN + g.chmap[c].toNat)) ∧
      ∀ i, n * g.D2 ≤ i → ob'.read i = ob.read i) g.N_OUT
    ⟨fun c hc => absurd hc (by omega), fun _ _ => rfl⟩ ?_
  · obtain ⟨ob', h1, h2, h3⟩ := key
    exact ⟨ob', h1, h2, h3⟩
  rintro n b hlt ⟨h1, h2⟩
  have hnd : n * g.D2 + g.D2 ≤ g.N_OUT * g.D2 := by
    calc n * g.D2 + g.D2 = (n + 1) * g.D2 := by ring
      _ ≤ g.N_OUT * g.D2 := Nat.mul_le_mul_right _ hlt
  have hc : n < 16 := by omega
  obtain ⟨b', e1, e2, e3⟩ := forRange_store (n := g.D2) (f := fun k ob'' => selectWord g half n k ob'')
    (a := fun k => n * g.D2 + k)
    (v := fun k => (half.read (k * g.N_IN + g.chmap[(⟨n, hc⟩ : Fin 16)].toNat)).getD 0#32)
    (fun k hk m => by
      obtain ⟨w1, w2⟩ := hw ⟨n, hc⟩ hlt k hk
      obtain ⟨v, hv⟩ := Option.isSome_iff_exists.1 w2
      have hl : load .buf Config.bufWords half (k * g.N_IN + g.chmap[(⟨n, hc⟩ : Fin 16)].toNat) = .ok v :=
        load_eq_ok.2 ⟨w1, hv⟩
      have hi : channelIndex n = .ok ⟨n, hc⟩ := channelIndex_eq_ok.2 rfl
      simp only [selectWord, hi, hl, hv, Option.getD_some]
      exact store_eq_ok.2 ⟨by omega, rfl⟩)
    (fun k _ d _ h => by simpa using h) b
  refine ⟨b', e1, fun c hcn k hk => ?_, fun i hi => ?_⟩
  · rcases Nat.lt_succ_iff_lt_or_eq.1 hcn with hlt' | he
    · have : c.val * g.D2 + g.D2 ≤ n * g.D2 := by
        calc c.val * g.D2 + g.D2 = (c.val + 1) * g.D2 := by ring
          _ ≤ n * g.D2 := Nat.mul_le_mul_right _ hlt'
      rw [e3 _ fun d hd => by omega, h1 c hlt' k hk]
    · have hc' : c = ⟨n, hc⟩ := Fin.ext he
      subst hc'
      obtain ⟨v, hv⟩ := Option.isSome_iff_exists.1 (hw ⟨n, hc⟩ hlt k hk).2
      rw [e2 k hk, hv]; rfl
  · have : (n + 1) * g.D2 = n * g.D2 + g.D2 := by ring
    rw [e3 i fun d hd => by omega, h2 i (by omega)]

end Sys2Proof.Machine
end

