-- ==== Sys2Proof/Laws/Encoding.lean ====
section
/-! SUPPORT. The fields of an operation word, the register indices, the operand forms. -/

namespace Sys2Proof

variable (op a : BitVec 8) (b : BitVec 16) (imm : Word)

@[simp] theorem opOf_makeWord : opOf (makeWord op a b imm) = op := by
  apply BitVec.eq_of_getLsbD_eq; intro i hi
  simp only [opOf, makeWord, BitVec.getLsbD_extractLsb', BitVec.getLsbD_append, hi, decide_true, Bool.true_and]
  grind

@[simp] theorem aOf_makeWord : aOf (makeWord op a b imm) = a := by
  apply BitVec.eq_of_getLsbD_eq; intro i hi
  simp only [aOf, makeWord, BitVec.getLsbD_extractLsb', BitVec.getLsbD_append, hi, decide_true, Bool.true_and]
  grind

@[simp] theorem bOf_makeWord : bOf (makeWord op a b imm) = b := by
  apply BitVec.eq_of_getLsbD_eq; intro i hi
  simp only [bOf, makeWord, BitVec.getLsbD_extractLsb', BitVec.getLsbD_append, hi, decide_true, Bool.true_and]
  grind

@[simp] theorem immOf_makeWord : immOf (makeWord op a b imm) = imm := by
  apply BitVec.eq_of_getLsbD_eq; intro i hi
  simp only [immOf, makeWord, BitVec.getLsbD_extractLsb', BitVec.getLsbD_append, hi, decide_true, Bool.true_and]
  grind

/-- A word is the word of its four fields. -/
theorem makeWord_fields (w : OpWord) : makeWord (opOf w) (aOf w) (bOf w) (immOf w) = w := by
  apply BitVec.eq_of_getLsbD_eq; intro i hi
  simp only [opOf, aOf, bOf, immOf, makeWord, BitVec.getLsbD_extractLsb', BitVec.getLsbD_append]
  grind

theorem makeWord_and (op' a' : BitVec 8) (b' : BitVec 16) (imm' : Word) :
    makeWord op a b imm &&& makeWord op' a' b' imm' =
      makeWord (op &&& op') (a &&& a') (b &&& b') (imm &&& imm') := by
  unfold makeWord
  rw [BitVec.and_append, BitVec.and_append, BitVec.and_append]

theorem makeWord_inj {op op' a a' : BitVec 8} {b b' : BitVec 16} {imm imm' : Word} :
    makeWord op a b imm = makeWord op' a' b' imm' ↔ op = op' ∧ a = a' ∧ b = b' ∧ imm = imm' := by
  constructor
  · intro h
    exact ⟨by simpa using congrArg opOf h, by simpa using congrArg aOf h, by simpa using congrArg bOf h,
      by simpa using congrArg immOf h⟩
  · rintro ⟨rfl, rfl, rfl, rfl⟩; rfl

/-- The operation code alone, in its place (30_encoding.md R120 `match`). -/
theorem shifted_op : op.setWidth 64 <<< 56 = makeWord op 0 0 0 := by
  apply BitVec.eq_of_getLsbD_eq; intro i hi
  simp only [makeWord, BitVec.getLsbD_shiftLeft, BitVec.getLsbD_setWidth, BitVec.getLsbD_append]
  grind

theorem Format.mask_eq (f : Format) : f.mask = makeWord 0xFF#8
    (match f with | .ai | .abi => 0 | _ => 0xFF#8) (match f with | .r | .ri | .abi => 0 | _ => 0xFFFF#16)
    (match f with | .z | .r => 0xFFFFFFFF#32 | _ => 0) := by cases f <;> decide

/-- The mask test of the decoder says that every unused field is 0 (30_encoding.md R119). -/
theorem mask_test_iff (f : Format) (w : OpWord) :
    w &&& f.mask = (opOf w).setWidth 64 <<< 56 ↔ Machine.UnusedFieldsZero f w := by
  have h8 : ∀ x : BitVec 8, x &&& 0xFF#8 = x := fun x => BitVec.and_allOnes (x := x)
  have h16 : ∀ x : BitVec 16, x &&& 0xFFFF#16 = x := fun x => BitVec.and_allOnes (x := x)
  have h32 : ∀ x : BitVec 32, x &&& 0xFFFFFFFF#32 = x := fun x => BitVec.and_allOnes (x := x)
  rw [shifted_op, Format.mask_eq]
  conv_lhs => lhs; lhs; rw [← makeWord_fields w]
  rw [makeWord_and, makeWord_inj]
  cases f <;> simp [Machine.UnusedFieldsZero, h8, h16, h32]

/-- When a word decodes, and to what. -/
theorem decode_eq_ok {w : OpWord} {i : Instr} :
    decode w = .ok i ↔ ∃ f, operationMap (opOf w).toNat (aOf w) (bOf w) (immOf w) = some (f, i) ∧
      Machine.UnusedFieldsZero f w ∧ i.wellFormed = true := by
  unfold decode
  cases h : operationMap (opOf w).toNat (aOf w) (bOf w) (immOf w) with
  | none => simp
  | some p =>
    obtain ⟨f, j⟩ := p
    have hm := mask_test_iff f w
    by_cases hz : Machine.UnusedFieldsZero f w
    · cases hw : j.wellFormed <;> simp only [hm.2 hz, hw, ne_eq] <;> grind
    · simp only [ne_eq, mt hm.1 hz] ; grind

/-- When a word does not decode, and why (30_encoding.md R125). -/
theorem decode_eq_error {w : OpWord} {e : DecodeError} :
    decode w = .error e ↔
      (operationMap (opOf w).toNat (aOf w) (bOf w) (immOf w) = none ∧ e = .reservedOp) ∨
      ∃ f i, operationMap (opOf w).toNat (aOf w) (bOf w) (immOf w) = some (f, i) ∧
        ((¬ Machine.UnusedFieldsZero f w ∧ e = .nonzeroUnusedField) ∨
          (Machine.UnusedFieldsZero f w ∧ i.wellFormed = false ∧ e = .operandOutOfRange)) := by
  unfold decode
  cases h : operationMap (opOf w).toNat (aOf w) (bOf w) (immOf w) with
  | none => simp only [Except.error.injEq, true_and, reduceCtorEq, false_and, exists_false, or_false]; exact eq_comm
  | some p =>
    obtain ⟨f, j⟩ := p
    have hm := mask_test_iff f w
    by_cases hz : Machine.UnusedFieldsZero f w
    · cases hw : j.wellFormed <;> simp only [hm.2 hz, hw, ne_eq] <;> grind
    · simp only [ne_eq, mt hm.1 hz] ; grind

/-! ### Register indices (10_state.md R42, R43) -/

/-- A property of register indices need only be checked below the reserved top. -/
theorem index_cases (P : BitVec 16 → Prop) (h : ∀ n < 0x4E, P (BitVec.ofNat 16 n))
    (h' : ∀ b : BitVec 16, 0x4E ≤ b.toNat → P b) (b : BitVec 16) : P b := by
  by_cases hb : b.toNat < 0x4E
  · have := h b.toNat hb; rwa [BitVec.ofNat_toNat, BitVec.setWidth_eq] at this
  · exact h' b (by omega)

theorem Machine.regOfIndex_above (b : BitVec 16) (h : 0x4E ≤ b.toNat) : Machine.regOfIndex b = none := by
  unfold Machine.regOfIndex
  split <;> first | omega | skip
  rw [dif_neg (by omega)]

/-- An index names a register exactly when it is not reserved. -/
theorem Machine.regOfIndex_isSome (b : BitVec 16) : (Machine.regOfIndex b).isSome = !reservedIndex b := by
  revert b
  refine index_cases _ (by decide +kernel) fun b h => ?_
  simp [Machine.regOfIndex_above b h, reservedIndex, h]

theorem Machine.regOfIndex_of_not_reserved {b : BitVec 16} (h : reservedIndex b = false) :
    ∃ r, Machine.regOfIndex b = some r :=
  Option.isSome_iff_exists.1 (by rw [Machine.regOfIndex_isSome, h]; rfl)

/-- The indices of the writable configuration registers. -/
theorem Machine.regOfIndex_writable {b : BitVec 16} {r : Machine.Reg}
    (h : Machine.regOfIndex b = some r) :
    (∃ k, r = .cfg k) ↔ b.toNat ≤ 0x05 ∨ (0x0C ≤ b.toNat ∧ b.toNat ≤ 0x13) ∨
      (0x20 ≤ b.toNat ∧ b.toNat ≤ 0x2F) := by
  refine index_cases (fun b => ∀ r, Machine.regOfIndex b = some r → ((∃ k, r = .cfg k) ↔ b.toNat ≤ 0x05 ∨
    (0x0C ≤ b.toNat ∧ b.toNat ≤ 0x13) ∨ (0x20 ≤ b.toNat ∧ b.toNat ≤ 0x2F))) (fun n hn r hr => ?_)
    (fun b hb r hr => by rw [Machine.regOfIndex_above b hb] at hr; cases hr) b r h
  interval_cases n <;>
    first
    | (cases hr; done)
    | (cases hr; simp)

theorem Machine.regOfIndex_chmap (c : Fin 16) :
    Machine.regOfIndex (BitVec.ofNat 16 (0x20 + c.val)) = some (.cfg (.chmap c)) := by
  revert c; decide +kernel

/-! ### Operand forms (30_encoding.md R121, R125) -/

theorem Machine.stageOf_isSome (a : BitVec 8) : (Machine.stageOf a).isSome = legalStage a := by
  revert a; decide +kernel

theorem Machine.tapOf_isSome (b : BitVec 16) : (Machine.tapOf b).isSome = legalTap b := by
  unfold Machine.tapOf legalTap Config.coefWords
  split <;> simp <;> omega

theorem Machine.channelOf_isSome (a : BitVec 8) : (Machine.channelOf a).isSome = legalChannel a := by
  unfold Machine.channelOf legalChannel
  split <;> simp <;> omega

@[simp] theorem Machine.tapOf_ofNat (k : Fin 256) : Machine.tapOf (BitVec.ofNat 16 k) = some k.val := by
  revert k; decide +kernel

@[simp] theorem Machine.channelOf_ofNat (c : Fin 16) : Machine.channelOf (BitVec.ofNat 8 c) = some c := by
  revert c; decide +kernel

end Sys2Proof
end

