-- ==== Sys2Proof/Laws/Init.lean ====
section
/-! SUPPORT. INIT's checks as Booleans against the propositions of the table of 46_control_sequencer.md R288. -/

namespace Sys2Proof.Machine

theorem word_eq_ofNat_iff (x : Word) (n : Nat) (h : n < 2 ^ 32) : x = BitVec.ofNat 32 n ↔ x.toNat = n := by
  rw [← BitVec.toNat_inj, BitVec.toNat_ofNat, Nat.mod_eq_of_lt h]

theorem legalDec_iff (d : Word) : legalDec d = true ↔ d.toNat ∈ [2, 3, 6] := by
  simp [legalDec, word_eq_ofNat_iff d 2, word_eq_ofNat_iff d 3, word_eq_ofNat_iff d 6, or_assoc]

theorem legalTaps_iff (r : StageRegs) :
    legalTaps r = true ↔ (1 ≤ r.taps.toNat ∧ r.taps.toNat ≤ 256) ∧ r.sw = r.taps := by
  simp [legalTaps]

/-- Each check of INIT is the condition of its row. -/
theorem initChecks_conditions (g : CfgRegs) :
    (initChecks g).map (fun p => p.1 = true) = initConditions g := by
  have h3 : g.nStages = 3#32 ↔ g.nStages.toNat = 3 := word_eq_ofNat_iff _ 3 (by decide)
  simp only [initChecks, initConditions, List.map_cons, List.map_nil, List.cons.injEq, and_true, eq_iff_iff]
  refine ⟨?_, ?_, ?_, ?_, legalDec_iff _, legalTaps_iff _, by simp, ?_, ?_, ?_, ?_, ?_, ?_⟩
  · simp [word_eq_ofNat_iff g.nIn 1, word_eq_ofNat_iff g.nIn 2, word_eq_ofNat_iff g.nIn 4,
      word_eq_ofNat_iff g.nIn 8, word_eq_ofNat_iff g.nIn 16, or_assoc]
  · simp only [Bool.and_eq_true, decide_eq_true_eq]; rfl
  · simp only [List.all_eq_true, List.mem_finRange, Bool.or_eq_true, Bool.not_eq_true',
      decide_eq_true_eq, decide_eq_false_iff_not, imp_iff_not_or, not_true, false_or]; rfl
  · simp [word_eq_ofNat_iff _ 2, word_eq_ofNat_iff _ 3]
  · simp only [Bool.or_eq_true, Bool.not_eq_true', legalDec_iff, imp_iff_not_or]; simp [h3]
  · simp only [Bool.or_eq_true, Bool.not_eq_true', legalTaps_iff, imp_iff_not_or]; simp [h3]
  · simp only [Bool.or_eq_true, Bool.not_eq_true', imp_iff_not_or]; simp [h3]
  · simp only [Bool.and_eq_true, decide_eq_true_eq]; rfl
  · simp only [Bool.and_eq_true, decide_eq_true_eq]; rfl
  · simp only [beq_iff_eq]
    constructor
    · intro h k hk
      have := congrArg (fun x => x.getLsbD (k - 3)) h
      simp only [BitVec.getLsbD_ushiftRight, BitVec.ofNat_eq_ofNat, BitVec.getLsbD_zero] at this
      rwa [show 3 + (k - 3) = k by omega] at this
    · intro h
      apply BitVec.eq_of_getLsbD_eq
      intro i hi
      simp [BitVec.getLsbD_ushiftRight, h (3 + i) (by omega)]

/-- The codes of the checks count up from `0x10` (60_exceptions.md R323). -/
theorem initChecks_codes (g : CfgRegs) :
    (initChecks g).map (fun p => p.2.code) = (List.range 13).map fun n => BitVec.ofNat 8 (0x10 + n) := rfl

/-- INIT passes exactly in the legal configurations. -/
theorem initFailure_eq_none (g : CfgRegs) : initFailure g = none ↔ LegalCfg g := by
  unfold initFailure LegalCfg
  rw [← initChecks_conditions, Option.map_eq_none_iff, List.find?_eq_none]
  simp only [List.mem_map, forall_exists_index, and_imp]
  exact ⟨fun h p x hx hp => hp ▸ by simpa using h x hx, fun h x hx => by simpa using h _ x hx rfl⟩

/-- The cause INIT reports is that of the first check that fails. -/
theorem initFailure_of_first {g : CfgRegs} {passed rest : List Prop} {p : Prop}
    (h : initConditions g = passed ++ p :: rest) (hq : ∀ q ∈ passed, q) (hp : ¬ p) :
    ∃ c, initFailure g = some c ∧ c.code = BitVec.ofNat 8 (0x10 + passed.length) := by
  have hc := initChecks_conditions g
  rw [h] at hc
  obtain ⟨l₁, l₂, hl, h1, h2⟩ := List.map_eq_append_iff.1 hc
  obtain ⟨x, l₃, rfl, hx, h3⟩ := List.map_eq_cons_iff.1 h2
  have hpass : ∀ y ∈ l₁, y.1 = true := fun y hy => hq _ (h1 ▸ List.mem_map_of_mem hy)
  have hlen : passed.length = l₁.length := by rw [← h1, List.length_map]
  refine ⟨x.2, ?_, ?_⟩
  · unfold initFailure
    rw [hl, List.find?_append, List.find?_eq_none.2 fun y hy => by simp [hpass y hy]]
    have : x.1 = false := by cases hb : x.1 <;> simp_all
    simp [this]
  · have hcode := initChecks_codes g
    rw [hl] at hcode
    have := congrArg (fun l => l[l₁.length]?) hcode
    have hl13 : l₁.length < 13 := by
      have := congrArg List.length hl
      simp [initChecks] at this; omega
    simp [hl13] at this
    rw [hlen, this]

end Sys2Proof.Machine
end

