-- ==== Sys2Proof/Laws/PerInstr.lean ====
section
/-! SUPPORT. One lemma per constructor of `Instr`: its operation word is in the operation map. -/

namespace Sys2Proof.Laws.WordInTheMap

/-- The operation word of `i` carries a code of 30_encoding.md R120, every field its format does not use is
0 (R119), and the map gives `i` back from the code and the fields (R121). -/
def Statement (i : Instr) : Prop :=
  ∃ f, (opOf (encode i), f) ∈ Machine.operationCodes ∧ Machine.UnusedFieldsZero f (encode i) ∧
    operationMap (opOf (encode i)).toNat (aOf (encode i)) (bOf (encode i)) (immOf (encode i)) = some (f, i)

/-- The two facts about the map that an operation's lemma needs. -/
theorem of_fields {i : Instr} {op a : BitVec 8} {b : BitVec 16} {imm : Word} (f : Format)
    (he : encode i = makeWord op a b imm) (hc : (op, f) ∈ Machine.operationCodes)
    (hz : Machine.UnusedFieldsZero f (makeWord op a b imm))
    (hm : operationMap op.toNat a b imm = some (f, i)) : Statement i :=
  ⟨f, by rw [he, opOf_makeWord]; exact hc, by rw [he]; exact hz,
    by rw [he, opOf_makeWord, aOf_makeWord, bOf_makeWord, immOf_makeWord]; exact hm⟩

theorem reset : Statement .reset :=
  of_fields .z rfl (by decide) (by simp [Machine.UnusedFieldsZero]) rfl

theorem cfgwr (b : BitVec 16) (imm : Word) : Statement (.cfgwr b imm) :=
  of_fields .ri rfl (by decide) (by simp [Machine.UnusedFieldsZero]) rfl

theorem csrrd (b : BitVec 16) : Statement (.csrrd b) :=
  of_fields .r rfl (by decide) (by simp [Machine.UnusedFieldsZero]) rfl

theorem coefwr (a : BitVec 8) (b : BitVec 16) (imm : Word) : Statement (.coefwr a b imm) :=
  of_fields .abi rfl (by decide) (by simp [Machine.UnusedFieldsZero]) rfl

theorem init : Statement .init :=
  of_fields .z rfl (by decide) (by simp [Machine.UnusedFieldsZero]) rfl

theorem start : Statement .start :=
  of_fields .z rfl (by decide) (by simp [Machine.UnusedFieldsZero]) rfl

theorem rxframe : Statement .rxframe :=
  of_fields .z rfl (by decide) (by simp [Machine.UnusedFieldsZero]) rfl

theorem rxframet : Statement .rxframet :=
  of_fields .z rfl (by decide) (by simp [Machine.UnusedFieldsZero]) rfl

theorem shutdown : Statement .shutdown :=
  of_fields .z rfl (by decide) (by simp [Machine.UnusedFieldsZero]) rfl

theorem pdmword (imm : Word) : Statement (.pdmword imm) :=
  of_fields .i rfl (by decide) (by simp [Machine.UnusedFieldsZero]) rfl

theorem handoff : Statement .handoff :=
  of_fields .z rfl (by decide) (by simp [Machine.UnusedFieldsZero]) rfl

theorem rxexit : Statement .rxexit :=
  of_fields .z rfl (by decide) (by simp [Machine.UnusedFieldsZero]) rfl

theorem blkreq : Statement .blkreq :=
  of_fields .z rfl (by decide) (by simp [Machine.UnusedFieldsZero]) rfl

theorem blkpop : Statement .blkpop :=
  of_fields .z rfl (by decide) (by simp [Machine.UnusedFieldsZero]) rfl

theorem deint : Statement .deint :=
  of_fields .z rfl (by decide) (by simp [Machine.UnusedFieldsZero]) rfl

theorem chsel : Statement .chsel :=
  of_fields .z rfl (by decide) (by simp [Machine.UnusedFieldsZero]) rfl

theorem firblk : Statement .firblk :=
  of_fields .z rfl (by decide) (by simp [Machine.UnusedFieldsZero]) rfl

theorem s1step (a : BitVec 8) (imm : Word) : Statement (.s1step a imm) :=
  of_fields .ai rfl (by decide) (by simp [Machine.UnusedFieldsZero]) rfl

theorem s2step (a : BitVec 8) (imm : Word) : Statement (.s2step a imm) :=
  of_fields .ai rfl (by decide) (by simp [Machine.UnusedFieldsZero]) rfl

theorem s3step (a : BitVec 8) (imm : Word) : Statement (.s3step a imm) :=
  of_fields .ai rfl (by decide) (by simp [Machine.UnusedFieldsZero]) rfl

theorem dcoe : Statement .dcoe :=
  of_fields .z rfl (by decide) (by simp [Machine.UnusedFieldsZero]) rfl

theorem frmadd : Statement .frmadd :=
  of_fields .z rfl (by decide) (by simp [Machine.UnusedFieldsZero]) rfl

theorem frmtx : Statement .frmtx :=
  of_fields .z rfl (by decide) (by simp [Machine.UnusedFieldsZero]) rfl

theorem unwind : Statement .unwind :=
  of_fields .z rfl (by decide) (by simp [Machine.UnusedFieldsZero]) rfl

theorem drain : Statement .drain :=
  of_fields .z rfl (by decide) (by simp [Machine.UnusedFieldsZero]) rfl

end Sys2Proof.Laws.WordInTheMap
end

