-- ==== Sys2Proof/Tests/Slice0.lean ====
section
/-! SUPPORT. The model's own tests: the checks of WellFormed, the decoding of words written out from the spec,
one step at a time against the examples of 95_test_vectors.md and the rules, and for every statement with
hypotheses a state and operands that meet them. -/

set_option maxRecDepth 4000
set_option Elab.async false

namespace Sys2Proof.Tests
open Machine

/-! ### WellFormed: each check refuses an ill-formed term (30_encoding.md R125) -/

theorem test_cfgwr_reserved_index : (Instr.cfgwr 0x06 1).wellFormed = false := by decide
theorem test_cfgwr_reserved_middle : (Instr.cfgwr 0x14 1).wellFormed = false := by decide
theorem test_csrrd_reserved_index : (Instr.csrrd 0x4E).wellFormed = false := by decide
theorem test_csrrd_reserved_gap : (Instr.csrrd 0x30).wellFormed = false := by decide
theorem test_coefwr_stage_0 : (Instr.coefwr 0 0 1).wellFormed = false := by decide
theorem test_coefwr_tap_256 : (Instr.coefwr 1 256 1).wellFormed = false := by decide
theorem test_s1step_channel_16 : (Instr.s1step 16 0).wellFormed = false := by decide
theorem test_s2step_channel_16 : (Instr.s2step 16 0).wellFormed = false := by decide
theorem test_s3step_channel_255 : (Instr.s3step 255 0).wellFormed = false := by decide
theorem test_wellFormed_bounds :
    (Instr.cfgwr 0x2F 1).wellFormed = true ∧ (Instr.csrrd 0x4D).wellFormed = true ∧
    (Instr.coefwr 3 255 1).wellFormed = true ∧ (Instr.s3step 15 0).wellFormed = true := by decide

/-! ### Decoding, every operation, words written out from 30_encoding.md R118 to R121 -/

/-- V-ENC-1: one word of each format. -/
theorem test_decode_formats :
    decodeTableWord 64 0x0100000000000000 = some .reset ∧
    decodeTableWord 64 0x1000000012345678 = some (.pdmword 0x12345678) ∧
    decodeTableWord 64 0x0300004500000000 = some (.csrrd 0x45) ∧
    decodeTableWord 64 0x0200000D00000006 = some (.cfgwr 0x0D 6) ∧
    decodeTableWord 64 0x26030000FFFFFFFF = some (.s2step 3 0xFFFFFFFF) ∧
    decodeTableWord 64 0x04010025FFFFFFFB = some (.coefwr 1 37 0xFFFFFFFB) := by decide +kernel

/-- V-ENC-2: the host's operations without operands. -/
theorem test_decode_host :
    decodeTableWord 64 0x0500000000000000 = some .init ∧ decodeTableWord 64 0x0600000000000000 = some .start ∧
    decodeTableWord 64 0x0700000000000000 = some .rxframe ∧
    decodeTableWord 64 0x0800000000000000 = some .rxframet ∧
    decodeTableWord 64 0x0900000000000000 = some .shutdown := by decide +kernel

/-- V-ENC-2: producer and consumer. -/
theorem test_decode_agents :
    decodeTableWord 64 0x1100000000000000 = some .handoff ∧
    decodeTableWord 64 0x1200000000000000 = some .rxexit ∧
    decodeTableWord 64 0x2000000000000000 = some .blkreq ∧
    decodeTableWord 64 0x2100000000000000 = some .blkpop ∧
    decodeTableWord 64 0x2200000000000000 = some .deint ∧
    decodeTableWord 64 0x2300000000000000 = some .chsel ∧
    decodeTableWord 64 0x2400000000000000 = some .firblk ∧
    decodeTableWord 64 0x2800000000000000 = some .dcoe ∧
    decodeTableWord 64 0x2900000000000000 = some .frmadd ∧
    decodeTableWord 64 0x2A00000000000000 = some .frmtx ∧
    decodeTableWord 64 0x2B00000000000000 = some .unwind ∧
    decodeTableWord 64 0x2C00000000000000 = some .drain := by decide +kernel

/-- The other two unit operations, with every bit of the operands in use. -/
theorem test_decode_units :
    decodeTableWord 64 0x250F000080000001 = some (.s1step 15 0x80000001) ∧
    decodeTableWord 64 0x270A00007FFFFFFE = some (.s3step 10 0x7FFFFFFE) := by decide +kernel

/-- V-ENC-3: reserved words. -/
theorem test_decode_reserved :
    ([0x0000000000000000, 0x0100000000000001, 0x0200000600000001, 0x0300004E00000000, 0x0304004500000000,
      0x0404000000000000, 0x0401010000000000, 0x2510000000000000].all
      fun w => (decodeTableWord 64 w).isNone) = true := by decide +kernel

/-! ### States and observations -/

/-- The small configuration (95_test_vectors.md section 10). -/
def cfgSmall : CfgRegs :=
  { CfgRegs.reset with nIn := 1, nOut := 1, nStages := 2, spf := 1, nfb := 1,
                       s2 := { taps := 2, dec := 2, shr := 0, sw := 2 } }

/-- Two channels, three stages, the DC filter on. -/
def cfgThree : CfgRegs :=
  { CfgRegs.reset with nIn := 2, nOut := 2, nStages := 3, ctrl := 4, spf := 2, nfb := 2,
                       s2 := { taps := 2, dec := 2, shr := 0, sw := 2 },
                       s3 := { taps := 2, dec := 2, shr := 1, sw := 2 } }

/-- The largest configuration: 96 words in a block. -/
def cfgLarge : CfgRegs :=
  { CfgRegs.reset with nIn := 16, nOut := 16, nStages := 2, spf := 65535, nfb := 255,
                       s2 := { taps := 256, dec := 6, shr := 63, sw := 256 } }

/-- A memory whose first `n` words hold `f`. -/
def filled (n : Nat) (f : Nat → Word) : Memory := (List.range n).map fun i => (i, f i)

/-- Armed with a configuration, all coefficients 1. -/
def armed (g : CfgRegs) : State :=
  { State.reset with cfg := g, coef1 := filled 256 fun _ => 1, coef2 := filled 256 fun _ => 1,
                     coef3 := filled 256 fun _ => 1 }.afterInit

/-- Running, the consumer at `q`. -/
def runningAt (g : CfgRegs) (q : CSeq) : State := { armed g with rxState := .running, cseq := q }

/-- The first half full of words, held by the consumer. -/
def holding (g : CfgRegs) (q : CSeq) (f : Nat → Word) : State :=
  { runningAt g q with buf := #v[filled 96 f, []], own := #v[.consumer, .producer] }

/-- A state with a fatal stop. -/
def stoppedFatally : State := (armed cfgSmall).raiseFatal .droppedBlock

/-- What an observer says of the next state; false when there is none. -/
def after (i : Instr) (s : State) (p : State → Bool) : Bool :=
  match exec i s with
  | .next t => p t
  | _ => false

theorem exists_of_after {i : Instr} {s : State} {p : State → Bool} (h : after i s p = true) :
    ∃ t, exec i s = .next t ∧ p t = true := by
  unfold after at h
  split at h
  · exact ⟨_, ‹_›, h⟩
  · cases h

/-- The same of a step that an agenda's first word makes. -/
def afterStep (s : State) (p : State → Bool) : Bool :=
  match step s with
  | .next t => p t
  | _ => false

theorem exists_of_afterStep {s : State} {p : State → Bool} (h : afterStep s p = true) :
    ∃ t, step s = .next t ∧ p t = true := by
  unfold afterStep at h
  split at h
  · exact ⟨_, ‹_›, h⟩
  · cases h

/-! ### One step each, against the vectors and the rules -/

/-- V-INIT-2: RESET returns to idle with STATUS 0. -/
theorem test_reset : after .reset stoppedFatally
    (fun t => t.rxState == .idle && t.status == 0 && t.fatalCause == 0) = true := by decide +kernel

/-- R281: 32 bits, the register named; V-ENC-1's register. -/
theorem test_cfgwr : after (.cfgwr 0x0D 6) State.reset
    (fun t => t.cfg.s2.dec == 6 && t.cfg.s3.dec == 0 && t.cfg.nIn == 0) = true := by decide +kernel

/-- V-INIT-2: no write after a fatal stop. -/
theorem test_cfgwr_fatal : after (.cfgwr 0x00 1) (State.reset.raiseFatal .badNIn)
    (fun t => t.cfg.nIn == 0) = true := by decide +kernel

/-- V-INIT-2: STATUS reads 1, FATAL_CAUSE the code. -/
theorem test_csrrd :
    after (.csrrd 0x46) (State.reset.raiseFatal .badNIn) (fun t => t.returned == [.csr 1]) = true ∧
    after (.csrrd 0x47) (State.reset.raiseFatal .badNIn) (fun t => t.returned == [.csr 0x10]) = true := by
  decide +kernel

/-- R285: stage 1 takes the low half, sign-extended; -5 as in V-ENC-1. -/
theorem test_coefwr_stage1 : after (.coefwr 1 37 0x0000FFFB) State.reset
    (fun t => t.coef1 == [(37, 0xFFFFFFFB#32)] && t.coef2 == []) = true := by decide +kernel

/-- R285: stages 2 and 3 take all 32 bits. -/
theorem test_coefwr_stage3 : after (.coefwr 3 255 0x0000FFFB) State.reset
    (fun t => t.coef3 == [(255, 0x0000FFFB#32)] && t.coef1 == []) = true := by decide +kernel

/-- V-INIT-1: the legal base (here with one channel, V-CR-1): armed, WR_POS 1. -/
theorem test_init : after .init { State.reset with cfg := cfgSmall }
    (fun t => t.rxState == .armed && t.wrPos == 1 && t.status == 0) = true := by decide +kernel

/-- V-INIT-1: CFG_CTRL = 8 is 0x1C; CFG_N_IN = 3 and CFG_S2_DEC = 4 is 0x10. -/
theorem test_init_fails :
    after .init { State.reset with cfg := { cfgSmall with ctrl := 8 } }
      (fun t => t.rxState == .idle && t.status == 1 && t.fatalCause == 0x1C) = true ∧
    after .init { State.reset with cfg := { cfgSmall with nIn := 3, s2 := { cfgSmall.s2 with dec := 4 } } }
      (fun t => t.status == 1 && t.fatalCause == 0x10) = true := by decide +kernel

/-- V-CR-1. -/
theorem test_start : after .start (armed cfgSmall)
    (fun t => t.rxState == .running && t.cseq == .req) = true := by decide +kernel

/-- V-CR-1, and R258, R260 with the codes of R36. -/
theorem test_link_commands :
    after .rxframe (runningAt cfgSmall .wait) (fun t => t.hostPend.code == 1) = true ∧
    after .rxframet (runningAt cfgSmall .wait) (fun t => t.hostPend.code == 2) = true ∧
    after .shutdown (runningAt cfgSmall .wait) (fun t => t.hostPend.code == 3) = true := by decide +kernel

/-- V-CR-2: the second word completes the block, nothing was requested, the stop is fatal. -/
theorem test_pdmword_dropped :
    after (.pdmword 0x22222222)
      { runningAt cfgSmall .req with wrPos := 0, buf := #v[[(1, 0x11111111)], []] }
      (fun t => t.wrPos == 1 && t.fillSel == 1 && t.fifo == [] && t.status == 1 && t.fatalCause == 1 &&
        t.buf[0] == [(0, 0x22222222#32), (1, 0x11111111#32)]) = true := by decide +kernel

/-- V-OVR-2: the word written into a half the consumer holds sets OVERRUN and is stored. -/
theorem test_pdmword_overrun :
    after (.pdmword 5) { runningAt cfgSmall .deint with own := #v[.consumer, .producer], wrPos := 1 }
      (fun t => t.status == 2 && t.wrPos == 0 && t.buf[0] == [(1, 5#32)]) = true := by decide +kernel

/-- R221, as in V-OVR-1: the pending half is queued. -/
theorem test_handoff :
    after .handoff { runningAt cfgSmall .deint with fifo := [0], hoPend := true, hoHalf := 1 }
      (fun t => t.fifo == [0, 1] && !t.hoPend && t.own[1] == .queued) = true := by decide +kernel

/-- R224. -/
theorem test_rxexit : after .rxexit { runningAt cfgSmall .drain with rxState := .shuttingDown }
    (fun t => t.rxState == .stopped) = true := by decide +kernel

/-- V-CR-1: the credit is 1; V-OVR-1: thread-driven it stays 0. -/
theorem test_blkreq :
    after .blkreq (runningAt cfgSmall .req) (fun t => t.cseq == .wait && t.credit == 1) = true ∧
    after .blkreq (runningAt { cfgSmall with ctrl := 1 } .req)
      (fun t => t.cseq == .wait && t.credit == 0) = true := by decide +kernel

/-- V-CR-4. -/
theorem test_blkpop :
    after .blkpop { runningAt cfgSmall .wait with fifo := [1, 0], own := #v[.queued, .queued] }
      (fun t => t.cseq == .deint && t.cur == 1 && t.fifo == [0] && t.own[1] == .consumer &&
        t.own[0] == .queued) = true := by decide +kernel

/-- V-DEINT-6: a whole block of three groups of two words. -/
theorem test_deint :
    after .deint { runningAt { cfgThree with s2 := { cfgThree.s2 with dec := 3 } } .deint with
      buf := #v[[(0, 0x0000FFFF), (1, 0xFFFF0000), (2, 0x55555555), (3, 0xAAAAAAAA), (4, 0x12345678),
        (5, 0x9ABCDEF0)], []] }
      (fun t => t.buf[0] == [(0, 0x00FFFF00#32), (1, 0x00FFFF00#32), (2, 0xFFFF0000#32), (3, 0x0000FFFF#32),
        (4, 0x46EC46EC#32), (5, 0x1416BEBC#32)]) = true := by decide +kernel

/-- V-DEINT-3, V-DEINT-4, V-DEINT-5: one row for 4, 8 and 16 channels. -/
theorem test_deint_groups :
    deintGroup 4 [0x01234567, 0x89ABCDEF, 0xFEDCBA98, 0x76543210] =
      [0x5555AAAA, 0x3333CCCC, 0x0F0FF0F0, 0x00FFFF00] ∧
    deintGroup 8 [0x52E6B438, 0xF2A74DE4, 0x269E0D37, 0x6513270E, 0xA6A3A450, 0x0C5C7FD0, 0x128B2F33,
        0xD23F0824] =
      [0x063E4274, 0xCCD7C2FC, 0x67FBAE25, 0x12610E66, 0xB854179C, 0x7D9AE235, 0xCB081708, 0x6D40E148] ∧
    deintGroup 16 ([0xFFFF0000] ++ List.replicate 14 0 ++ [0x0000FFFF]) =
      List.replicate 16 0x80000001 := by decide +kernel

/-- V-CHSEL-1. -/
theorem test_chsel :
    after .chsel (holding { cfgThree with nIn := 4, chmap := cfgThree.chmap.set 0 2 |>.set 1 0 } .chsel
      fun i => BitVec.ofNat 32 (100 + i))
      (fun t => t.ob == [(0, 102#32), (1, 106#32), (2, 100#32), (3, 104#32)] && t.own[0] == .producer &&
        t.cseq == .fir) = true := by decide +kernel

/-- V-CR-1: the first frame's block; Stage 2 emits 96. -/
theorem test_firblk :
    after .firblk { runningAt cfgSmall .fir with ob := [(0, 0), (1, 0)] }
      (fun t => t.ch[0].smp == 96 && t.smpValid && t.cseq == .dcoe && t.ch[1].smp == 0)
      = true := by decide +kernel

/-- V-S1-2, V-S1-4: coefficients `a + 1`, from INIT. -/
theorem test_s1step :
    after (.s1step 0 0) { armed cfgSmall with coef1 := filled 256 fun a => BitVec.ofNat 32 (a + 1) }
      (fun t => t.returned == [.sample (some 416)]) = true ∧
    after (.s1step 0 0x80000000) { armed cfgSmall with coef1 := filled 256 fun a => BitVec.ofNat 32 (a + 1) }
      (fun t => t.returned == [.sample (some 414)] && t.ch[0].h1[0] == 0x80000000#32 &&
        t.ch[0].h1[1] == 0x55555555#32) = true := by decide +kernel

/-- V-S2-2, sixth input: `ACC2` 1037, phase 2; emits 343. -/
theorem test_s2step :
    after (.s2step 0 11)
      { armed { cfgSmall with s2 := { taps := 5, dec := 3, shr := 2, sw := 5 } } with
        coef2 := [(0, 3), (1, -1), (2, 4), (3, 1), (4, -5)],
        ch := (armed cfgSmall).ch.set 0 { Channel.afterInit with
          st2 := { x := (((FirState.zero.x.set 0 (-9)).set 1 7).set 2 300).set 3 (-200)
                   acc := 1037, ph := 2 } } }
      (fun t => t.returned == [.sample (some 343)] && t.ch[0].st2.acc == 0 && t.ch[0].st2.ph == 0 &&
        t.status == 0) = true := by decide +kernel

/-- V-S2-5, first row: the clamp and its flag. -/
theorem test_s2step_saturates :
    after (.s2step 0 0x7FFFFFFF)
      { armed cfgSmall with
        coef2 := [(0, 0x7FFFFFFF), (1, 0x7FFFFFFF)],
        ch := (armed cfgSmall).ch.set 0 { Channel.afterInit with
          st2 := { x := FirState.zero.x.set 0 0x7FFFFFFF, acc := 4611686014132420609, ph := 1 } } }
      (fun t => t.returned == [.sample (some 0x7FFFFFFF)] && t.status == 4) = true := by decide +kernel

/-- V-S2-3 as a Stage-3 vector (R186), first input: nothing is emitted, `PH3` counts. -/
theorem test_s3step :
    after (.s3step 1 1) (armed cfgThree)
      (fun t => t.returned == [.sample none] && t.ch[1].st3.ph == 1 && t.ch[1].st3.x[0] == 1#32 &&
        t.ch[1].st2.ph == 0 && t.ch[0].st3.ph == 0) = true := by decide +kernel

/-- V-DC-1, second row: 984. -/
theorem test_dcoe :
    after .dcoe { runningAt { cfgSmall with ctrl := 4 } .dcoe with
      ch := (armed cfgSmall).ch.set 0 { Channel.afterInit with
        dcAcc := 0x000003E800000000, dcPrevX := 1000, smp := 1000 } }
      (fun t => t.ch[0].dcAcc == 0x000003D860000000#64 && t.ch[0].smp == 984 && t.status == 0) = true := by
  decide +kernel

/-- V-DC-4, third row: the sum does not fit, the accumulator wraps, the flag is set. -/
theorem test_dcoe_overflow :
    after .dcoe { runningAt { cfgSmall with ctrl := 4 } .dcoe with
      ch := (armed cfgSmall).ch.set 0 { Channel.afterInit with
        dcAcc := 0x7FFFFFFF00000000, dcPrevX := 0x7FFFFFFF, smp := 0x80000000 } }
      (fun t => t.ch[0].dcAcc == 0x7E00000004000000#64 && t.ch[0].smp == 2113929216 && t.status == 0x10)
      = true := by decide +kernel

/-- V-FRM-1, second column: the frame is full. -/
theorem test_frmadd :
    after .frmadd { runningAt cfgThree .frmadd with
      frmCol := 1, frm := [(0, 7), (2, -3)],
      ch := ((armed cfgThree).ch.set 0 { Channel.afterInit with smp := 8 }).set 1
        { Channel.afterInit with smp := -4 } }
      (fun t => t.frm == [(0, 7#32), (1, 8#32), (2, -3#32), (3, -4#32)] && t.frmCol == 0 &&
        t.cseq == .frmtx) = true := by decide +kernel

/-- V-FRM-1: the two orders. -/
theorem test_frmtx :
    after .frmtx { runningAt cfgThree .frmtx with
      hostPend := .rxframe, frm := [(0, 7), (1, 8), (2, -3), (3, -4)] }
      (fun t => t.returned == [.frame [7, 8, -3, -4]] && t.frmBuf == 1 && t.cseq == .req) = true ∧
    after .frmtx { runningAt cfgThree .frmtx with
      hostPend := .rxframet, frm := [(0, 7), (1, 8), (2, -3), (3, -4)] }
      (fun t => t.returned == [.frame [7, -3, 8, -4]] && t.hostPend == .none) = true := by decide +kernel

/-- R255: the host asks for a shutdown. -/
theorem test_frmtx_shutdown :
    after .frmtx { runningAt cfgThree .frmtx with hostPend := .shutdown }
      (fun t => t.cseq == .unwind && t.hostPend == .shutdown && t.returned == []) = true := by
  decide +kernel

/-- R262. -/
theorem test_unwind : after .unwind (runningAt cfgSmall .unwind)
    (fun t => t.rxSdFlag && t.cseq == .drain) = true := by decide +kernel

/-- R263: one block discarded; then, everything quiet, the host released. -/
theorem test_drain :
    after .drain { runningAt cfgSmall .drain with fifo := [1], own := #v[.producer, .queued] }
      (fun t => t.fifo == [] && t.own[1] == .producer && t.cseq == .drain) = true ∧
    after .drain { runningAt cfgSmall .drain with rxState := .stopped, hostPend := .shutdown }
      (fun t => t.cseq == .off && t.hostPend == .none && t.returned == [.shutdownDone]) = true := by
  decide +kernel

/-- What the host's two definitions do together: the word presented is the operation the next step performs. -/
theorem test_withFetchWord :
    afterStep (State.reset.withFetchWord 64 0x0200000D00000006)
      (fun t => t.cfg.s2.dec == 6 && t.agenda == []) = true ∧
    step (State.reset.withFetchWord 64 0x0304004500000000) =
      .refused (.reservedWord .nonzeroUnusedField) := by
  constructor
  · decide +kernel
  · rfl

/-! ### Witnesses: for each statement with hypotheses, a state and operands that meet them -/

theorem legal_of {g : CfgRegs} (h : initFailure g = none) : LegalCfg g := (initFailure_eq_none g).1 h

theorem legal_small : LegalCfg cfgSmall := legal_of (by decide +kernel)
theorem legal_three : LegalCfg cfgThree := legal_of (by decide +kernel)
theorem legal_large : LegalCfg cfgLarge := legal_of (by decide +kernel)

theorem read_range (f : Nat → Word) (n : Nat) : ∀ k i,
    Memory.read ((List.range' k n).map fun i => (i, f i)) i =
      if k ≤ i ∧ i < k + n then some (f i) else none := by
  induction n with
  | zero => intro k i; simp
  | succ n ih =>
    intro k i
    rw [List.range'_succ, List.map_cons, Memory.read, ih]
    grind

/-- The first words of a filled memory have values. -/
theorem written_filled {n k : Nat} (f : Nat → Word) (h : k ≤ n) : Written (filled n f) k := fun i hi => by
  unfold filled
  rw [List.range_eq_range', read_range, if_pos (by omega)]
  rfl

theorem witness_DecodeInvertsEncode : (Instr.cfgwr 0x2F 1).wellFormed = true ∧
    (Instr.coefwr 3 255 1).wellFormed = true ∧ (Instr.s2step 15 1).wellFormed = true := by decide

theorem witness_EncodeInvertsDecode : decode 0x0300004D00000000#64 = .ok (.csrrd 0x4D) := by rfl

/-- One word for each clause. -/
theorem witness_ReservedWordsAreRefused :
    (∀ f, (opOf 0x2D00000000000000#64, f) ∉ operationCodes) ∧
    ((0x03, .r) ∈ operationCodes ∧ opOf 0x0304004500000000#64 = 0x03 ∧
      ¬ UnusedFieldsZero .r 0x0304004500000000#64) ∧
    ((0x25, .ai) ∈ operationCodes ∧ opOf 0x2510000000000000#64 = 0x25 ∧
      UnusedFieldsZero .ai 0x2510000000000000#64 ∧ OperandReserved 0x2510000000000000#64) ∧
    (opOf 0x250F000000000000#64 = 0x25 ∧ UnusedFieldsZero .ai 0x250F000000000000#64 ∧
      ¬ OperandReserved 0x250F000000000000#64) := by
  refine ⟨fun f => by cases f <;> decide +kernel, ?_, ?_, ?_⟩ <;>
    simp only [UnusedFieldsZero, OperandReserved] <;> decide +kernel

theorem witness_StepPerformsTheDecodedOperation :
    ({ State.reset with agenda := [0x0500000000000000#64] }).agenda = 0x0500000000000000#64 :: [] ∧
    decode 0x0500000000000000#64 = .ok .init ∧ State.reset.agenda = [] := ⟨rfl, rfl, rfl⟩

theorem witness_DisabledOperationsChangeNothing :
    Instr.start.wellFormed = true ∧ acts .start State.reset = false ∧
    acts .rxframe State.reset = false ∧ State.reset.hostPend = .none := by decide +kernel

/-- A writable index at each end of each range, and a read-only one. -/
theorem witness_ConfigurationWrite :
    ([0x00, 0x05, 0x0C, 0x13, 0x20, 0x2F, 0x08, 0x40].all fun b => !reservedIndex b) = true ∧
    State.reset.rxState = .idle ∧ State.reset.fatal = false := by decide +kernel

theorem witness_RegisterRead : reservedIndex 0x4D = false ∧ reservedIndex 0x2F = false := by decide

theorem witness_CoefficientWrite : State.reset.rxState = .idle ∧ State.reset.fatal = false := by
  decide +kernel

theorem witness_LockedCommandsAreIgnored :
    ¬ (((armed cfgSmall).rxState = .idle ∨ (armed cfgSmall).rxState = .stopped) ∧
      (armed cfgSmall).fatal = false) ∧
    ¬ (State.reset.rxState = .armed ∧ State.reset.fatal = false) ∧
    reservedIndex 0x05 = false ∧ legalStage 3 = true ∧ legalTap 255 = true := by decide +kernel

/-- Checks that pass, the first that fails, the last that fails, and INIT away from idle and stopped. -/
theorem witness_InitChecksInOrder :
    (State.reset.rxState = .idle ∧ State.reset.fatal = false) ∧ LegalCfg cfgLarge ∧
    (∃ p rest, initConditions State.reset.cfg = [] ++ p :: rest ∧ ¬ p) ∧
    (∃ passed p, initConditions { cfgSmall with ctrl := 8 } = passed ++ p :: [] ∧ (∀ q ∈ passed, q) ∧
      ¬ p) ∧
    (armed cfgSmall).rxState = .armed := by
  refine ⟨by decide +kernel, legal_large, ⟨_, _, rfl, by decide +kernel⟩, ?_, rfl⟩
  refine ⟨(initConditions cfgSmall).take 12, _, rfl,
    fun q hq => legal_small q (List.mem_of_mem_take hq), fun h => ?_⟩
  exact absurd (h 3 (by decide)) (by decide +kernel)

theorem witness_StartBeginsBothContexts :
    ((armed cfgSmall).rxState = .armed ∧ (armed cfgSmall).fatal = false) ∧
    State.reset.rxState ≠ .armed := by decide +kernel

theorem witness_LinkCommandsWait :
    (armed cfgSmall).hostPend = .none ∧ (armed cfgSmall).rxState = .armed ∧
    (armed cfgSmall).fatal = false ∧ State.reset.hostPend = .none ∧ State.reset.rxState = .idle := by
  decide +kernel

theorem witness_LinkMisuseFaults : ({ armed cfgSmall with hostPend := .rxframe }).hostPend ≠ .none := by
  decide +kernel

/-- The first word of the largest block and the last but one of the smallest. -/
theorem witness_WordInsideABlock :
    (TakesWord (runningAt cfgLarge .req) ∧ (runningAt cfgLarge .req).wrPos = 95) ∧
    TakesWord (runningAt cfgSmall .req) ∧ 0 < (runningAt cfgSmall .req).wrPos.toNat := by
  unfold TakesWord; decide +kernel

/-- The last word of a block is next. -/
def lastWord (g : CfgRegs) (credit : BitVec 2) (queue : List Half) : State :=
  { runningAt g .wait with wrPos := 0, credit := credit, fifo := queue }

/-- The last word of a block, with credit, in the smallest and the largest configuration. -/
theorem witness_BlockHandedOffWithCredit : ∀ g ∈ [cfgSmall, cfgLarge],
    TakesWord (lastWord g 1 []) ∧ (lastWord g 1 []).wrPos = 0 ∧ 1 ≤ g.BW ∧ g.BW ≤ 96 ∧
    g.threadMode = false ∧ 0 < (lastWord g 1 []).credit.toNat := by unfold TakesWord; decide +kernel

/-- Both drop policies. -/
theorem witness_BlockDroppedWithoutCredit :
    (∀ g ∈ [cfgSmall, { cfgSmall with ctrl := 2 }],
      TakesWord (lastWord g 0 []) ∧ (lastWord g 0 []).wrPos = 0 ∧ 1 ≤ g.BW ∧ g.BW ≤ 96 ∧
      g.threadMode = false ∧ (lastWord g 0 []).credit = 0) ∧
    cfgSmall.countAndDrop = false ∧ ({ cfgSmall with ctrl := 2 } : CfgRegs).countAndDrop = true := by
  unfold TakesWord; decide +kernel

/-- One queued block, and a full FIFO. -/
theorem witness_ThreadModeHandOff : ∀ q ∈ ([[0], [0, 1]] : List (List Half)),
    let g := { cfgSmall with ctrl := 1 }
    TakesWord (lastWord g 0 q) ∧ (lastWord g 0 q).wrPos = 0 ∧ 1 ≤ g.BW ∧ g.BW ≤ 96 ∧
    g.threadMode = true := by unfold TakesWord; decide +kernel

theorem witness_ShutdownFlagSeenOnAWord :
    let s := { runningAt cfgSmall .drain with rxSdFlag := true }
    s.rxState = .running ∧ s.hoPend = false ∧ s.fatal = false ∧ s.rxSdFlag = true := by decide +kernel

theorem witness_PendingHandOffCompletes :
    let s := { runningAt { cfgSmall with ctrl := 1 } .deint with hoPend := true, fifo := [0] }
    (s.hoPend = true ∧ s.fifo.length < 2 ∧ s.fatal = false) ∧ State.reset.hoPend = false := by
  decide +kernel

theorem witness_ProducerExit :
    let s := { runningAt cfgSmall .drain with rxState := .shuttingDown }
    (s.rxState = .shuttingDown ∧ s.fatal = false) ∧ State.reset.rxState ≠ .shuttingDown := by
  decide +kernel

theorem witness_BlockRequest :
    ((runningAt cfgSmall .req).cseq = .req ∧ (runningAt cfgSmall .req).fatal = false) ∧
    cfgSmall.threadMode = false ∧ ({ cfgSmall with ctrl := 1 } : CfgRegs).threadMode = true ∧
    State.reset.cseq ≠ .req := by decide +kernel

theorem witness_BlockPop :
    let s := { runningAt cfgSmall .wait with fifo := [1] }
    s.cseq = .wait ∧ s.fatal = false ∧ s.fifo = 1 :: [] ∧ (runningAt cfgSmall .wait).fifo = [] := by
  decide +kernel

theorem written_holding (g : CfgRegs) (q : CSeq) (f : Nat → Word) (h : g.BW ≤ 96) :
    Written (holding g q f).buf[(0 : Half)] g.BW := by
  have : (holding g q f).buf[(0 : Half)] = filled 96 f := rfl
  rw [this]; exact written_filled f h

theorem fatal_holding (g : CfgRegs) (q : CSeq) (f : Nat → Word) : (holding g q f).fatal = false := by
  have : (holding g q f).status = 0 := by show (0 : BitVec 5) &&& 1 = 0; decide
  unfold State.fatal State.flag; rw [this]; decide

/-- The smallest and the largest block. -/
theorem witness_DeinterleaveHalf : ∀ g ∈ [cfgSmall, cfgLarge],
    (holding g .deint fun _ => 5).cseq = .deint ∧ (holding g .deint fun _ => 5).fatal = false ∧
    (holding g .deint fun _ => 5).cur = 0 ∧ LegalCfg g ∧
    Written (holding g .deint fun _ => 5).buf[(0 : Half)] g.BW := fun g hg => by
  have h : ∀ g ∈ [cfgSmall, cfgLarge], initFailure g = none ∧ g.BW ≤ 96 := by decide +kernel
  exact ⟨rfl, fatal_holding g _ _, rfl, legal_of (h g hg).1, written_holding g _ _ (h g hg).2⟩

theorem witness_DeinterleaveRoundTrip :
    16 ∈ [1, 2, 4, 8, 16] ∧ (List.replicate 16 (1 : Word)).length = 16 := by decide

theorem witness_DeinterleaveIsTheNetwork :
    (List.replicate 16 (1 : Word)).length = 2 ^ 4 ∧ [(1 : Word)].length = 2 ^ 0 ∧ 511 < 32 * 2 ^ 4 := by
  decide

theorem witness_ChannelSelection : (∀ g ∈ [cfgSmall, cfgLarge],
    (holding g .chsel fun _ => 5).cseq = .chsel ∧ (holding g .chsel fun _ => 5).fatal = false ∧
    (holding g .chsel fun _ => 5).cur = 0 ∧ LegalCfg g ∧
    Written (holding g .chsel fun _ => 5).buf[(0 : Half)] g.BW) ∧
    State.reset.cseq ≠ .chsel := by
  refine ⟨fun g hg => ?_, by decide⟩
  have h : ∀ g ∈ [cfgSmall, cfgLarge], initFailure g = none ∧ g.BW ≤ 96 := by decide +kernel
  exact ⟨rfl, fatal_holding g _ _, rfl, legal_of (h g hg).1, written_holding g _ _ (h g hg).2⟩

/-- All coefficients written; the last one not; another state of the producer. -/
theorem witness_StageOneStep :
    (Written (armed cfgSmall).coef1 256 ∧ (armed cfgSmall).rxState = .armed ∧
      (armed cfgSmall).fatal = false) ∧
    ¬ Written ({ armed cfgSmall with coef1 := filled 255 fun _ => 1 } : State).coef1 256 ∧
    State.reset.rxState = .idle := by
  refine ⟨⟨written_filled _ (le_refl 256), rfl, by decide +kernel⟩, fun h => ?_, rfl⟩
  exact absurd (h 255 (by decide)) (by decide +kernel)

theorem witness_StageOneRange : ∀ a, -32768 ≤ (fun _ : Nat => (-32768 : Int)) a ∧
    (fun _ : Nat => (-32768 : Int)) a ≤ 32767 := by simp

/-- A memory with fewer words than asked for. -/
theorem not_written_filled {n m : Nat} {f : Nat → Word} (h : (filled n f).read n = none) (hm : n < m) :
    ¬ Written (filled n f) m := fun hw => by
  have := hw n hm
  rw [h] at this; cases this

/-- A step that emits nothing and one that emits; the last coefficient unwritten, with two taps and with 256;
another state of the producer. -/
theorem witness_StageTwoStep : (armed cfgSmall).rxState = .armed ∧ (armed cfgSmall).fatal = false ∧
    (∀ ph ∈ ([0, 1] : List (BitVec 3)), FirReady (armed cfgSmall).coef2 (armed cfgSmall).cfg.s2.params
      { FirState.zero with ph := ph }) ∧
    (cfgSmall.T2 ≤ 256 ∧ ¬ Written (filled 1 fun _ => 1) cfgSmall.T2) ∧
    (cfgLarge.T2 ≤ 256 ∧ ¬ Written (filled 255 fun _ => 1) cfgLarge.T2) ∧
    State.reset.rxState = .idle :=
  ⟨rfl, by decide +kernel, fun ph h => ⟨.inl rfl, by decide, by decide, written_filled _ (by decide), by
    revert ph; decide +kernel⟩, ⟨by decide, not_written_filled (by decide) (by decide)⟩,
    ⟨by decide, not_written_filled (by decide +kernel) (by decide)⟩, rfl⟩

theorem witness_StageThreeStep :
    (armed cfgThree).rxState = .armed ∧ (armed cfgThree).fatal = false ∧
    (armed cfgThree).cfg.nStages.toNat = 3 ∧
    FirReady (armed cfgThree).coef3 (armed cfgThree).cfg.s3.params (armed cfgThree).ch[3].st3 ∧
    (cfgThree.T3 ≤ 256 ∧ ¬ Written (filled 1 fun _ => 1) cfgThree.T3) ∧
    (armed cfgSmall).cfg.nStages.toNat ≠ 3 :=
  ⟨rfl, by decide +kernel, rfl, ⟨.inl rfl, by decide, by decide, written_filled _ (by decide), by
    decide +kernel⟩, ⟨by decide, not_written_filled (by decide) (by decide)⟩, by decide⟩

theorem witness_RoundingShift : 1 ≤ 63 ∧ 63 ≤ 63 ∧ rshr (2 ^ 70) 63 = 128 ∧ rshr (-2 ^ 70) 63 = -128 := by
  decide +kernel

theorem witness_PolyphaseEqualsDirectForm :
    FirReady (filled 256 fun _ => 1) { taps := 256, dec := 6, shr := 63 } FirState.zero ∧
    FirState.zero.acc = 0 ∧ FirState.zero.ph = 0 ∧ (List.replicate 6 (1 : Word)).length = 6 :=
  ⟨⟨.inr (.inr rfl), by decide, by decide, written_filled _ (le_refl 256), by decide⟩, rfl, rfl, rfl⟩

/-- The state before the third row of V-DC-4, on channel 1. -/
def dcoeLeaves : State :=
  { runningAt cfgThree .dcoe with
    ch := (armed cfgThree).ch.set 1 { Channel.afterInit with
      dcAcc := 0x7FFFFFFF00000000, dcPrevX := 0x7FFFFFFF, smp := 0x80000000 } }

/-- The filter off; the filter on, without and with a sum that leaves 64 bits. -/
theorem witness_DcOffsetFilter :
    ((runningAt cfgSmall .dcoe).cseq = .dcoe ∧ (runningAt cfgSmall .dcoe).fatal = false ∧
      cfgSmall.dcoeEn = false) ∧
    ((runningAt cfgThree .dcoe).cseq = .dcoe ∧ (runningAt cfgThree .dcoe).fatal = false ∧
      cfgThree.dcoeEn = true ∧ dcoeColumnOverflows 2 (runningAt cfgThree .dcoe).ch = false) ∧
    (dcoeLeaves.cseq = .dcoe ∧ dcoeLeaves.fatal = false ∧ dcoeLeaves.cfg.dcoeEn = true ∧
      1 < dcoeLeaves.cfg.N_OUT ∧ (252 * dcoeLeaves.ch[1].dcAcc.toInt) / 256 +
        (dcoeLeaves.ch[1].smp.toInt - dcoeLeaves.ch[1].dcPrevX.toInt) * 2 ^ 32 < -2 ^ 63) ∧
    State.reset.cseq ≠ .dcoe := by decide +kernel

/-- V-DC-4 up to its second row. -/
theorem witness_DcOffsetTracksTheRecurrence : dcoeFits [0x7FFFFFFF, 0] := by
  simp only [dcoeFits]; decide +kernel

/-- A block in `OB`, the Stage-2 phases at `ph2`, the Stage-3 phases at `ph3`. -/
def blockReady (g : CfgRegs) (ph2 ph3 : BitVec 3) : State :=
  { runningAt g .fir with
    ob := filled 96 fun i => BitVec.ofNat 32 i,
    ch := Vector.replicate 16 { Channel.afterInit with
      st2 := { FirState.zero with ph := ph2 }, st3 := { FirState.zero with ph := ph3 } } }

/-- Two stages and three, each with the Stage-2 and the Stage-3 output due with the last pass and not due. -/
theorem witness_FilterBlock : LegalCfg cfgSmall ∧ LegalCfg cfgThree ∧
    ∀ g ∈ [cfgSmall, cfgThree], ∀ ph2 ∈ ([0, 1] : List (BitVec 3)), ∀ ph3 ∈ ([0, 1] : List (BitVec 3)),
      (blockReady g ph2 ph3).cseq = .fir ∧ (blockReady g ph2 ph3).fatal = false ∧
      CoefficientsWritten (blockReady g ph2 ph3) ∧ Written (blockReady g ph2 ph3).ob g.OBW ∧
      (∀ c : Fin 16, (blockReady g ph2 ph3).ch[c].st2.ph.toNat < g.D2) ∧
      (g.nStages.toNat = 3 → ∀ c : Fin 16, (blockReady g ph2 ph3).ch[c].st3.ph.toNat < g.D3) := by
  refine ⟨legal_small, legal_three, fun g hg ph2 h2 ph3 h3 =>
    ⟨rfl, ?_, ⟨written_filled _ (le_refl 256), ?_, ?_⟩, ?_, fun c => ?_, fun hn c => ?_⟩⟩
  · show ((0 : BitVec 5) &&& 1).getLsbD 0 = false; decide
  · exact written_filled _ ((by decide : ∀ g ∈ [cfgSmall, cfgThree], g.s2.taps.toNat ≤ 256) g hg)
  · exact fun _ => written_filled _ ((by decide : ∀ g ∈ [cfgSmall, cfgThree], g.s3.taps.toNat ≤ 256) g hg)
  · exact written_filled _ ((by decide : ∀ g ∈ [cfgSmall, cfgThree], g.OBW ≤ 96) g hg)
  · have h : ∀ g ∈ [cfgSmall, cfgThree], ∀ ph2 ∈ ([0, 1] : List (BitVec 3)), ph2.toNat < g.D2 := by decide
    simpa [blockReady] using h g hg ph2 h2
  · have h : ∀ g ∈ [cfgSmall, cfgThree], ∀ ph3 ∈ ([0, 1] : List (BitVec 3)), g.nStages.toNat = 3 →
      ph3.toNat < g.D3 := by decide
    simpa [blockReady] using h g hg ph3 h3 hn

/-- The same with a coefficient of each stage unwritten. -/
theorem witness_FilterBlock_unwritten :
    ¬ CoefficientsWritten { blockReady cfgThree 0 0 with coef1 := filled 255 fun _ => 1 } ∧
    ¬ CoefficientsWritten { blockReady cfgThree 0 0 with coef2 := filled 1 fun _ => 1 } ∧
    ¬ CoefficientsWritten { blockReady cfgThree 0 0 with coef3 := filled 1 fun _ => 1 } :=
  ⟨fun h => not_written_filled (by decide +kernel) (by decide) h.1,
    fun h => not_written_filled (by decide) (by decide) h.2.1,
    fun h => not_written_filled (by decide) (by decide) (h.2.2 rfl)⟩

/-- A column to add at position `k`. -/
def columnReady (k : BitVec 16) : State := { runningAt cfgThree .frmadd with frmCol := k, frmBuf := 1 }

/-- The last column of a frame, an earlier one, and another state of the consumer. -/
theorem witness_FrameColumnAdded : LegalCfg cfgThree ∧ (∀ s ∈ [columnReady 0, columnReady 1],
      s.cseq = .frmadd ∧ s.fatal = false ∧ s.frmCol.toNat < s.cfg.SPF ∧ s.frmBuf.toNat < s.cfg.NFB) ∧
    State.reset.cseq ≠ .frmadd := ⟨legal_three, by decide +kernel, by decide⟩

/-- A full frame, a command waiting. -/
def frameReady (p : HostPend) : State :=
  { runningAt cfgThree .frmtx with
    hostPend := p, frmBuf := 1, frm := filled 8 fun i => BitVec.ofNat 32 i }

theorem witness_FrameDelivered : LegalCfg cfgThree ∧ ∀ p ∈ [HostPend.rxframe, HostPend.rxframet],
    (frameReady p).cseq = .frmtx ∧ (frameReady p).fatal = false ∧ (frameReady p).frmBuf.toNat < cfgThree.NFB ∧
    (∀ c < cfgThree.N_OUT, ∀ k < cfgThree.SPF, ((frameReady p).frm.read
      (cfgThree.frmIndex (frameReady p).frmBuf.toNat c k)).isSome = true) ∧
    ((frameReady p).hostPend = .rxframe ∨ (frameReady p).hostPend = .rxframet) :=
  ⟨legal_three, by decide +kernel⟩

theorem witness_ShutdownSeenAtAFrameBoundary :
    ((frameReady .shutdown).cseq = .frmtx ∧ (frameReady .shutdown).fatal = false ∧
      (frameReady .shutdown).hostPend = .shutdown) ∧
    (frameReady .none).cseq = .frmtx ∧ (frameReady .none).fatal = false ∧
    (frameReady .none).hostPend = .none := by decide +kernel

theorem witness_UnwindRaisesTheFlag :
    (runningAt cfgSmall .unwind).cseq = .unwind ∧ (runningAt cfgSmall .unwind).fatal = false ∧
    State.reset.cseq ≠ .unwind := by decide +kernel

/-- Unwinding, with a queue and a producer state. -/
def draining (queue : List Half) (rx : RxState) : State :=
  { runningAt cfgSmall .drain with fifo := queue, rxState := rx }

/-- A queued block; the release; the wait for the producer; another state of the consumer. -/
theorem witness_DrainDiscardsThenReleases :
    (∀ q ∈ ([[], [1]] : List (List Half)), ∀ rx ∈ [RxState.running, .stopped],
      (draining q rx).cseq = .drain ∧ (draining q rx).fatal = false ∧ (draining q rx).hoPend = false ∧
      (draining q rx).fifo = q ∧ (draining q rx).rxState = rx) ∧
    State.reset.cseq ≠ .drain := by decide +kernel

/-! Flow-control states, for the statements about a whole shutdown and the invariants. -/

/-- Interrupt-driven, one block queued, the consumer waiting in `C_WAIT`. -/
def oneQueued : State :=
  { runningAt cfgSmall .wait with
    fillSel := 1, fifo := [0], own := #v[.queued, .producer], buf := #v[filled 2 fun _ => 1, []] }

/-- Thread-driven, a shutdown seen at the frame boundary with two blocks queued. -/
def twoQueued : State :=
  { runningAt { cfgSmall with ctrl := 1 } .frmtx with
    hostPend := .shutdown, fifo := [1, 0], own := #v[.queued, .queued] }

theorem flow_oneQueued : FlowInv oneQueued := by
  constructor <;> (try unfold State.active) <;> (try unfold Reliable) <;> decide +kernel

theorem flow_twoQueued : FlowInv twoQueued := by
  constructor <;> (try unfold State.active) <;> (try unfold Reliable) <;> decide +kernel

/-- The same with the producer blocked on a third block after an overrun (44_pdm_rx_credit_fifo.md R234). -/
def handOffPending : State := { twoQueued with hoPend := true, hoHalf := 1, status := 0b00010 }

theorem flow_handOffPending : FlowInv handOffPending := by
  constructor <;> (try unfold State.active) <;> (try unfold Reliable) <;> decide +kernel

/-- Without a pending hand-off and an overrun; with both. -/
theorem witness_ShutdownCompletes :
    (∀ s ∈ [twoQueued, handOffPending],
      s.cseq = .frmtx ∧ s.hostPend = .shutdown ∧ s.rxState = .running ∧ s.fatal = false) ∧
    (twoQueued.hoPend = false ∧ FlowInv twoQueued ∧ Reliable twoQueued) ∧
    handOffPending.hoPend = true ∧ FlowInv handOffPending ∧
    ∀ h : Half, handOffPending.own[h] = .producer ∨ h ∈ handOffPending.fifo := by
  refine ⟨by decide +kernel, ⟨rfl, flow_twoQueued, ?_⟩, rfl, flow_handOffPending, by decide +kernel⟩
  unfold Reliable; decide +kernel

theorem witness_ProducerStatesMoveByTheTable :
    ∃ t, exec .start (armed cfgSmall) = .next t ∧ t.rxState ≠ (armed cfgSmall).rxState := by
  obtain ⟨t, h, ht⟩ := exists_of_after (i := .start) (s := armed cfgSmall)
    (p := fun t => t.rxState != (armed cfgSmall).rxState) (by decide +kernel)
  exact ⟨t, h, by simpa using ht⟩

theorem witness_ConsumerMovesByTheTable :
    ∃ t, exec .blkpop oneQueued = .next t ∧ t.cseq ≠ oneQueued.cseq := by
  obtain ⟨t, h, ht⟩ := exists_of_after (i := .blkpop) (s := oneQueued)
    (p := fun t => t.cseq != oneQueued.cseq) (by decide +kernel)
  exact ⟨t, h, by simpa using ht⟩

theorem witness_FatalStopFreezes :
    stoppedFatally.fatal = true ∧ Instr.start ≠ .reset ∧ (∀ b, Instr.start ≠ .csrrd b) ∧
    ∃ t, exec .start stoppedFatally = .next t :=
  ⟨by decide +kernel, by decide, by simp, ⟨_, rfl⟩⟩

theorem witness_StatusIsSticky :
    ∃ t, exec .start { armed cfgSmall with status := 0b10110 } = .next t ∧ Instr.start ≠ .reset ∧
      (Instr.start = .init → Flag.dcovf = .fatal) ∧
      ({ armed cfgSmall with status := 0b10110 } : State).flag .dcovf = true :=
  ⟨_, rfl, by decide, by decide, by decide +kernel⟩

theorem witness_TablesAreLockedWhileActive :
    (armed cfgSmall).active ∧ Instr.cfgwr 0 1 ≠ .reset ∧ ∃ t, exec (.cfgwr 0 1) (armed cfgSmall) = .next t :=
  ⟨.inl rfl, by decide, ⟨_, rfl⟩⟩

theorem witness_ProducerRights :
    agentOf (.pdmword 7) = .source ∧ ∃ t, exec (.pdmword 7) oneQueued = .next t ∧ t.wrPos ≠ oneQueued.wrPos := by
  obtain ⟨t, h, ht⟩ := exists_of_after (i := .pdmword 7) (s := oneQueued)
    (p := fun t => t.wrPos != oneQueued.wrPos) (by decide +kernel)
  exact ⟨rfl, t, h, by simpa using ht⟩

theorem witness_ConsumerRights :
    agentOf .blkpop = .consumer ∧ ∃ t, exec .blkpop oneQueued = .next t ∧ t.own ≠ oneQueued.own := by
  obtain ⟨t, h, ht⟩ := exists_of_after (i := .blkpop) (s := oneQueued)
    (p := fun t => t.own != oneQueued.own) (by decide +kernel)
  exact ⟨rfl, t, h, by simpa using ht⟩

theorem witness_HostRights :
    agentOf .rxframe = .host ∧ Instr.rxframe ≠ .reset ∧ Instr.rxframe ≠ .init ∧
    ∃ t, exec .rxframe oneQueued = .next t ∧ t.hostPend ≠ oneQueued.hostPend := by
  obtain ⟨t, h, ht⟩ := exists_of_after (i := .rxframe) (s := oneQueued)
    (p := fun t => t.hostPend != oneQueued.hostPend) (by decide +kernel)
  exact ⟨rfl, by decide, by decide, t, h, by simpa using ht⟩

/-- A BLKPOP is next. -/
def aboutToPop : State := { oneQueued with agenda := [0x2100000000000000] }

theorem step_aboutToPop : ∃ t, step aboutToPop = .next t ∧ t.cseq = .deint := by
  obtain ⟨t, h, ht⟩ := exists_of_afterStep (s := aboutToPop) (p := fun t => t.cseq == .deint)
    (by decide +kernel)
  exact ⟨t, h, by simpa using ht⟩

theorem witness_StepKeepsMemoriesCanonical :
    MemoriesWf aboutToPop ∧ ∃ t, step aboutToPop = .next t ∧ t.cseq = .deint :=
  ⟨by unfold MemoriesWf; decide +kernel, step_aboutToPop⟩

theorem flow_aboutToPop : FlowInv aboutToPop := by
  constructor <;> (try unfold State.active) <;> (try unfold Reliable) <;> decide +kernel

theorem witness_StepKeepsFlowControl :
    FlowInv aboutToPop ∧ ∃ t, step aboutToPop = .next t ∧ t.cseq = .deint :=
  ⟨flow_aboutToPop, step_aboutToPop⟩

theorem run_oneQueued : RunInv oneQueued := by
  refine ⟨⟨fun _ => legal_small, ?_, ?_, ?_, ?_, ?_⟩, ⟨?_, ?_, ?_⟩, ⟨fun _ i h1 h2 => ?_, ?_, ?_, ?_, ?_, ?_, ?_, ?_⟩⟩
  case refine_9 =>
    have h1' : 1 < i := h1
    have h2' : i < 2 := h2
    omega
  all_goals (try unfold State.active); (try unfold Written); decide +kernel

theorem run_aboutToPop : RunInv aboutToPop := by
  obtain ⟨r, d, w⟩ := run_oneQueued
  exact ⟨⟨r.1, r.2, r.3, r.4, r.5, r.6⟩, ⟨d.1, d.2, d.3⟩, ⟨w.1, w.2, w.3, w.4, w.5, w.6, w.7, w.8⟩⟩

theorem witness_StepKeepsRunnable :
    RunInv aboutToPop ∧ ∃ t, step aboutToPop = .next t ∧ t.cseq = .deint :=
  ⟨run_aboutToPop, step_aboutToPop⟩

/-- A second link command, and a unit operation before the coefficients are written. -/
theorem witness_OnlyTheHostCausesFaults :
    (RunInv { oneQueued with hostPend := .rxframe } ∧
      exec .shutdown { oneQueued with hostPend := .rxframe } = .fault .hostMisuse) ∧
    RunInv { oneQueued with coef1 := [] } ∧
      exec (.s1step 0 0) { oneQueued with coef1 := [] } = .fault (.uninit .coef1) := by
  obtain ⟨r, d, w⟩ := run_oneQueued
  refine ⟨⟨⟨⟨r.1, r.2, r.3, r.4, r.5, r.6⟩, ⟨d.1, d.2, d.3⟩, ⟨w.1, w.2, w.3, w.4, w.5, w.6, w.7, w.8⟩⟩, rfl⟩,
    ⟨⟨r.1, r.2, r.3, r.4, r.5, r.6⟩, ⟨d.1, d.2, d.3⟩, ⟨w.1, w.2, w.3, w.4, w.5, w.6, w.7, w.8⟩⟩, rfl⟩

theorem witness_StepKeepsOverrunClear :
    NoOverrunInv aboutToPop ∧ ∃ t, step aboutToPop = .next t ∧ t.cseq = .deint := by
  refine ⟨⟨flow_aboutToPop, ?_, ?_, ?_⟩, step_aboutToPop⟩ <;>
    (try unfold State.active) <;> (try unfold Reliable) <;> decide +kernel

theorem witness_StepKeepsCauseInStep :
    CauseInv { stoppedFatally with agenda := [0x0100000000000000] } ∧
    ∃ t, step { stoppedFatally with agenda := [0x0100000000000000] } = .next t := by
  refine ⟨by unfold CauseInv; decide +kernel, ?_⟩
  obtain ⟨t, h, -⟩ := exists_of_afterStep (s := { stoppedFatally with agenda := [0x0100000000000000] })
    (p := fun _ => true) (by decide +kernel)
  exact ⟨t, h⟩

/-! ### The real-time duty (70_reset_and_hazards.md R371) -/

/-- Two blocks of two words from INIT, the consumer asking for each before it is complete. -/
def inTime : List Instr :=
  [.start, .blkreq, .pdmword 1, .pdmword 2, .blkpop, .deint, .chsel, .firblk, .dcoe, .frmadd, .rxframe,
    .frmtx, .pdmword 3, .blkreq, .pdmword 4]

/-- The same with the second BLKREQ one word late. -/
def tooLate : List Instr :=
  [.start, .blkreq, .pdmword 1, .pdmword 2, .blkpop, .pdmword 3, .pdmword 4]

/-- The premise tells the two schedules apart, from the same state. -/
theorem test_meetsDeadline :
    meetsDeadline false inTime (armed cfgSmall) = true ∧ meetsDeadline false tooLate (armed cfgSmall) = false := by
  decide +kernel

/-- The schedule in time runs to its end, with one block queued; the late one drops a block (R220). -/
theorem test_deadline_outcome :
    (match performAll inTime (armed cfgSmall) with
      | .next t => t.rxState == .running && t.fifo == [1] && !t.fatal
      | _ => false) = true ∧
    (match performAll tooLate (armed cfgSmall) with
      | .next t => t.fatal && t.fatalCause == 1
      | _ => false) = true := by decide +kernel

/-- `OnTime` in a state with a block queued, and in one that waits for a block. -/
theorem witness_OnTime : OnTime false oneQueued ∧
    OnTime true { runningAt cfgSmall .wait with credit := 1 } := by
  constructor <;> constructor <;> (try unfold Reliable) <;> decide +kernel

end Sys2Proof.Tests
end

/-! Statements of the family 00_scope.md. The step performs the operation its word names; an operation that does not act answers the same
state. First one rule per operation for a closed guard, then the two statements. -/

namespace Sys2Proof.Machine

variable {s : State}

/-! ### Well-formed operands name a register, a coefficient, a channel -/

theorem stageOf_of_legal {a : BitVec 8} (ha : legalStage a = true) : ∃ st, stageOf a = some st :=
  Option.isSome_iff_exists.1 (by rw [stageOf_isSome, ha])

theorem tapOf_of_legal {b : BitVec 16} (hb : legalTap b = true) : ∃ k, tapOf b = some k :=
  Option.isSome_iff_exists.1 (by rw [tapOf_isSome, hb])

theorem channelOf_of_legal {a : BitVec 8} (ha : legalChannel a = true) : ∃ c, channelOf a = some c :=
  Option.isSome_iff_exists.1 (by rw [channelOf_isSome, ha])

/-! ### Host commands that are ignored (46_control_sequencer.md R280, R290; 45_framing_transfer.md R257) -/

theorem execCfgwr_of_locked {b : BitVec 16} (v : Word) (hb : reservedIndex b = false)
    (h : s.configOpen = false) : execCfgwr b v s = .next s := by
  obtain ⟨r, hr⟩ := regOfIndex_of_not_reserved hb
  simp [execCfgwr, hr, h]

theorem execCoefwr_of_locked {a : BitVec 8} {b : BitVec 16} (v : Word) (ha : legalStage a = true)
    (hb : legalTap b = true) (h : s.configOpen = false) : execCoefwr a b v s = .next s := by
  obtain ⟨st, hst⟩ := stageOf_of_legal ha
  obtain ⟨k, hk⟩ := tapOf_of_legal hb
  simp [execCoefwr, hst, hk, h]

theorem execInit_of_locked (h : s.configOpen = false) : execInit s = .next s := by
  simp [execInit, h]

theorem execStart_of_closed (h : s.startOpen = false) : execStart s = .next s := by
  simp [execStart, h]

/-- With no command waiting, only a closed link keeps a link command from acting. -/
theorem linkCommand_of_closed (p : HostPend) (hp : s.hostPend = .none)
    (h : (s.linkOpen && s.hostPend == .none) = false) : linkCommand p s = .next s := by
  have hl : s.linkOpen = false := by simpa [hp] using h
  simp [linkCommand, hp, hl]

/-! ### The producer's operations (44_pdm_rx_credit_fifo.md R212, R221, R224) -/

theorem execPdmword_of_disabled (w : Word) (h : s.wordEnabled = false) : execPdmword w s = .next s := by
  simp [execPdmword, h]

theorem execHandoff_of_disabled (h : s.handoffEnabled = false) : execHandoff s = .next s := by
  simp [execHandoff, h]

theorem execRxexit_of_disabled (h : s.exitEnabled = false) : execRxexit s = .next s := by
  simp [execRxexit, h]

/-! ### The consumer's operations, away from their place in `CSEQ` or waiting there (46_control_sequencer.md R296) -/

theorem execBlkreq_of_not_at (h : s.at .req = false) : execBlkreq s = .next s := by
  simp [execBlkreq, h]

/-- BLKPOP does not act away from `C_WAIT`, nor there while no block is queued. -/
theorem execBlkpop_of_disabled (h : (s.at .wait && !s.fifo.isEmpty) = false) :
    execBlkpop s = .next s := by
  cases hat : s.at .wait with
  | false => simp [execBlkpop, hat]
  | true =>
    have hempty : s.fifo = [] := by simpa [hat] using h
    simp [execBlkpop, hempty]

theorem execDeint_of_not_at (h : s.at .deint = false) : execDeint s = .next s := by
  simp [execDeint, h]

theorem execChsel_of_not_at (h : s.at .chsel = false) : execChsel s = .next s := by
  simp [execChsel, h]

theorem execFirblk_of_not_at (h : s.at .fir = false) : execFirblk s = .next s := by
  simp [execFirblk, h]

theorem execDcoe_of_not_at (h : s.at .dcoe = false) : execDcoe s = .next s := by
  simp [execDcoe, h]

theorem execFrmadd_of_not_at (h : s.at .frmadd = false) : execFrmadd s = .next s := by
  simp [execFrmadd, h]

/-- FRMTX does not act away from `C_FRMTX`, nor there while no host command waits. -/
theorem execFrmtx_of_disabled (h : (s.at .frmtx && s.hostPend != .none) = false) :
    execFrmtx s = .next s := by
  cases hat : s.at .frmtx with
  | false => simp [execFrmtx, hat]
  | true =>
    have hnone : s.hostPend = .none := by simpa [hat] using h
    simp [execFrmtx, hnone]

theorem execUnwind_of_not_at (h : s.at .unwind = false) : execUnwind s = .next s := by
  simp [execUnwind, h]

theorem execDrain_of_disabled (h : s.drainEnabled = false) : execDrain s = .next s := by
  simp [execDrain, h]

/-! ### The unit operations (41_stage1.md R162, 42_stage23.md R177, R186) -/

theorem execS1step_of_disabled {a : BitVec 8} (w : Word) (ha : legalChannel a = true)
    (h : s.unitEnabled = false) : execS1step a w s = .next s := by
  obtain ⟨c, hc⟩ := channelOf_of_legal ha
  simp [execS1step, hc, h]

theorem execS2step_of_disabled {a : BitVec 8} (x : Word) (ha : legalChannel a = true)
    (h : s.unitEnabled = false) : execS2step a x s = .next s := by
  obtain ⟨c, hc⟩ := channelOf_of_legal ha
  simp [execS2step, hc, h]

theorem execS3step_of_disabled {a : BitVec 8} (x : Word) (ha : legalChannel a = true)
    (h : (s.unitEnabled && s.cfg.nStages == 3) = false) : execS3step a x s = .next s := by
  obtain ⟨c, hc⟩ := channelOf_of_legal ha
  simp only [execS3step, hc, h, Bool.false_eq_true, if_false]

/-! ### The statements -/

/-- Settles O7: each operation's rule for its closed guard; RESET and CSRRD act in every state. -/
theorem disabledOperationsChangeNothing : Obligations.DisabledOperationsChangeNothing := by
  intro i s hwf hacts hlink
  cases i with
  | reset => cases hacts
  | cfgwr b v => exact execCfgwr_of_locked v (by simpa [Instr.wellFormed] using hwf) hacts
  | csrrd b => cases hacts
  | coefwr a b v =>
    obtain ⟨ha, hb⟩ := (Bool.and_eq_true _ _).mp hwf
    exact execCoefwr_of_locked v ha hb hacts
  | init => exact execInit_of_locked hacts
  | start => exact execStart_of_closed hacts
  | rxframe => exact linkCommand_of_closed .rxframe (hlink rfl) hacts
  | rxframet => exact linkCommand_of_closed .rxframet (hlink rfl) hacts
  | shutdown => exact linkCommand_of_closed .shutdown (hlink rfl) hacts
  | pdmword w => exact execPdmword_of_disabled w hacts
  | handoff => exact execHandoff_of_disabled hacts
  | rxexit => exact execRxexit_of_disabled hacts
  | blkreq => exact execBlkreq_of_not_at hacts
  | blkpop => exact execBlkpop_of_disabled hacts
  | deint => exact execDeint_of_not_at hacts
  | chsel => exact execChsel_of_not_at hacts
  | firblk => exact execFirblk_of_not_at hacts
  | s1step a w => exact execS1step_of_disabled w hwf hacts
  | s2step a x => exact execS2step_of_disabled x hwf hacts
  | s3step a x => exact execS3step_of_disabled x hwf hacts
  | dcoe => exact execDcoe_of_not_at hacts
  | frmadd => exact execFrmadd_of_not_at hacts
  | frmtx => exact execFrmtx_of_disabled hacts
  | unwind => exact execUnwind_of_not_at hacts
  | drain => exact execDrain_of_disabled hacts

/-- Settles O5: the first word of the agenda is the one decoded, and the rest stays for later steps. -/
theorem stepPerformsTheDecodedOperation : Obligations.StepPerformsTheDecodedOperation := by
  refine ⟨fun s w rest i hagenda hdecode => ?_, fun s => step_nil⟩
  rw [step_cons hagenda, hdecode]

end Sys2Proof.Machine

/-! Statements of the family 10_state.md: the registers, RESET and INIT, and the invariants every step keeps. -/

namespace Sys2Proof.Machine

variable {s t : State}

/-! ### What every step keeps -/

/-- A property that does not read the agenda and that every operation keeps is kept by every step. -/
theorem step_keeps {P : State → Prop} (hagenda : ∀ s l, P s → P { s with agenda := l })
    (hexec : ∀ i s t, P s → exec i s = .next t → P t) (s t : State) (hs : P s) (h : step s = .next t) :
    P t := by
  rcases step_eq_next h with ⟨-, rfl⟩ | ⟨w, rest, i, -, -, hi⟩
  · exact hs
  · exact hexec i _ t (hagenda s rest hs) hi

theorem configOpen_iff :
    s.configOpen = true ↔ (s.rxState = .idle ∨ s.rxState = .stopped) ∧ s.fatal = false := by
  simp [State.configOpen]

/-- `FATAL` and the other flags are read from `STATUS` alone. -/
theorem flag_of_status (h : t.status = s.status) (f : Flag) : t.flag f = s.flag f := by
  rw [State.flag, h, State.flag]

/-! ### The hand-off and the store, field by field -/

/-- A hand-off changes the FIFO, the tags, the credit, the pending half, the drop count and the fatal stop
(44_pdm_rx_credit_fifo.md R218 to R221), and nothing else. -/
theorem handoffAttempt_frame (s : State) (h : Half) :
    s.handoffAttempt h = { s with
      fifo := (s.handoffAttempt h).fifo, own := (s.handoffAttempt h).own,
      credit := (s.handoffAttempt h).credit, hoPend := (s.handoffAttempt h).hoPend,
      hoHalf := (s.handoffAttempt h).hoHalf, dropCount := (s.handoffAttempt h).dropCount,
      status := (s.handoffAttempt h).status, fatalCause := (s.handoffAttempt h).fatalCause } := by
  rcases s.handoffAttempt_cases h with ⟨-, -, e⟩ | ⟨-, -, -, e⟩ | ⟨-, -, -, e⟩ | ⟨-, -, e⟩ | ⟨-, -, e⟩ <;>
    rw [e]
  · rfl
  · unfold State.raiseFatal; split <;> rfl
  · rfl

@[simp] theorem handoffAttempt_cseq (s : State) (h : Half) :
    (s.handoffAttempt h).cseq = s.cseq := by rw [handoffAttempt_frame]

/-! ### The flow-control invariant (44_pdm_rx_credit_fifo.md R230) -/

/-- The registers the flow-control invariant speaks of are the same, `RX_STATE`, `CSEQ` and the mode apart. -/
structure SameQueue (s t : State) : Prop where
  cur : t.cur = s.cur
  credit : t.credit = s.credit
  fifo : t.fifo = s.fifo
  own : t.own = s.own
  hoPend : t.hoPend = s.hoPend
  overrun : t.flag .overrun = s.flag .overrun

/-- The queue unchanged, the invariant is kept when the consumer neither enters nor leaves `C_WAIT` nor takes or
gives up a half, and the producer neither becomes active nor changes its mode while it is. -/
theorem FlowInv.transfer (h : FlowInv s) (f : SameQueue s t)
    (hmode : t.active → s.active ∧ t.cfg.threadMode = s.cfg.threadMode)
    (hwait : t.cseq = .wait ↔ s.cseq = .wait)
    (hhold : t.cseq = .deint ∨ t.cseq = .chsel ↔ s.cseq = .deint ∨ s.cseq = .chsel)
    (hoff : t.rxState = .idle ∨ t.rxState = .armed → t.cseq = .off) : FlowInv t := by
  have hrel : Reliable t → Reliable s := fun hr => f.overrun.symm.trans hr
  constructor
  case level => rw [f.fifo, f.credit]; exact h.level
  case waiting =>
    intro ha hm hq
    obtain ⟨ha', hm'⟩ := hmode ha
    rw [f.fifo, f.credit]; exact h.waiting ha' (hm' ▸ hm) (hwait.1 hq)
  case elsewhere =>
    intro ha hm hq
    obtain ⟨ha', hm'⟩ := hmode ha
    rw [f.fifo, f.credit]; exact h.elsewhere ha' (hm' ▸ hm) (mt hwait.2 hq)
  case noPending =>
    intro ha hm
    obtain ⟨ha', hm'⟩ := hmode ha
    rw [f.hoPend]; exact h.noPending ha' (hm' ▸ hm)
  case noCredit =>
    intro ha hm
    obtain ⟨ha', hm'⟩ := hmode ha
    rw [f.credit]; exact h.noCredit ha' (hm' ▸ hm)
  case queued => rw [f.own, f.fifo]; exact fun hr => h.queued (hrel hr)
  case held => rw [f.own, f.cur, hhold]; exact fun hr => h.held (hrel hr)
  case distinct => rw [f.fifo]; exact fun hr => h.distinct (hrel hr)
  case blocked => rw [f.hoPend, f.overrun]; exact h.blocked
  case notStarted => exact hoff

/-- Nothing the invariant reads has changed. -/
theorem FlowInv.same (h : FlowInv s) (f : SameQueue s t) (hrx : t.rxState = s.rxState)
    (hq : t.cseq = s.cseq) (hcfg : t.active → t.cfg = s.cfg) : FlowInv t :=
  h.transfer f (fun ha => ⟨active_of_eq hrx ha, by rw [hcfg ha]⟩) (by rw [hq]) (by rw [hq])
    (by rw [hrx, hq]; exact h.notStarted)

/-- The consumer moves on from a place that is neither `C_WAIT` nor `C_OFF`, holding what it held. -/
theorem FlowInv.move (h : FlowInv s) (f : SameQueue s t) (hrx : t.rxState = s.rxState)
    (hcfg : t.cfg = s.cfg) (hoff : s.cseq ≠ .off) (hwait : t.cseq = .wait ↔ s.cseq = .wait)
    (hhold : t.cseq = .deint ∨ t.cseq = .chsel ↔ s.cseq = .deint ∨ s.cseq = .chsel) : FlowInv t :=
  h.transfer f (fun ha => ⟨active_of_eq hrx ha, by rw [hcfg]⟩) hwait hhold fun hr =>
    absurd (h.notStarted (by rwa [← hrx])) hoff

/-- With nothing queued, held or pending and the consumer off, the invariant holds. -/
theorem FlowInv.of_empty (hq : s.cseq = .off) (hf : s.fifo = []) (hc : s.credit = 0)
    (ho : ∀ h : Half, s.own[h] = .producer) (hp : s.hoPend = false) : FlowInv s := by
  constructor <;> simp [hq, hf, hc, ho, hp]

theorem flowInv_reset : FlowInv State.reset :=
  FlowInv.of_empty rfl rfl rfl (fun h => by simp [State.reset]) rfl

theorem flowInv_afterInit (s : State) : FlowInv s.afterInit :=
  FlowInv.of_empty rfl rfl rfl (fun h => by simp) rfl

/-- START: the consumer leaves `C_OFF` for `C_REQ`. -/
theorem FlowInv.started (h : FlowInv s) (ha : s.rxState = .armed) :
    FlowInv { s with rxState := .running, cseq := .req } := by
  have hoff := h.notStarted (.inr ha)
  exact h.transfer ⟨rfl, rfl, rfl, rfl, rfl, rfl⟩ (fun _ => ⟨.inl ha, rfl⟩) (by simp [hoff])
    (by simp [hoff]) (by simp)

/-- BLKREQ: outside `C_WAIT` nothing was queued, so the credit granted is the one item (R226). -/
theorem FlowInv.requested (h : FlowInv s) (hq : s.cseq = .req) :
    FlowInv { s with credit := if s.cfg.threadMode then s.credit else 1, cseq := .wait } := by
  have hne : s.cseq ≠ .wait := by simp [hq]
  constructor
  case level => exact ⟨h.level.1, by dsimp only; split <;> [exact h.level.2; decide]⟩
  case waiting =>
    intro ha hm _
    dsimp only at hm ⊢
    simp [hm, (h.elsewhere ha hm hne).1]
  case elsewhere => exact fun _ _ hw => absurd rfl hw
  case noPending => exact h.noPending
  case noCredit =>
    intro ha hm
    dsimp only at hm ⊢
    rw [if_pos hm]; exact h.noCredit ha hm
  case queued => exact h.queued
  case held => intro hr k; rw [h.held hr k]; simp [hq]
  case distinct => exact h.distinct
  case blocked => exact h.blocked
  case notStarted => intro hr; exact absurd (h.notStarted hr) (by simp [hq])

/-- The tags after the head of the FIFO is taken off it and given the tag `o`: the rest is queued. -/
theorem queued_tail {own : Vector Owner 2} {k : Half} {rest : List Half} {o : Owner} (ho : o ≠ .queued)
    (hd : (k :: rest).Nodup) (hown : ∀ h : Half, own[h] = .queued ↔ h ∈ k :: rest) (h : Half) :
    (own.set k o)[h] = .queued ↔ h ∈ rest := by
  rw [getElem_set_fin]
  split
  · rename_i he; subst he
    simp [ho, (List.nodup_cons.1 hd).1]
  · rename_i hne; rw [hown, List.mem_cons, or_iff_right hne]

/-- BLKPOP: the head of the FIFO becomes the half held (R228). -/
theorem FlowInv.popped (h : FlowInv s) (hq : s.cseq = .wait) {k : Half} {rest : List Half}
    (hk : s.fifo = k :: rest) :
    FlowInv { s with cur := k, fifo := rest, own := s.own.set k .consumer, cseq := .deint } := by
  have hlen : s.fifo.length = rest.length + 1 := by rw [hk]; rfl
  have hlevel := h.level
  constructor
  case level => exact ⟨by dsimp only; omega, hlevel.2⟩
  case waiting => intro _ _ hw; cases hw
  case elsewhere =>
    intro ha hm _
    have hsum := h.waiting ha hm hq
    exact ⟨List.eq_nil_of_length_eq_zero (show rest.length = 0 by omega),
      BitVec.eq_of_toNat_eq (by simp; omega)⟩
  case noPending => exact h.noPending
  case noCredit => exact h.noCredit
  case queued =>
    exact fun hr => queued_tail (by decide) (hk ▸ h.distinct hr) (hk ▸ h.queued hr)
  case held =>
    intro hr j
    have hj := h.held hr j
    simp only [hq, reduceCtorEq, or_self, and_false, iff_false] at hj
    dsimp only
    rw [getElem_set_fin]
    split <;> simp_all
  case distinct => exact fun hr => (List.nodup_cons.1 (hk ▸ h.distinct hr)).2
  case blocked => exact h.blocked
  case notStarted => intro hr; exact absurd (h.notStarted hr) (by simp [hq])

/-- CHSEL: the half held goes back to the producer (40_deinterleave.md R151). -/
theorem FlowInv.released (h : FlowInv s) (hq : s.cseq = .chsel) (m : Memory) :
    FlowInv { s with ob := m, own := s.own.set s.cur .producer, cseq := .fir } := by
  have hne : s.cseq ≠ .wait := by simp [hq]
  constructor
  case level => exact h.level
  case waiting => intro _ _ hw; cases hw
  case elsewhere => exact fun ha hm _ => h.elsewhere ha hm hne
  case noPending => exact h.noPending
  case noCredit => exact h.noCredit
  case queued =>
    intro hr j
    have hcur : s.own[s.cur] = .consumer := (h.held hr s.cur).2 ⟨rfl, .inr hq⟩
    have hj := h.queued hr j
    dsimp only
    rw [getElem_set_fin]
    split
    · rename_i he; subst he; simp [← hj, hcur]
    · exact hj
  case held =>
    intro hr j
    have hj := h.held hr j
    dsimp only
    rw [getElem_set_fin]
    split <;> simp_all
  case distinct => exact h.distinct
  case blocked => exact h.blocked
  case notStarted => intro hr; exact absurd (h.notStarted hr) (by simp [hq])

/-- DRAIN discards the head of the FIFO (45_framing_transfer.md R263). -/
theorem FlowInv.discarded (h : FlowInv s) (hq : s.cseq = .drain) {k : Half} {rest : List Half}
    (hk : s.fifo = k :: rest) : FlowInv { s with fifo := rest, own := s.own.set k .producer } := by
  have hne : s.cseq ≠ .wait := by simp [hq]
  have hlen : s.fifo.length = rest.length + 1 := by rw [hk]; rfl
  have hlevel := h.level
  constructor
  case level => exact ⟨by dsimp only; omega, hlevel.2⟩
  case waiting => exact fun _ _ hw => absurd hw hne
  case elsewhere =>
    intro ha hm _
    rw [(h.elsewhere ha hm hne).1] at hk; cases hk
  case noPending => exact h.noPending
  case noCredit => exact h.noCredit
  case queued =>
    exact fun hr => queued_tail (by decide) (hk ▸ h.distinct hr) (hk ▸ h.queued hr)
  case held =>
    intro hr j
    have hj := h.held hr j
    dsimp only
    rw [getElem_set_fin]
    split <;> simp_all
  case distinct => exact fun hr => (List.nodup_cons.1 (hk ▸ h.distinct hr)).2
  case blocked => exact h.blocked
  case notStarted => exact h.notStarted

/-- A half of the producer is queued, and the credit and the pending flag take the values `c` and `p`. -/
theorem FlowInv.pushed (h : FlowInv s) {k : Half} {c : BitVec 2} {p : Bool}
    (hfree : Reliable s → s.own[k] = .producer) (hroom : s.fifo.length < 2) (hc : c.toNat ≤ 1)
    (hirq : s.active → s.cfg.threadMode = false → s.cseq = .wait ∧ s.fifo = [] ∧ c = 0 ∧ p = false)
    (hthread : s.active → s.cfg.threadMode = true → c = 0) (hp : p = true → s.hoPend = true) :
    FlowInv { s.push k with credit := c, hoPend := p } := by
  constructor
  case level => exact ⟨by simpa using hroom, hc⟩
  case waiting =>
    intro ha hm _
    obtain ⟨-, hf, rfl, -⟩ := hirq ha hm
    simp [hf]
  case elsewhere => exact fun ha hm hne => absurd (hirq ha hm).1 hne
  case noPending => exact fun ha hm => (hirq ha hm).2.2.2
  case noCredit => exact hthread
  case queued =>
    intro hr j
    have hj := h.queued hr j
    simp only [State.push_own, State.push_fifo, List.mem_append, List.mem_singleton, getElem_set_fin]
    split <;> simp_all
  case held =>
    intro hr j
    have hj := h.held hr j
    have hfree := hfree hr
    simp only [State.push_own, State.push_cur, State.push_cseq, getElem_set_fin]
    split
    · rename_i he; subst he; rw [← hj]; simp [hfree]
    · exact hj
  case distinct =>
    intro hr
    have hout : k ∉ s.fifo := by rw [← h.queued hr k, hfree hr]; simp
    simpa [List.nodup_append, h.distinct hr] using fun a ha (e : a = k) => hout (e ▸ ha)
  case blocked => exact fun hpend => h.blocked (hp hpend)
  case notStarted => exact h.notStarted

/-- The store of a word keeps the invariant, `OVERRUN` being set when the half was not the producer's (R213). -/
theorem FlowInv.stored (h : FlowInv s) (w : Word) : FlowInv (s.wordTaken w) := by
  have hrel : Reliable (s.wordTaken w) → Reliable s := fun hr =>
    (Bool.or_eq_false_iff.1 ((overrun_wordTaken s w).symm.trans hr)).1
  exact { h with
    queued := fun hr => h.queued (hrel hr)
    held := fun hr => h.held (hrel hr)
    distinct := fun hr => h.distinct (hrel hr)
    blocked := fun hp => by rw [overrun_wordTaken, h.blocked hp, Bool.true_or] }

/-- While `OVERRUN` is clear after a store, the half stored into is the producer's. -/
theorem own_of_reliable_wordTaken (w : Word) (hr : Reliable (s.wordTaken w)) :
    s.own[s.fillSel] = .producer := by
  simpa using (Bool.or_eq_false_iff.1 ((overrun_wordTaken s w).symm.trans hr)).2

/-- With the FIFO full and its entries tagged, no half is the producer's. -/
theorem FlowInv.not_producer_of_full (h : FlowInv s) (hr : Reliable s) (hfull : 2 ≤ s.fifo.length)
    (k : Half) : s.own[k] ≠ .producer := by
  have hcard : s.fifo.toFinset = Finset.univ := by
    refine Finset.eq_univ_of_card _ (le_antisymm (Finset.card_le_univ _) ?_)
    rw [List.toFinset_card_of_nodup (h.distinct hr)]; simpa using hfull
  have hk : k ∈ s.fifo := List.mem_toFinset.1 (hcard ▸ Finset.mem_univ k)
  rw [(h.queued hr k).2 hk]; decide

/-- A hand-off attempt of a half that, while `OVERRUN` is clear, is the producer's (R218 to R221). -/
theorem FlowInv.handedOff (h : FlowInv s) (ha : s.active) {k : Half}
    (hfree : Reliable s → s.own[k] = .producer) : FlowInv (s.handoffAttempt k) := by
  have hlevel := h.level
  rcases s.handoffAttempt_cases k with ⟨hm, hc, e⟩ | ⟨hm, -, -, e⟩ | ⟨hm, -, -, e⟩ | ⟨hm, hl, e⟩ |
    ⟨hm, hl, e⟩ <;> rw [e]
  · have hone : s.credit = 1 := BitVec.eq_of_toNat_eq (by simp; omega)
    have hwait : s.cseq = .wait := by
      by_contra hne
      rw [(h.elsewhere ha hm hne).2] at hc; exact absurd hc (by decide)
    have hsum := h.waiting ha hm hwait
    have hnil : s.fifo = [] := List.eq_nil_of_length_eq_zero (by omega)
    exact h.pushed hfree (by simp [hnil]) (by simp [hone])
      (fun _ _ => ⟨hwait, hnil, by simp [hone], h.noPending ha hm⟩) (fun _ ht => by simp [hm] at ht) id
  · exact h.same ⟨rfl, rfl, rfl, rfl, rfl, rfl⟩ rfl rfl fun _ => rfl
  · exact h.same ⟨by simp, by simp, by simp, by simp, by simp, by simp⟩ (by simp) (by simp) (by simp)
  · exact h.pushed hfree hl hlevel.2 (fun _ hi => by simp [hm] at hi) h.noCredit id
  · exact { h with
      noPending := fun _ hi => by simp [hm] at hi
      blocked := fun _ => by
        by_contra hr
        have hr : Reliable s := Bool.eq_false_iff.2 hr
        exact h.not_producer_of_full hr hl k (hfree hr) }

/-- HANDOFF: a hand-off pends in thread-driven mode, and after an overrun (R34, R221). -/
theorem FlowInv.unblocked (h : FlowInv s) (hp : s.hoPend = true) (hroom : s.fifo.length < 2) :
    FlowInv { s.push s.hoHalf with hoPend := false } :=
  h.pushed (fun hr => absurd hr (by simp [Reliable, h.blocked hp])) hroom h.level.2
    (fun ha hm => by simp [h.noPending ha hm] at hp) h.noCredit (by simp)

/-- PDMWORD keeps the flow-control invariant. -/
theorem flowInv_execPdmword {w : Word} (h : FlowInv s) (he : execPdmword w s = .next t) : FlowInv t := by
  rcases execPdmword_next he with rfl | ⟨hr, -, -, ⟨-, rfl⟩ | ⟨-, -, -, rfl⟩ | ⟨-, -, rfl⟩⟩
  · exact h
  · exact h.transfer ⟨rfl, rfl, rfl, rfl, rfl, rfl⟩ (fun _ => ⟨.inr (.inl hr), rfl⟩) Iff.rfl Iff.rfl (by simp)
  · exact (h.stored w).same ⟨rfl, rfl, rfl, rfl, rfl, rfl⟩ rfl rfl fun _ => rfl
  · have hu : FlowInv { s.wordTaken w with
        wrPos := BitVec.ofNat 8 (s.cfg.BW - 1), fillSel := 1 - s.fillSel } :=
      (h.stored w).same ⟨rfl, rfl, rfl, rfl, rfl, rfl⟩ rfl rfl fun _ => rfl
    exact hu.handedOff (.inr (.inl hr)) (own_of_reliable_wordTaken w)

/-- Every operation keeps the flow-control invariant. -/
theorem flowInv_exec (i : Instr) (s t : State) (h : FlowInv s) (he : exec i s = .next t) : FlowInv t := by
  cases i with
  | reset =>
    cases he
    exact flowInv_reset.same ⟨rfl, rfl, rfl, rfl, rfl, rfl⟩ rfl rfl fun _ => rfl
  | cfgwr b v =>
    rcases execCfgwr_next he with rfl | ⟨ho, r, -, rfl⟩
    · exact h
    · exact h.same ⟨by simp, by simp, by simp, by simp, by simp, flag_of_status (by simp) _⟩ (by simp)
        (by simp) fun ha => absurd (active_of_eq (by simp) ha) (not_active_of_configOpen ho)
  | csrrd b =>
    obtain ⟨r, -, rfl⟩ := execCsrrd_next he
    exact h.same ⟨rfl, rfl, rfl, rfl, rfl, rfl⟩ rfl rfl fun _ => rfl
  | coefwr a b v =>
    rcases execCoefwr_next he with rfl | ⟨-, st, k, -, rfl⟩
    · exact h
    · exact h.same ⟨by simp, by simp, by simp, by simp, by simp, flag_of_status (by simp) _⟩ (by simp)
        (by simp) (by simp)
  | init =>
    rcases execInit_next he with rfl | ⟨-, c, -, rfl⟩ | ⟨-, -, rfl⟩
    · exact h
    · exact h.same ⟨by simp, by simp, by simp, by simp, by simp, by simp⟩ (by simp) (by simp) (by simp)
    · exact flowInv_afterInit s
  | start =>
    rcases execStart_next he with rfl | ⟨ha, -, rfl⟩
    · exact h
    · exact h.started ha
  | rxframe | rxframet | shutdown =>
    rcases linkCommand_next he with rfl | ⟨-, -, -, rfl⟩
    · exact h
    · exact h.same ⟨rfl, rfl, rfl, rfl, rfl, rfl⟩ rfl rfl fun _ => rfl
  | pdmword w => exact flowInv_execPdmword h he
  | handoff =>
    rcases execHandoff_next he with rfl | ⟨hp, hl, -, rfl⟩
    · exact h
    · exact h.unblocked hp hl
  | rxexit =>
    rcases execRxexit_next he with rfl | ⟨-, -, rfl⟩
    · exact h
    · exact h.transfer ⟨rfl, rfl, rfl, rfl, rfl, rfl⟩ (by simp [State.active]) Iff.rfl Iff.rfl (by simp)
  | blkreq =>
    rcases execBlkreq_next he with rfl | ⟨hq, -, rfl⟩
    · exact h
    · exact h.requested hq
  | blkpop =>
    rcases execBlkpop_next he with rfl | ⟨hq, -, k, rest, hk, rfl⟩
    · exact h
    · exact h.popped hq hk
  | deint =>
    rcases execDeint_next he with rfl | ⟨hq, -, m, -, rfl⟩
    · exact h
    · exact h.move ⟨rfl, rfl, rfl, rfl, rfl, rfl⟩ rfl rfl (by simp [hq]) (by simp [hq]) (by simp [hq])
  | chsel =>
    rcases execChsel_next he with rfl | ⟨hq, -, m, -, rfl⟩
    · exact h
    · exact h.released hq m
  | firblk =>
    rcases execFirblk_next he with rfl | ⟨hq, -, b, -, ⟨-, -, hmask⟩, rfl⟩
    · exact h
    · refine h.move ⟨rfl, rfl, rfl, rfl, rfl, (flags_of_mask hmask).2⟩ rfl rfl (by simp [hq]) ?_ ?_ <;>
        cases b.valid <;> simp [hq]
  | s1step a w =>
    rcases execS1step_next he with rfl | ⟨-, -, c, v, y, -, rfl⟩
    · exact h
    · exact h.same ⟨rfl, rfl, rfl, rfl, rfl, rfl⟩ rfl rfl fun _ => rfl
  | s2step a x =>
    rcases execS2step_next he with rfl | ⟨-, -, c, o, -, rfl⟩
    · exact h
    · exact h.same ⟨rfl, rfl, rfl, rfl, rfl, (flags_of_raise (.inl rfl) rfl).2⟩ rfl rfl fun _ => rfl
  | s3step a x =>
    rcases execS3step_next he with rfl | ⟨-, -, -, c, o, -, rfl⟩
    · exact h
    · exact h.same ⟨rfl, rfl, rfl, rfl, rfl, (flags_of_raise (.inr (.inl rfl)) rfl).2⟩ rfl rfl fun _ => rfl
  | dcoe =>
    rcases execDcoe_next he with rfl | ⟨hq, -, ⟨-, rfl⟩ | ⟨-, rfl⟩⟩
    · exact h
    · exact h.move ⟨rfl, rfl, rfl, rfl, rfl, (flags_of_raise (.inr (.inr rfl)) rfl).2⟩ rfl rfl
        (by simp [hq]) (by simp [hq]) (by simp [hq])
    · exact h.move ⟨rfl, rfl, rfl, rfl, rfl, rfl⟩ rfl rfl (by simp [hq]) (by simp [hq]) (by simp [hq])
  | frmadd =>
    rcases execFrmadd_next he with rfl | ⟨hq, -, m, -, ⟨-, rfl⟩ | ⟨-, rfl⟩⟩
    · exact h
    all_goals
      exact h.move ⟨rfl, rfl, rfl, rfl, rfl, rfl⟩ rfl rfl (by simp [hq]) (by simp [hq]) (by simp [hq])
  | frmtx =>
    rcases execFrmtx_next he with rfl | ⟨hq, -, ⟨-, rfl⟩ | ⟨ws, wt, -, -, rfl⟩⟩
    · exact h
    all_goals
      exact h.move ⟨rfl, rfl, rfl, rfl, rfl, rfl⟩ rfl rfl (by simp [hq]) (by simp [hq]) (by simp [hq])
  | unwind =>
    rcases execUnwind_next he with rfl | ⟨hq, -, rfl⟩
    · exact h
    · exact h.move ⟨rfl, rfl, rfl, rfl, rfl, rfl⟩ rfl rfl (by simp [hq]) (by simp [hq]) (by simp [hq])
  | drain =>
    rcases execDrain_next he with rfl | ⟨hq, -, ⟨k, rest, hk, rfl⟩ | ⟨-, -, -, rfl⟩⟩
    · exact h
    · exact h.discarded hq hk
    · exact h.move ⟨rfl, rfl, rfl, rfl, rfl, rfl⟩ rfl rfl (by simp [hq]) (by simp [hq]) (by simp [hq])

/-- Settles O55: the agenda is no part of the invariant, and every operation keeps it. -/
theorem stepKeepsFlowControl : Obligations.StepKeepsFlowControl :=
  step_keeps (fun _ _ h => h.same ⟨rfl, rfl, rfl, rfl, rfl, rfl⟩ rfl rfl fun _ => rfl) flowInv_exec

/-! ### The numbers of a legal configuration (46_control_sequencer.md R288) -/

/-- A block has between 2 and 96 words, a frame and the ring at least one, the ring at most 255 buffers. -/
theorem LegalCfg.sizes {g : CfgRegs} (h : LegalCfg g) :
    (2 ≤ g.BW ∧ g.BW ≤ 96) ∧ 1 ≤ g.SPF ∧ 1 ≤ g.NFB ∧ g.NFB ≤ 255 := by
  obtain ⟨⟨hin, -, -⟩, -, hd, -, -⟩ := h.stages
  have hspf : 1 ≤ g.SPF ∧ g.SPF ≤ 65535 := h _ (by simp [initConditions, CfgRegs.SPF])
  have hnfb : 1 ≤ g.NFB ∧ g.NFB ≤ 255 := h _ (by simp [initConditions, CfgRegs.NFB])
  have hbw : 2 ≤ g.BW ∧ g.BW ≤ 96 := by
    unfold CfgRegs.BW CfgRegs.N_IN
    simp only [List.mem_cons, List.not_mem_nil, or_false] at hin hd
    rcases hin with e | e | e | e | e <;> rw [e] <;> omega
  exact ⟨hbw, hspf.1, hnfb⟩

/-- The position reloaded for a block is its last word. -/
theorem LegalCfg.reload {g : CfgRegs} (h : LegalCfg g) : (BitVec.ofNat 8 (g.BW - 1)).toNat = g.BW - 1 := by
  obtain ⟨⟨-, hbw⟩, -⟩ := h.sizes
  rw [BitVec.toNat_ofNat]; exact Nat.mod_eq_of_lt (by omega)

/-! ### Words that were written stay written -/

/-- A write gives a word a value and takes none away. -/
theorem isSome_read_write {m : Memory} {i j : Nat} {v : Word} (h : j ≠ i → (m.read j).isSome = true) :
    ((m.write i v).read j).isSome = true := by
  rw [Memory.read_write]
  split <;> simp_all

theorem isSome_read_store {sp : Space} {n i j : Nat} {v : Word} {m m' : Memory}
    (hs : store sp n m i v = .ok m') (h : j ≠ i → (m.read j).isSome = true) :
    (m'.read j).isSome = true := by
  rw [(store_eq_ok.1 hs).2]; exact isSome_read_write h

/-- Deinterleaving a half takes no word's value away (40_deinterleave.md R141). -/
theorem isSome_read_deintHalf {n groups j : Nat} {m m' : Memory} (hd : deintHalf n groups m = .ok m')
    (h : (m.read j).isSome = true) : (m'.read j).isSome = true := by
  refine forRange_ok_ind (fun _ (m : Memory) => (m.read j).isSome = true) hd h fun g a b _ ha hb => ?_
  unfold deintOneGroup at hb
  split at hb
  · cases hb
  · exact forRange_ok_ind (fun _ (m : Memory) => (m.read j).isSome = true) hb ha
      fun c x y _ hx hy => isSome_read_store hy fun _ => hx

/-- Channel selection writes the word of its channel and group (40_deinterleave.md R150). -/
theorem isSome_read_selectWord {g : CfgRegs} {half ob ob' : Memory} {c k j : Nat}
    (hs : selectWord g half c k ob = .ok ob') (h : j ≠ c * g.D2 + k → (ob.read j).isSome = true) :
    (ob'.read j).isSome = true := by
  unfold selectWord at hs
  split at hs
  · cases hs
  · split at hs
    · cases hs
    · exact isSome_read_store hs h

/-- Channel selection that goes on writes the whole output block (40_deinterleave.md R150). -/
theorem written_selectBlock {g : CfgRegs} {half ob ob' : Memory} (hs : selectBlock g half ob = .ok ob') :
    Written ob' g.OBW := by
  refine forRange_ok_ind (fun c (m : Memory) => Written m (c * g.D2)) hs (fun i hi => by omega)
    fun c a b _ ha hb => ?_
  rw [Nat.add_one_mul]
  exact forRange_ok_ind (fun k (m : Memory) => Written m (c * g.D2 + k)) hb ha fun k x y _ hx hy j hj =>
    isSome_read_selectWord hy fun hne => hx j (by omega)

theorem isSome_read_addSample {c j : Nat} {m m' : Memory} (ha : addSample s c m = .ok m')
    (h : j ≠ s.cfg.frmIndex s.frmBuf.toNat c s.frmCol.toNat → (m.read j).isSome = true) :
    (m'.read j).isSome = true := by
  unfold addSample at ha
  split at ha
  · cases ha
  · exact isSome_read_store ha h

/-- Adding a column writes it for every channel and takes no word's value away (45_framing_transfer.md R252). -/
theorem isSome_read_column {m m' : Memory} (h : forRange s.cfg.N_OUT (addSample s) m = .ok m') :
    (∀ c < s.cfg.N_OUT, (m'.read (s.cfg.frmIndex s.frmBuf.toNat c s.frmCol.toNat)).isSome = true) ∧
    ∀ j, (m.read j).isSome = true → (m'.read j).isSome = true := by
  constructor
  · refine forRange_ok_ind (fun n (m : Memory) => ∀ c < n,
      (m.read (s.cfg.frmIndex s.frmBuf.toNat c s.frmCol.toNat)).isSome = true) h (fun c hc => by omega)
      fun n a b _ ha hb c hc => isSome_read_addSample hb fun hne => ha c ?_
    have : c ≠ n := fun e => hne (by rw [e])
    omega
  · exact fun j hj => forRange_ok_ind (fun _ (m : Memory) => (m.read j).isSome = true) h hj
      fun n a b _ ha hb => isSome_read_addSample hb fun _ => ha

/-- The words of a half of `BUF` after a half is replaced by one with no fewer words written. -/
theorem isSome_read_setHalf {v : Vector Memory 2} {k h : Half} {m : Memory} {j : Nat}
    (hm : (v[k].read j).isSome = true → (m.read j).isSome = true) (hj : (v[h].read j).isSome = true) :
    ((v.set k m)[h].read j).isSome = true := by
  rw [getElem_set_fin]
  split
  · rename_i e; subst e; exact hm hj
  · exact hj

/-! ### The phases of the filters (42_stage23.md R180) -/

/-- Every phase of Stage 2, and with three stages of Stage 3, is below its decimation factor. -/
def PhasesInRange (g : CfgRegs) (ch : Vector Channel 16) : Prop :=
  (∀ c : Fin 16, ch[c].st2.ph.toNat < g.D2) ∧
    (g.nStages.toNat = 3 → ∀ c : Fin 16, ch[c].st3.ph.toNat < g.D3)

theorem RangeInv.phases (h : RangeInv s) (ha : s.active) : PhasesInRange s.cfg s.ch := ⟨h.ph2 ha, h.ph3 ha⟩

/-- A step of a stage that goes on leaves its phase in range. -/
theorem phase_firStep {sp : Space} {m : Memory} {p : FirParams} {x : Word} {f : FirState} {o : FirOut}
    (h : firStep sp m p x f = .ok o) (hf : f.ph.toNat < p.dec) : o.st.ph.toNat < p.dec := by
  unfold firStep at h
  split at h
  · cases h
  · cases h
    unfold firFinish
    split
    · exact Nat.zero_lt_of_lt hf
    · have hle : (f.ph + 1).toNat ≤ f.ph.toNat + 1 := by
        rw [BitVec.toNat_add]; exact Nat.mod_le _ _
      dsimp only
      omega

/-- One channel replaced by one with phases in range. -/
theorem PhasesInRange.set {g : CfgRegs} {ch : Vector Channel 16} (h : PhasesInRange g ch) (c : Fin 16)
    {x : Channel} (h2 : x.st2.ph.toNat < g.D2) (h3 : g.nStages.toNat = 3 → x.st3.ph.toNat < g.D3) :
    PhasesInRange g (ch.set c x) := by
  constructor
  · intro j
    rw [getElem_set_fin]
    split
    · exact h2
    · exact h.1 j
  · intro hn j
    rw [getElem_set_fin]
    split
    · exact h3 hn
    · exact h.2 hn j

theorem phases_dcoeColumn {g : CfgRegs} {ch : Vector Channel 16} (h : PhasesInRange g ch) (n : Nat) :
    PhasesInRange g (dcoeColumn n ch) := by
  have hc : ∀ c : Fin 16, (dcoeColumn n ch)[c].st2 = ch[c].st2 ∧ (dcoeColumn n ch)[c].st3 = ch[c].st3 := by
    intro c
    simp only [dcoeColumn, Fin.getElem_fin, Vector.getElem_ofFn]
    split <;> exact ⟨rfl, rfl⟩
  exact ⟨fun c => by rw [(hc c).1]; exact h.1 c, fun hn c => by rw [(hc c).2]; exact h.2 hn c⟩

/-- The inner loop of FIRBLK keeps a channel's phases in range and does not touch Stage 3. -/
theorem phases_blockPasses {c n : Nat} {a b : BlockAcc}
    (h : forRange n (blockPass s c) a = .ok b) (ha : a.ch.st2.ph.toNat < s.cfg.D2) :
    b.ch.st2.ph.toNat < s.cfg.D2 ∧ b.ch.st3 = a.ch.st3 := by
  refine forRange_ok_ind (fun _ (x : BlockAcc) => x.ch.st2.ph.toNat < s.cfg.D2 ∧ x.ch.st3 = a.ch.st3) h
    ⟨ha, rfl⟩ fun k x y _ hx hy => ?_
  unfold blockPass at hy
  split at hy
  · cases hy
  split at hy
  · cases hy
  split at hy
  · cases hy
  rename_i o ho
  cases hy
  exact ⟨phase_firStep ho hx.1, hx.2⟩

/-- FIRBLK on one channel keeps every phase in range. -/
theorem phases_blockChannel {c : Nat} {b b' : BlockOut} (h : blockChannel c b = .ok b')
    (hb : PhasesInRange b.st.cfg b.st.ch) : PhasesInRange b.st.cfg b'.st.ch := by
  unfold blockChannel at h
  split at h
  · cases h
  · rename_i i hi
    split at h
    · cases h
    · rename_i a ha
      obtain ⟨h2, h3⟩ := phases_blockPasses ha (hb.1 i)
      have h3' : b.st.cfg.nStages.toNat = 3 → a.ch.st3.ph.toNat < b.st.cfg.D3 := fun hn => by
        rw [h3]; exact hb.2 hn i
      unfold blockTail at h
      split at h
      · cases h; exact hb.set i h2 h3'
      · split at h
        · cases h
        · rename_i o ho
          cases h
          exact hb.set i h2 fun hn => phase_firStep ho (h3' hn)

theorem phases_firblk {b : BlockOut} (h : forRange s.cfg.N_OUT blockChannel { st := s, valid := false } = .ok b)
    (hs : PhasesInRange s.cfg s.ch) : PhasesInRange s.cfg b.st.ch := by
  refine (forRange_ok_ind (fun _ (b : BlockOut) => BlockFrame s b.st ∧ PhasesInRange s.cfg b.st.ch) h
    ⟨BlockFrame.refl s, hs⟩ fun c x y _ hx hy => ⟨blockChannel_frame hx.1 hy, ?_⟩).2
  have hcfg : x.st.cfg = s.cfg := by rw [hx.1.1]
  exact hcfg ▸ phases_blockChannel hy (hcfg.symm ▸ hx.2)

/-! ### The run invariant (10_state.md R22, R28, R35, R38; 60_exceptions.md R330) -/

/-- Away from armed, running and shutting-down only the shutdown clauses say anything. -/
theorem RunInv.of_not_active (ha : ¬ s.active) (h : ShutdownInv s) : RunInv s := by
  refine ⟨?_, h, ?_⟩ <;> constructor <;> exact fun h => absurd h ha

theorem runInv_reset : RunInv State.reset :=
  RunInv.of_not_active (by simp [State.active, State.reset])
    ⟨by simp [State.reset], by simp [State.reset], by simp [State.reset]⟩

/-- What the run invariant does not read: credit, tags, the host link, the counters, `STATUS`, the coefficients and
the model's own fields. -/
theorem RunInv.same (h : RunInv s)
    (e : t = { s with
      credit := t.credit, own := t.own, hostPend := t.hostPend, dropCount := t.dropCount,
      status := t.status, fatalCause := t.fatalCause, smpValid := t.smpValid, coef1 := t.coef1,
      coef2 := t.coef2, coef3 := t.coef3, agenda := t.agenda, returned := t.returned, link := t.link,
      freeTick := t.freeTick }) : RunInv t := by
  rw [e]
  exact ⟨{ h.range with }, { h.shutdown with }, { h.written with }⟩

theorem rangeInv_afterInit (hc : LegalCfg s.cfg) : RangeInv s.afterInit := by
  obtain ⟨⟨hbw, -⟩, hspf, hnfb, -⟩ := hc.sizes
  obtain ⟨-, -, hd2, -, h3⟩ := hc.stages
  have hpos : s.afterInit.wrPos.toNat = s.cfg.BW - 1 := hc.reload
  have hpos2 : 0 < s.cfg.D2 := by
    by_contra hz
    rw [Nat.eq_zero_of_not_pos hz] at hd2; exact absurd hd2 (by decide)
  have hpos3 : s.cfg.nStages.toNat = 3 → 0 < s.cfg.D3 := fun hn => by
    by_contra hz
    have hd3 := (h3 hn).1
    rw [Nat.eq_zero_of_not_pos hz] at hd3; exact absurd hd3 (by decide)
  constructor
  case legal => exact fun _ => hc
  case wrPos => intro _; rw [hpos, State.afterInit_cfg]; omega
  case frmCol => exact fun _ => hspf
  case frmBuf => exact fun _ => hnfb
  case ph2 => intro _ c; simpa [Channel.afterInit, Channel.reset, FirState.zero] using hpos2
  case ph3 => intro _ hn c; simpa [Channel.afterInit, Channel.reset, FirState.zero] using hpos3 hn

theorem writtenInv_afterInit (hc : LegalCfg s.cfg) : WrittenInv s.afterInit := by
  have hpos : s.afterInit.wrPos.toNat = s.cfg.BW - 1 := hc.reload
  constructor
  case filling =>
    intro _ i hlo hhi
    rw [hpos] at hlo
    rw [State.afterInit_cfg] at hhi
    omega
  all_goals simp

theorem runInv_afterInit (hc : LegalCfg s.cfg) : RunInv s.afterInit :=
  ⟨rangeInv_afterInit hc, ⟨by simp, by simp, by simp⟩, writtenInv_afterInit hc⟩

/-- The consumer moves on, away from `C_OFF` and `C_DRAIN`: neither shutdown flag nor `RX_STATE` moves. -/
theorem ShutdownInv.move (h : ShutdownInv s) {q : CSeq} (hq : s.cseq ≠ .off ∧ s.cseq ≠ .drain) :
    ShutdownInv { s with cseq := q } where
  flagged := h.flagged
  unwound := fun hf => absurd (h.unwound hf) (by simp [hq])
  fresh := fun hr => absurd (h.fresh hr).1 hq.1

/-- The consumer moves to a place whose operation reads no memory word. -/
theorem WrittenInv.move (h : WrittenInv s) {q : CSeq} (hq : q ∉ [CSeq.deint, .chsel, .fir, .frmtx]) :
    WrittenInv { s with cseq := q } := by
  simp only [List.mem_cons, List.not_mem_nil, or_false, not_or] at hq
  exact { h with
    held := fun _ hc => absurd hc (by simp [hq])
    block := fun _ hc => absurd hc (by simp [hq])
    columns := fun ha _ c hc k hk => by
      by_cases hf : s.cseq = .frmtx
      · have h0 : s.frmCol = 0 := h.frameStart ha hf
        simp [h0] at hk
      · exact h.columns ha hf c hc k hk
    frame := fun _ hc => absurd hc (by simp [hq])
    frameStart := fun _ hc => absurd hc (by simp [hq]) }

/-- While the producer is active, which of its states it is in does not matter to the ranges. -/
theorem RangeInv.withRxState (h : RangeInv s) (ha : s.active) (r : RxState) :
    RangeInv { s with rxState := r } :=
  ⟨fun _ => h.legal ha, fun _ => h.wrPos ha, fun _ => h.frmCol ha, fun _ => h.frmBuf ha, fun _ => h.ph2 ha,
    fun _ => h.ph3 ha⟩

theorem WrittenInv.withRxState (h : WrittenInv s) (ha : s.active) (r : RxState) :
    WrittenInv { s with rxState := r } :=
  ⟨fun _ => h.filling ha, fun _ => h.queued ha, fun _ => h.pending ha, fun _ => h.held ha,
    fun _ => h.block ha, fun _ => h.columns ha, fun _ => h.frame ha, fun _ => h.frameStart ha⟩

/-- START (46_control_sequencer.md R290). -/
theorem RunInv.started (h : RunInv s) (ha : s.rxState = .armed) :
    RunInv { s with rxState := .running, cseq := .req } :=
  have hflag := (h.shutdown.fresh (.inr ha)).2
  ⟨{ h.range.withRxState (.inl ha) .running with }, ⟨by simp, by simp [hflag], by simp⟩,
    (h.written.withRxState (.inl ha) .running).move (q := .req) (by decide)⟩

/-- The producer has seen the shutdown flag (44_pdm_rx_credit_fifo.md R215). -/
theorem RunInv.leaving (h : RunInv s) (hr : s.rxState = .running) (hf : s.rxSdFlag = true) :
    RunInv { s with rxState := .shuttingDown } :=
  ⟨h.range.withRxState (.inr (.inl hr)) _, ⟨fun _ => hf, h.shutdown.unwound, by simp⟩,
    h.written.withRxState (.inr (.inl hr)) _⟩

/-- The store of a PDMWORD writes one word and takes none away (44_pdm_rx_credit_fifo.md R212). -/
theorem isSome_read_wordTaken {w : Word} {k : Half} {j : Nat} (h : (s.buf[k].read j).isSome = true) :
    ((s.wordTaken w).buf[k].read j).isSome = true :=
  isSome_read_setHalf (fun hj => isSome_read_write fun _ => hj) h

/-- After the store the half being filled is written from `WR_POS` up. -/
theorem WrittenInv.filled (h : WrittenInv s) (ha : s.active) (w : Word) {j : Nat}
    (hlo : s.wrPos.toNat ≤ j) (hhi : j < s.cfg.BW) :
    ((s.wordTaken w).buf[s.fillSel].read j).isSome = true := by
  have hset : (s.wordTaken w).buf[s.fillSel] = s.buf[s.fillSel].write s.wrPos.toNat w := by
    simp [State.wordTaken]
  rw [hset]
  exact isSome_read_write fun hne => h.filling ha j (by omega) hhi

/-- A word stored, but for the position, keeps every other word that a consumer operation will read. -/
theorem WrittenInv.stored (h : WrittenInv s) (w : Word) : WrittenInv (s.wordTaken w) :=
  { h with
    filling := fun ha i h1 h2 => isSome_read_wordTaken (h.filling ha i h1 h2)
    queued := fun ha k hk i hi => isSome_read_wordTaken (h.queued ha k hk i hi)
    pending := fun ha hp i hi => isSome_read_wordTaken (h.pending ha hp i hi)
    held := fun ha hq i hi => isSome_read_wordTaken (h.held ha hq i hi) }

/-- A word inside a block. -/
theorem RunInv.word (h : RunInv s) (hr : s.rxState = .running) (w : Word) (hp : 0 < s.wrPos.toNat) :
    RunInv { s.wordTaken w with wrPos := s.wrPos - 1 } := by
  have hs : s.active := .inr (.inl hr)
  have hsub : (s.wrPos - 1).toNat = s.wrPos.toNat - 1 := by
    rw [BitVec.toNat_sub_of_le (show 1 ≤ s.wrPos from BitVec.le_def.2 hp)]; rfl
  have hlt := h.range.wrPos hs
  exact ⟨{ h.range with wrPos := fun _ => by dsimp only; rw [hsub]; exact lt_of_le_of_lt (Nat.sub_le _ _) hlt },
    { h.shutdown with },
    { h.written.stored w with
      filling := fun _ i h1 h2 => h.written.filled hs w (by dsimp only at h1; omega) h2 }⟩

/-- A half that is full is handed off, kept pending, or dropped. -/
theorem RunInv.handedOff (h : RunInv s) {k : Half} (hk : Written s.buf[k] s.cfg.BW) :
    RunInv (s.handoffAttempt k) := by
  have hpush : ∀ j ∈ s.fifo ++ [k], s.active → Written s.buf[j] s.cfg.BW := fun j hj ha => by
    rcases List.mem_append.1 hj with hj | hj
    · exact h.written.queued ha j hj
    · rw [List.mem_singleton.1 hj]; exact hk
  rcases s.handoffAttempt_cases k with ⟨-, -, e⟩ | ⟨-, -, -, e⟩ | ⟨-, -, -, e⟩ | ⟨-, -, e⟩ | ⟨-, -, e⟩ <;>
    rw [e]
  · exact ⟨{ h.range with }, { h.shutdown with },
      { h.written with queued := fun ha j hj => hpush j hj ha }⟩
  · exact h.same rfl
  · unfold State.raiseFatal
    split
    · exact h
    · exact h.same rfl
  · exact ⟨{ h.range with }, { h.shutdown with },
      { h.written with queued := fun ha j hj => hpush j hj ha }⟩
  · exact ⟨{ h.range with }, { h.shutdown with }, { h.written with pending := fun _ _ => hk }⟩

/-- PDMWORD keeps the run invariant. -/
theorem runInv_execPdmword {w : Word} (h : RunInv s) (he : execPdmword w s = .next t) : RunInv t := by
  rcases execPdmword_next he with rfl | ⟨hr, -, -, ⟨hf, rfl⟩ | ⟨-, -, hp, rfl⟩ | ⟨-, hz, rfl⟩⟩
  · exact h
  · exact h.leaving hr hf
  · exact h.word hr w hp
  · have hs : s.active := .inr (.inl hr)
    have hpos := (h.range.legal hs).reload
    obtain ⟨⟨hbw, -⟩, -⟩ := (h.range.legal hs).sizes
    have hu : RunInv { s.wordTaken w with
        wrPos := BitVec.ofNat 8 (s.cfg.BW - 1), fillSel := 1 - s.fillSel } :=
      ⟨{ h.range with wrPos := fun _ => by dsimp only; rw [hpos]; exact Nat.sub_lt (by omega) one_pos },
        { h.shutdown with },
        { h.written.stored w with
          filling := fun _ i h1 h2 => by
            dsimp only at h1 h2
            have h2 : i < s.cfg.BW := h2
            rw [hpos] at h1; omega }⟩
    exact hu.handedOff fun i hi => h.written.filled hs w (by simp [hz]) hi

/-- BLKPOP: the half taken was queued, so it is written. -/
theorem RunInv.popped (h : RunInv s) (hq : s.cseq = .wait) {k : Half} {rest : List Half}
    (hk : s.fifo = k :: rest) :
    RunInv { s with cur := k, fifo := rest, own := s.own.set k .consumer, cseq := .deint } :=
  ⟨{ h.range with }, { h.shutdown.move (by simp [hq]) with },
    { h.written with
      queued := fun ha j hj => h.written.queued ha j (hk ▸ List.mem_cons_of_mem k hj)
      held := fun ha _ => h.written.queued ha k (hk ▸ List.mem_cons_self)
      block := fun _ hc => by cases hc
      columns := fun ha _ => h.written.columns ha (by simp [hq])
      frame := fun _ hc => by cases hc
      frameStart := fun _ hc => by cases hc }⟩

/-- DEINT: the half is rewritten in place. -/
theorem RunInv.deinterleaved (h : RunInv s) (hq : s.cseq = .deint) {m : Memory}
    (hm : deintHalf s.cfg.N_IN s.cfg.D2 s.buf[s.cur] = .ok m) :
    RunInv { s with buf := s.buf.set s.cur m, cseq := .chsel } := by
  have key : ∀ {k : Half} {j : Nat}, (s.buf[k].read j).isSome = true →
      ((s.buf.set s.cur m)[k].read j).isSome = true :=
    isSome_read_setHalf (isSome_read_deintHalf hm)
  exact ⟨{ h.range with }, { h.shutdown.move (by simp [hq]) with },
    { h.written with
      filling := fun ha i h1 h2 => key (h.written.filling ha i h1 h2)
      queued := fun ha k hk i hi => key (h.written.queued ha k hk i hi)
      pending := fun ha hp i hi => key (h.written.pending ha hp i hi)
      held := fun ha _ i hi => key (h.written.held ha (.inl hq) i hi)
      block := fun _ hc => by cases hc
      columns := fun ha _ => h.written.columns ha (by simp [hq])
      frame := fun _ hc => by cases hc
      frameStart := fun _ hc => by cases hc }⟩

/-- CHSEL: the output block is written as a whole. -/
theorem RunInv.selected (h : RunInv s) (hq : s.cseq = .chsel) {m : Memory}
    (hm : selectBlock s.cfg s.buf[s.cur] s.ob = .ok m) :
    RunInv { s with ob := m, own := s.own.set s.cur .producer, cseq := .fir } :=
  ⟨{ h.range with }, { h.shutdown.move (by simp [hq]) with },
    { h.written with
      held := fun _ hc => by rcases hc with hc | hc <;> cases hc
      block := fun _ _ => written_selectBlock hm
      columns := fun ha _ => h.written.columns ha (by simp [hq])
      frame := fun _ hc => by cases hc
      frameStart := fun _ hc => by cases hc }⟩

/-- FRMADD: the column at `FRM_COL` joins those before it; the last one makes the frame complete. -/
theorem RunInv.columnAdded (h : RunInv s) (hq : s.cseq = .frmadd) {m : Memory}
    (hm : forRange s.cfg.N_OUT (addSample s) s.frm = .ok m) :
    (s.frmCol.toNat = s.cfg.SPF - 1 → RunInv { s with frm := m, frmCol := 0, cseq := .frmtx }) ∧
    (s.frmCol.toNat ≠ s.cfg.SPF - 1 →
      RunInv { s with frm := m, frmCol := s.frmCol + 1, cseq := .req }) := by
  obtain ⟨hnew, hold⟩ := isSome_read_column hm
  have hcols : s.active → ∀ c < s.cfg.N_OUT, ∀ k ≤ s.frmCol.toNat,
      (m.read (s.cfg.frmIndex s.frmBuf.toNat c k)).isSome = true := fun ha c hc k hk => by
    rcases Nat.lt_or_eq_of_le hk with hlt | rfl
    · exact hold _ (h.written.columns ha (by simp [hq]) c hc k hlt)
    · exact hnew c hc
  constructor
  · intro hlast
    exact ⟨{ h.range with frmCol := fun ha => Nat.zero_lt_of_lt (h.range.frmCol ha) },
      { h.shutdown.move (by simp [hq]) with },
      { h.written with
        held := fun _ hc => by rcases hc with hc | hc <;> cases hc
        block := fun _ hc => by cases hc
        columns := fun _ hne => absurd rfl hne
        frame := fun ha _ c hc k hk => hcols ha c hc k (by have : k < s.cfg.SPF := hk; omega)
        frameStart := fun _ _ => rfl }⟩
  · intro hmore
    have hle : (s.frmCol + 1).toNat ≤ s.frmCol.toNat + 1 := by
      rw [BitVec.toNat_add]; exact Nat.mod_le _ _
    have hlt : s.frmCol.toNat < s.cfg.SPF → (s.frmCol + 1).toNat < s.cfg.SPF := fun hc => by omega
    exact ⟨{ h.range with frmCol := fun ha => hlt (h.range.frmCol ha) },
      { h.shutdown.move (by simp [hq]) with },
      { h.written with
        held := fun _ hc => by rcases hc with hc | hc <;> cases hc
        block := fun _ hc => by cases hc
        columns := fun ha _ c hc k hk =>
          hcols ha c hc k (by have : k < (s.frmCol + 1).toNat := hk; omega)
        frame := fun _ hc => by cases hc
        frameStart := fun _ hc => by cases hc }⟩

/-- FRMTX delivers the frame: the ring advances by one buffer (45_framing_transfer.md R253). -/
theorem RunInv.delivered (h : RunInv s) (hq : s.cseq = .frmtx) (ws wt : List Word) :
    RunInv (s.deliver ws wt) := by
  have hlt : s.active → (BitVec.ofNat 8 ((s.frmBuf.toNat + 1) % s.cfg.NFB)).toNat < s.cfg.NFB := fun ha => by
    rw [BitVec.toNat_ofNat]
    exact lt_of_le_of_lt (Nat.mod_le _ _) (Nat.mod_lt _ (Nat.zero_lt_of_lt (h.range.frmBuf ha)))
  exact ⟨{ h.range with frmBuf := hlt }, { h.shutdown.move (q := .req) (by simp [hq]) with },
    { h.written.move (q := .req) (by decide) with
      columns := fun ha _ c _ k hk => by
        have h0 : s.frmCol = 0 := h.written.frameStart ha hq
        simp [h0] at hk
      frame := fun _ hc => by cases hc }⟩

/-- The consumer moves on from a place other than `C_OFF` and `C_DRAIN`, to one whose operation reads no memory
word. -/
theorem RunInv.move (h : RunInv s) {q : CSeq} (hs : s.cseq ≠ .off ∧ s.cseq ≠ .drain)
    (hq : q ∉ [CSeq.deint, .chsel, .fir, .frmtx]) : RunInv { s with cseq := q } :=
  ⟨{ h.range with }, h.shutdown.move hs, h.written.move hq⟩

/-- The channels change, their phases staying in range. -/
theorem RunInv.channels (h : RunInv s) {ch : Vector Channel 16}
    (hp : s.active → PhasesInRange s.cfg s.ch → PhasesInRange s.cfg ch) : RunInv { s with ch := ch } :=
  ⟨{ h.range with
      ph2 := fun ha => (hp ha (h.range.phases ha)).1
      ph3 := fun ha => (hp ha (h.range.phases ha)).2 }, { h.shutdown with }, { h.written with }⟩

/-- UNWIND raises the shutdown flag (45_framing_transfer.md R262). -/
theorem RunInv.unwinding (h : RunInv s) (hq : s.cseq = .unwind) :
    RunInv { s with rxSdFlag := true, cseq := .drain } :=
  ⟨{ h.range with },
    ⟨fun _ => rfl, fun _ => .inl rfl, fun hr => absurd (h.shutdown.fresh hr).1 (by simp [hq])⟩,
    { h.written.move (q := .drain) (by decide) with }⟩

/-- DRAIN discards blocks, then takes the consumer off (45_framing_transfer.md R263). -/
theorem runInv_execDrain (h : RunInv s) (he : execDrain s = .next t) : RunInv t := by
  rcases execDrain_next he with rfl | ⟨-, -, ⟨k, rest, hk, rfl⟩ | ⟨-, hr, -, rfl⟩⟩
  · exact h
  · exact ⟨{ h.range with }, { h.shutdown with },
      { h.written with queued := fun ha j hj => h.written.queued ha j (hk ▸ List.mem_cons_of_mem k hj) }⟩
  · exact RunInv.of_not_active (by simp [State.active, hr])
      ⟨fun _ => h.shutdown.flagged (.inr hr), by simp, by simp [hr]⟩

/-- A host write while the machine is not active changes a table only. -/
theorem RunInv.tableWritten (h : RunInv s) (ho : s.configOpen = true) (hrx : t.rxState = s.rxState)
    (hq : t.cseq = s.cseq) (hf : t.rxSdFlag = s.rxSdFlag) : RunInv t :=
  RunInv.of_not_active (fun ha => not_active_of_configOpen ho (active_of_eq hrx ha))
    ⟨by rw [hrx, hf]; exact h.shutdown.flagged, by rw [hf, hq]; exact h.shutdown.unwound,
      by rw [hrx, hq, hf]; exact h.shutdown.fresh⟩

/-- Every operation keeps the run invariant. -/
theorem runInv_exec (i : Instr) (s t : State) (h : RunInv s) (he : exec i s = .next t) : RunInv t := by
  cases i with
  | reset => cases he; exact runInv_reset.same rfl
  | cfgwr b v =>
    rcases execCfgwr_next he with rfl | ⟨ho, r, -, rfl⟩
    · exact h
    · exact h.tableWritten ho (by simp) (by simp) (by simp)
  | csrrd b =>
    obtain ⟨r, -, rfl⟩ := execCsrrd_next he
    exact h.same rfl
  | coefwr a b v =>
    rcases execCoefwr_next he with rfl | ⟨ho, st, k, -, rfl⟩
    · exact h
    · exact h.tableWritten ho (by simp) (by simp) (by simp)
  | init =>
    rcases execInit_next he with rfl | ⟨ho, c, -, rfl⟩ | ⟨-, hc, rfl⟩
    · exact h
    · exact h.tableWritten ho (by simp) (by simp) (by simp)
    · exact runInv_afterInit ((initFailure_eq_none _).1 hc)
  | start =>
    rcases execStart_next he with rfl | ⟨ha, -, rfl⟩
    · exact h
    · exact h.started ha
  | rxframe | rxframet | shutdown =>
    rcases linkCommand_next he with rfl | ⟨-, -, -, rfl⟩
    · exact h
    · exact h.same rfl
  | pdmword w => exact runInv_execPdmword h he
  | handoff =>
    rcases execHandoff_next he with rfl | ⟨hp, -, -, rfl⟩
    · exact h
    · exact ⟨{ h.range with }, { h.shutdown with },
        { h.written with
          queued := fun ha j hj => (List.mem_append.1 hj).elim (h.written.queued ha j) fun hj => by
            rw [List.mem_singleton.1 hj]; exact h.written.pending ha hp
          pending := fun _ hc => by cases hc }⟩
  | rxexit =>
    rcases execRxexit_next he with rfl | ⟨hr, -, rfl⟩
    · exact h
    · exact RunInv.of_not_active (by simp [State.active])
        ⟨fun _ => h.shutdown.flagged (.inl hr), h.shutdown.unwound, by simp⟩
  | blkreq =>
    rcases execBlkreq_next he with rfl | ⟨hq, -, rfl⟩
    · exact h
    · exact (h.move (q := .wait) (by simp [hq]) (by decide)).same rfl
  | blkpop =>
    rcases execBlkpop_next he with rfl | ⟨hq, -, k, rest, hk, rfl⟩
    · exact h
    · exact h.popped hq hk
  | deint =>
    rcases execDeint_next he with rfl | ⟨hq, -, m, hm, rfl⟩
    · exact h
    · exact h.deinterleaved hq hm
  | chsel =>
    rcases execChsel_next he with rfl | ⟨hq, -, m, hm, rfl⟩
    · exact h
    · exact h.selected hq hm
  | firblk =>
    rcases execFirblk_next he with rfl | ⟨hq, -, b, hb, -, rfl⟩
    · exact h
    · have hm := (h.channels fun _ => phases_firblk hb).move
        (q := if b.valid then .dcoe else .req) (by simp [hq]) (by cases b.valid <;> decide)
      exact hm.same rfl
  | s1step a w =>
    rcases execS1step_next he with rfl | ⟨-, -, c, v, y, -, rfl⟩
    · exact h
    · have hm := h.channels (ch := s.ch.set c { s.ch[c] with h1 := v })
        fun _ hp => hp.set c (hp.1 c) fun hn => hp.2 hn c
      exact hm.same rfl
  | s2step a x =>
    rcases execS2step_next he with rfl | ⟨-, -, c, o, ho, rfl⟩
    · exact h
    · have hm := h.channels (ch := s.ch.set c { s.ch[c] with st2 := o.st })
        fun _ hp => hp.set c (phase_firStep ho (hp.1 c)) fun hn => hp.2 hn c
      exact hm.same rfl
  | s3step a x =>
    rcases execS3step_next he with rfl | ⟨-, -, -, c, o, ho, rfl⟩
    · exact h
    · have hm := h.channels (ch := s.ch.set c { s.ch[c] with st3 := o.st })
        fun _ hp => hp.set c (hp.1 c) fun hn => phase_firStep ho (hp.2 hn c)
      exact hm.same rfl
  | dcoe =>
    rcases execDcoe_next he with rfl | ⟨hq, -, ⟨-, rfl⟩ | ⟨-, rfl⟩⟩
    · exact h
    · have hm := (h.channels fun _ hp => phases_dcoeColumn hp s.cfg.N_OUT).move
        (q := .frmadd) (by simp [hq]) (by decide)
      exact hm.same rfl
    · exact h.move (by simp [hq]) (by decide)
  | frmadd =>
    rcases execFrmadd_next he with rfl | ⟨hq, -, m, hm, ⟨hc, rfl⟩ | ⟨hc, rfl⟩⟩
    · exact h
    · exact (h.columnAdded hq hm).1 hc
    · exact (h.columnAdded hq hm).2 hc
  | frmtx =>
    rcases execFrmtx_next he with rfl | ⟨hq, -, ⟨-, rfl⟩ | ⟨ws, wt, -, -, rfl⟩⟩
    · exact h
    · exact (h.move (q := .unwind) (by simp [hq]) (by decide)).same rfl
    · exact h.delivered hq ws wt
  | unwind =>
    rcases execUnwind_next he with rfl | ⟨hq, -, rfl⟩
    · exact h
    · exact h.unwinding hq
  | drain => exact runInv_execDrain h he

/-- Settles O56: the agenda is no part of the invariant, and every operation keeps it. -/
theorem stepKeepsRunnable : Obligations.StepKeepsRunnable :=
  step_keeps (fun _ _ h => h.same rfl) runInv_exec

/-! ### STATUS and FATAL_CAUSE (10_state.md R40, R41; 60_exceptions.md R322, R323) -/

/-- No flag is cleared; `FATAL` and `FATAL_CAUSE` stay as they are, or a fatal stop with its cause is recorded. -/
structure StatusGrows (s t : State) : Prop where
  sticky : ∀ f, s.flag f = true → t.flag f = true
  cause : (t.fatal = s.fatal ∧ t.fatalCause = s.fatalCause) ∨ (t.fatal = true ∧ t.fatalCause ≠ 0)

theorem StatusGrows.same (hs : t.status = s.status) (hc : t.fatalCause = s.fatalCause) : StatusGrows s t :=
  ⟨fun f hf => (flag_of_status hs f).trans hf, .inl ⟨flag_of_status hs .fatal, hc⟩⟩

theorem StatusGrows.refl (s : State) : StatusGrows s s := .same rfl rfl

theorem StatusGrows.trans {u : State} (h : StatusGrows s t) (h' : StatusGrows t u) : StatusGrows s u := by
  refine ⟨fun f hf => h'.sticky f (h.sticky f hf), ?_⟩
  rcases h'.cause with ⟨hf, hc⟩ | hstop
  · rw [hf, hc]; exact h.cause
  · exact .inr hstop

/-- A flag other than `FATAL` is raised. -/
theorem StatusGrows.raised {f : Flag} {on : Bool} (hf : f ≠ .fatal)
    (hs : t.status = (s.raiseFlag f on).status) (hc : t.fatalCause = s.fatalCause) : StatusGrows s t := by
  have hflag : ∀ g, t.flag g = (s.flag g || (on && decide (f = g))) := fun g => by
    rw [flag_of_status hs g, State.flag_raiseFlag]
  refine ⟨fun g hg => by rw [hflag, hg, Bool.true_or], .inl ⟨?_, hc⟩⟩
  simp [State.fatal, hflag, hf]

/-- A fatal stop (60_exceptions.md R322): the first one records its cause, whose code is not 0. -/
theorem StatusGrows.fatalStop (s : State) (c : Cause) : StatusGrows s (s.raiseFatal c) := by
  refine ⟨fun f hf => by rw [State.flag_raiseFatal, hf, Bool.true_or], ?_⟩
  rw [State.fatal_raiseFatal, State.raiseFatal_fatalCause]
  cases s.fatal
  · exact .inr ⟨rfl, c.code_ne_zero⟩
  · exact .inl ⟨rfl, rfl⟩

/-- The flags of the loop over the channels (46_control_sequencer.md R300). -/
theorem StatusGrows.block {u : State} (h : BlockFrame s u) (hs : t.status = u.status)
    (hc : t.fatalCause = s.fatalCause) : StatusGrows s t := by
  obtain ⟨-, hsub, hmask⟩ := h
  refine ⟨fun f hf => ?_, .inl ⟨(flag_of_status hs .fatal).trans (flags_of_mask hmask).1, hc⟩⟩
  rw [flag_of_status hs f]
  rw [State.flag, ← hsub, BitVec.getLsbD_and, Bool.and_eq_true] at hf
  exact hf.2

/-- A hand-off can end in the fatal stop of a dropped block (44_pdm_rx_credit_fifo.md R220). -/
theorem StatusGrows.handoffAttempt (s : State) (k : Half) : StatusGrows s (s.handoffAttempt k) := by
  rcases s.handoffAttempt_cases k with ⟨-, -, e⟩ | ⟨-, -, -, e⟩ | ⟨-, -, -, e⟩ | ⟨-, -, e⟩ | ⟨-, -, e⟩ <;>
    rw [e]
  case inr.inr.inl => exact .fatalStop s .droppedBlock
  all_goals exact .same rfl rfl

theorem statusGrows_execPdmword {w : Word} (he : execPdmword w s = .next t) : StatusGrows s t := by
  have hw : StatusGrows s (s.wordTaken w) := .raised (f := .overrun) (by decide) rfl rfl
  rcases execPdmword_next he with rfl | ⟨-, -, -, ⟨-, rfl⟩ | ⟨-, -, -, rfl⟩ | ⟨-, -, rfl⟩⟩
  · exact .refl t
  · exact .same rfl rfl
  · exact hw.trans (.same rfl rfl)
  · have hu : StatusGrows (s.wordTaken w) { s.wordTaken w with
        wrPos := BitVec.ofNat 8 (s.cfg.BW - 1), fillSel := 1 - s.fillSel } := .same rfl rfl
    exact (hw.trans hu).trans (.handoffAttempt _ _)

/-- No operation but RESET and INIT clears a flag (R40). -/
theorem statusGrows_exec {i : Instr} (hreset : i ≠ .reset) (hinit : i ≠ .init) (he : exec i s = .next t) :
    StatusGrows s t := by
  cases i with
  | reset => exact absurd rfl hreset
  | init => exact absurd rfl hinit
  | cfgwr b v =>
    rcases execCfgwr_next he with rfl | ⟨-, r, -, rfl⟩
    · exact .refl t
    · exact .same (by simp) (by simp)
  | csrrd b => obtain ⟨r, -, rfl⟩ := execCsrrd_next he; exact .same rfl rfl
  | coefwr a b v =>
    rcases execCoefwr_next he with rfl | ⟨-, st, k, -, rfl⟩
    · exact .refl t
    · exact .same (by simp) (by simp)
  | start => rcases execStart_next he with rfl | ⟨-, -, rfl⟩ <;> exact .same rfl rfl
  | rxframe | rxframet | shutdown =>
    rcases linkCommand_next he with rfl | ⟨-, -, -, rfl⟩ <;> exact .same rfl rfl
  | pdmword w => exact statusGrows_execPdmword he
  | handoff => rcases execHandoff_next he with rfl | ⟨-, -, -, rfl⟩ <;> exact .same rfl rfl
  | rxexit => rcases execRxexit_next he with rfl | ⟨-, -, rfl⟩ <;> exact .same rfl rfl
  | blkreq => rcases execBlkreq_next he with rfl | ⟨-, -, rfl⟩ <;> exact .same rfl rfl
  | blkpop => rcases execBlkpop_next he with rfl | ⟨-, -, k, rest, -, rfl⟩ <;> exact .same rfl rfl
  | deint => rcases execDeint_next he with rfl | ⟨-, -, m, -, rfl⟩ <;> exact .same rfl rfl
  | chsel => rcases execChsel_next he with rfl | ⟨-, -, m, -, rfl⟩ <;> exact .same rfl rfl
  | firblk =>
    rcases execFirblk_next he with rfl | ⟨-, -, b, -, hb, rfl⟩
    · exact .refl t
    · exact .block hb rfl rfl
  | s1step a w =>
    rcases execS1step_next he with rfl | ⟨-, -, c, v, y, -, rfl⟩ <;> exact .same rfl rfl
  | s2step a x =>
    rcases execS2step_next he with rfl | ⟨-, -, c, o, -, rfl⟩
    · exact .refl t
    · exact .raised (f := .s2sat) (on := o.sat) (by decide) rfl rfl
  | s3step a x =>
    rcases execS3step_next he with rfl | ⟨-, -, -, c, o, -, rfl⟩
    · exact .refl t
    · exact .raised (f := .s3sat) (on := o.sat) (by decide) rfl rfl
  | dcoe =>
    rcases execDcoe_next he with rfl | ⟨-, -, ⟨-, rfl⟩ | ⟨-, rfl⟩⟩
    · exact .refl t
    · exact .raised (f := .dcovf) (by decide) rfl rfl
    · exact .same rfl rfl
  | frmadd =>
    rcases execFrmadd_next he with rfl | ⟨-, -, m, -, ⟨-, rfl⟩ | ⟨-, rfl⟩⟩ <;> exact .same rfl rfl
  | frmtx =>
    rcases execFrmtx_next he with rfl | ⟨-, -, ⟨-, rfl⟩ | ⟨ws, wt, -, -, rfl⟩⟩ <;> exact .same rfl rfl
  | unwind => rcases execUnwind_next he with rfl | ⟨-, -, rfl⟩ <;> exact .same rfl rfl
  | drain =>
    rcases execDrain_next he with rfl | ⟨-, -, ⟨k, rest, -, rfl⟩ | ⟨-, -, -, rfl⟩⟩ <;> exact .same rfl rfl

theorem fatal_afterInit (s : State) : s.afterInit.fatal = s.fatal := by
  simp [State.fatal, State.flag, Flag.bit]

/-- INIT, whether its checks pass or not, keeps `FATAL` and its cause or makes the fatal stop. -/
theorem cause_execInit (he : execInit s = .next t) :
    (t.fatal = s.fatal ∧ t.fatalCause = s.fatalCause) ∨ (t.fatal = true ∧ t.fatalCause ≠ 0) := by
  rcases execInit_next he with rfl | ⟨-, c, -, rfl⟩ | ⟨-, -, rfl⟩
  · exact .inl ⟨rfl, rfl⟩
  · exact (StatusGrows.fatalStop s c).cause
  · exact .inl ⟨fatal_afterInit s, rfl⟩

/-- Settles O49: INIT keeps `FATAL`; every other operation but RESET keeps every flag. -/
theorem statusIsSticky : Obligations.StatusIsSticky := by
  intro i s t f he hreset hinit hf
  by_cases hi : i = .init
  · subst hi
    obtain rfl := hinit rfl
    rcases cause_execInit he with ⟨h, -⟩ | ⟨h, -⟩
    · exact h.trans hf
    · exact h
  · exact (statusGrows_exec hreset hi he).sticky f hf

/-! ### The cause invariant -/

theorem CauseInv.of_cause (h : CauseInv s)
    (hc : (t.fatal = s.fatal ∧ t.fatalCause = s.fatalCause) ∨ (t.fatal = true ∧ t.fatalCause ≠ 0)) :
    CauseInv t := by
  rcases hc with ⟨hf, hc⟩ | ⟨hf, hc⟩
  · rw [CauseInv, hf, hc]; exact h
  · exact iff_of_false (by simp [hf]) hc

theorem causeInv_reset : CauseInv State.reset := by unfold CauseInv; decide

/-- Every operation keeps the cause invariant. -/
theorem causeInv_exec (i : Instr) (s t : State) (h : CauseInv s) (he : exec i s = .next t) : CauseInv t := by
  by_cases hreset : i = .reset
  · subst hreset; cases he; exact causeInv_reset
  by_cases hinit : i = .init
  · subst hinit; exact h.of_cause (cause_execInit he)
  exact h.of_cause (statusGrows_exec hreset hinit he).cause

/-- Settles O59: the agenda is no part of the invariant, and every operation keeps it. -/
theorem stepKeepsCauseInStep : Obligations.StepKeepsCauseInStep :=
  step_keeps (fun _ _ h => h) causeInv_exec

/-! ### The consumer's table (46_control_sequencer.md R296) -/

/-- An operation leaves `CSEQ` alone or moves it along an edge of the table. -/
theorem cseq_exec {i : Instr} (he : exec i s = .next t) : t.cseq = s.cseq ∨ ConsumerEdge s.cseq i t.cseq := by
  cases i with
  | reset => cases he; exact .inr (.inr (.inr (.inr ⟨rfl, rfl⟩)))
  | cfgwr b v =>
    rcases execCfgwr_next he with rfl | ⟨-, r, -, rfl⟩
    · exact .inl rfl
    · exact .inl (by simp)
  | csrrd b => obtain ⟨r, -, rfl⟩ := execCsrrd_next he; exact .inl rfl
  | coefwr a b v =>
    rcases execCoefwr_next he with rfl | ⟨-, st, k, -, rfl⟩
    · exact .inl rfl
    · exact .inl (by simp)
  | init =>
    rcases execInit_next he with rfl | ⟨-, c, -, rfl⟩ | ⟨-, -, rfl⟩
    · exact .inl rfl
    · exact .inl (by simp)
    · exact .inr (.inr (.inr (.inl ⟨rfl, rfl⟩)))
  | start =>
    rcases execStart_next he with rfl | ⟨-, -, rfl⟩
    · exact .inl rfl
    · exact .inr (.inr (.inl ⟨rfl, rfl⟩))
  | rxframe | rxframet | shutdown =>
    rcases linkCommand_next he with rfl | ⟨-, -, -, rfl⟩ <;> exact .inl rfl
  | pdmword w =>
    rcases execPdmword_next he with rfl | ⟨-, -, -, ⟨-, rfl⟩ | ⟨-, -, -, rfl⟩ | ⟨-, -, rfl⟩⟩
    case inr.inr.inr => exact .inl (handoffAttempt_cseq _ _)
    all_goals exact .inl rfl
  | handoff => rcases execHandoff_next he with rfl | ⟨-, -, -, rfl⟩ <;> exact .inl rfl
  | rxexit => rcases execRxexit_next he with rfl | ⟨-, -, rfl⟩ <;> exact .inl rfl
  | blkreq =>
    rcases execBlkreq_next he with rfl | ⟨hq, -, rfl⟩
    · exact .inl rfl
    · exact .inr (by simp [ConsumerEdge, hq])
  | blkpop =>
    rcases execBlkpop_next he with rfl | ⟨hq, -, k, rest, -, rfl⟩
    · exact .inl rfl
    · exact .inr (by simp [ConsumerEdge, hq])
  | deint =>
    rcases execDeint_next he with rfl | ⟨hq, -, m, -, rfl⟩
    · exact .inl rfl
    · exact .inr (by simp [ConsumerEdge, hq])
  | chsel =>
    rcases execChsel_next he with rfl | ⟨hq, -, m, -, rfl⟩
    · exact .inl rfl
    · exact .inr (by simp [ConsumerEdge, hq])
  | firblk =>
    rcases execFirblk_next he with rfl | ⟨hq, -, b, -, -, rfl⟩
    · exact .inl rfl
    · refine .inr ?_
      cases b.valid <;> simp [ConsumerEdge, hq]
  | s1step a w =>
    rcases execS1step_next he with rfl | ⟨-, -, c, v, y, -, rfl⟩ <;> exact .inl rfl
  | s2step a x => rcases execS2step_next he with rfl | ⟨-, -, c, o, -, rfl⟩ <;> exact .inl rfl
  | s3step a x => rcases execS3step_next he with rfl | ⟨-, -, -, c, o, -, rfl⟩ <;> exact .inl rfl
  | dcoe =>
    rcases execDcoe_next he with rfl | ⟨hq, -, ⟨-, rfl⟩ | ⟨-, rfl⟩⟩
    · exact .inl rfl
    all_goals exact .inr (by simp [ConsumerEdge, hq])
  | frmadd =>
    rcases execFrmadd_next he with rfl | ⟨hq, -, m, -, ⟨-, rfl⟩ | ⟨-, rfl⟩⟩
    · exact .inl rfl
    all_goals exact .inr (by simp [ConsumerEdge, hq])
  | frmtx =>
    rcases execFrmtx_next he with rfl | ⟨hq, -, ⟨-, rfl⟩ | ⟨ws, wt, -, -, rfl⟩⟩
    · exact .inl rfl
    all_goals exact .inr (by simp [ConsumerEdge, hq])
  | unwind =>
    rcases execUnwind_next he with rfl | ⟨hq, -, rfl⟩
    · exact .inl rfl
    · exact .inr (by simp [ConsumerEdge, hq])
  | drain =>
    rcases execDrain_next he with rfl | ⟨hq, -, ⟨k, rest, -, rfl⟩ | ⟨-, -, -, rfl⟩⟩
    · exact .inl rfl
    · exact .inl rfl
    · exact .inr (by simp [ConsumerEdge, hq])

/-- Settles O47: each operation of the consumer has its edge, START, INIT and RESET their own. -/
theorem consumerMovesByTheTable : Obligations.ConsumerMovesByTheTable :=
  fun _ _ _ he hne => (cseq_exec he).resolve_left hne

/-! ### Configuration registers (10_state.md R42, 46_control_sequencer.md R281) -/

theorem CfgRegs.read_write_self (g : CfgRegs) (v : Word) (k : CfgReg) : (g.write v k).read k = v := by
  cases k with
  | chmap c => simp [CfgRegs.read, CfgRegs.write]
  | _ => rfl

/-- A write to one register leaves every other as it is. -/
theorem CfgRegs.read_write_ne (g : CfgRegs) (v : Word) {k j : CfgReg} (h : j ≠ k) :
    (g.write v k).read j = g.read j := by
  cases k with
  | chmap c =>
    cases j with
    | chmap d =>
      have hne : d ≠ c := fun e => h (by rw [e])
      exact getElem_set_fin_ne g.chmap v hne
    | _ => rfl
  | _ => cases j <;> simp_all [CfgRegs.read, CfgRegs.write]

/-- What a host write leaves in the configuration register named, and in the others. -/
theorem read_writeReg (s : State) (v : Word) (r : Reg) (k : CfgReg) :
    (r = .cfg k → (writeReg s v r).cfg.read k = v) ∧
    (r ≠ .cfg k → (writeReg s v r).cfg.read k = s.cfg.read k) := by
  cases r with
  | cfg j =>
    refine ⟨fun e => ?_, fun hne => s.cfg.read_write_ne v fun e => hne (by rw [e])⟩
    cases e; exact s.cfg.read_write_self v k
  | _ => exact ⟨nofun, fun _ => rfl⟩

theorem writeReg_frame (s : State) (v : Word) (r : Reg) :
    writeReg s v r = { s with cfg := (writeReg s v r).cfg } := by cases r <;> rfl

/-- Settles O9: the write acts on the one register its index names. -/
theorem configurationWrite : Obligations.ConfigurationWrite := by
  intro b v s hb hrx hf
  obtain ⟨r, hr⟩ := regOfIndex_of_not_reserved hb
  have ho : s.configOpen = true := configOpen_iff.2 ⟨hrx, hf⟩
  exact ⟨r, writeReg s v r, hr, by simp [exec, execCfgwr, hr, ho], writeReg_frame s v r,
    fun k => (read_writeReg s v r k).1, fun k => (read_writeReg s v r k).2, regOfIndex_writable hr⟩

/-! ### Reading registers (10_state.md R43, 46_control_sequencer.md R283) -/

/-- The indices that are not reserved with the registers they name, channel map apart (R42, R43). -/
def registerIndices : List (BitVec 16 × Reg) :=
  [ (0x00, .cfg .nIn), (0x01, .cfg .nOut), (0x02, .cfg .nStages), (0x03, .cfg .ctrl), (0x04, .cfg .spf),
    (0x05, .cfg .nfb), (0x08, .s1Taps), (0x09, .s1Dec), (0x0A, .s1Shr), (0x0B, .s1Sw),
    (0x0C, .cfg .s2Taps), (0x0D, .cfg .s2Dec), (0x0E, .cfg .s2Shr), (0x0F, .cfg .s2Sw),
    (0x10, .cfg .s3Taps), (0x11, .cfg .s3Dec), (0x12, .cfg .s3Shr), (0x13, .cfg .s3Sw),
    (0x40, .rxState), (0x41, .wrPos), (0x42, .fillSel), (0x43, .fifoLevel), (0x44, .credit),
    (0x45, .dropCount), (0x46, .status), (0x47, .fatalCause), (0x48, .cseq), (0x49, .frmCol),
    (0x4A, .frmBuf), (0x4B, .rxSdFlag), (0x4C, .hoPend), (0x4D, .hostPend) ]

/-- The list names the registers the machine's decoder of indices names. -/
theorem regOfIndex_registerIndices : ∀ p ∈ registerIndices, regOfIndex p.1 = some p.2 := by decide +kernel

/-- The spec's table of values is the list's registers read: row by row the same term, but for the codes of
`RX_STATE`, `CSEQ` and `HOST_PEND` and the two single bits. -/
theorem csrTable_eq (s : State) : csrTable s = registerIndices.map fun p => (p.1, readReg s p.2) := by
  simp only [csrTable, registerIndices, List.map_cons, List.map_nil, List.cons.injEq, Prod.mk.injEq,
    true_and, and_true]
  refine ⟨rfl, rfl, rfl, rfl, rfl, rfl, rfl, rfl, rfl, rfl, rfl, rfl, rfl, rfl, rfl, rfl, rfl, rfl, ?rx,
    rfl, rfl, rfl, rfl, rfl, rfl, rfl, ?cseq, rfl, rfl, ?flag, ?pend, ?host⟩
  case rx => show _ = s.rxState.code; cases s.rxState <;> rfl
  case cseq => show _ = s.cseq.code; cases s.cseq <;> rfl
  case flag => show _ = (BitVec.ofBool s.rxSdFlag).setWidth 32; cases s.rxSdFlag <;> rfl
  case pend => show _ = (BitVec.ofBool s.hoPend).setWidth 32; cases s.hoPend <;> rfl
  case host => show _ = s.hostPend.code; cases s.hostPend <;> rfl

/-- An index that is not reserved is in the list or in the channel map. -/
theorem registerIndices_complete (b : BitVec 16) (hb : reservedIndex b = false) :
    b ∈ registerIndices.map Prod.fst ∨ ∃ c : Fin 16, b.toNat = 0x20 + c.val := by
  revert b
  refine index_cases _ (by decide +kernel) fun b h hb => ?_
  simp [reservedIndex, h] at hb

theorem execCsrrd_of_index {b : BitVec 16} {r : Reg} (h : regOfIndex b = some r) (s : State) :
    execCsrrd b s = .next (s.giveBack (.csr (readReg s r))) := by
  simp [execCsrrd, h]

/-- Settles O10: the register an index names is read and given back. -/
theorem registerRead : Obligations.RegisterRead := by
  refine ⟨by decide, fun s => ⟨fun p hp => ?_, fun c => ?_, fun b hb => ?_⟩⟩
  · rw [csrTable_eq] at hp
    obtain ⟨q, hq, rfl⟩ := List.mem_map.1 hp
    exact execCsrrd_of_index (regOfIndex_registerIndices q hq) s
  · exact execCsrrd_of_index (regOfIndex_chmap c) s
  · rw [csrTable_eq, List.map_map]
    exact registerIndices_complete b hb

/-! ### RESET (10_state.md R60, 70_reset_and_hazards.md R361) -/

theorem afterReset_reset : AfterReset State.reset := by
  have hblank : Blank [] := fun _ => rfl
  have hown : ∀ h : Half, State.reset.own[h] = .producer := fun h => by simp [State.reset]
  have hbuf : ∀ h : Half, Blank State.reset.buf[h] := fun h => by simpa [State.reset] using hblank
  refine ⟨rfl, rfl, rfl, rfl, rfl, rfl, rfl, hown, rfl, rfl, rfl, rfl, rfl, rfl, rfl, rfl, rfl, rfl,
    fun r => ?_, hbuf, hblank, hblank, hblank, hblank, hblank⟩
  cases r with
  | chmap c => simp [State.reset, CfgRegs.reset, CfgRegs.read]
  | _ => rfl

/-- Settles O8: RESET answers the reset state, the model's own fields put back. -/
theorem resetOperation : Obligations.ResetOperation :=
  ⟨by decide, afterReset_reset, fun _ => ⟨_, rfl, afterReset_reset, rfl, rfl, rfl, rfl⟩⟩

/-! ### INIT (10_state.md R60, 46_control_sequencer.md R288) -/

/-- A successful INIT clears every flag but `FATAL` (10_state.md R40). -/
theorem flag_afterInit (s : State) {f : Flag} (hf : f ≠ .fatal) : s.afterInit.flag f = false := by
  cases f with
  | fatal => exact absurd rfl hf
  | _ => simp [State.flag, Flag.bit]

theorem afterInit_values (s : State) (hc : LegalCfg s.cfg) : AfterInit s s.afterInit := by
  have hblank : Blank [] := fun _ => rfl
  have hown : ∀ h : Half, s.afterInit.own[h] = .producer := fun h => by simp
  have hbuf : ∀ h : Half, Blank s.afterInit.buf[h] := fun h => by simpa using hblank
  have hch : ∀ c : Fin 16, s.afterInit.ch[c] = Channel.afterInit := fun c => by simp
  refine ⟨rfl, hc.reload, rfl, rfl, rfl, rfl, rfl, hown, rfl, rfl, rfl, rfl, rfl,
    ⟨fatal_afterInit s, flag_afterInit s (by decide), flag_afterInit s (by decide),
      flag_afterInit s (by decide), flag_afterInit s (by decide)⟩, rfl, rfl, rfl, rfl, rfl, fun c => ?_,
    hbuf, hblank, hblank, rfl, rfl, rfl, rfl, rfl, rfl, rfl⟩
  rw [hch]
  simp [Channel.afterInit, Channel.reset, FirState.zero, Config.s1HistInit]

/-- INIT in a legal configuration. -/
theorem execInit_of_legal (ho : s.configOpen = true) (hc : LegalCfg s.cfg) :
    execInit s = .next s.afterInit := by
  simp [execInit, ho, (initFailure_eq_none s.cfg).2 hc]

/-- INIT with a check that fails: the fatal stop of the first one. -/
theorem execInit_of_failure (ho : s.configOpen = true) {c : Cause} (hc : initFailure s.cfg = some c) :
    execInit s = .next { s with status := s.status ||| 0b00001#5, fatalCause := c.code } := by
  have hf := (configOpen_iff.1 ho).2
  simp only [execInit, ho, hc, if_true, State.raiseFatal, hf, Bool.false_eq_true, if_false]
  rfl

/-- Settles O13: the checks pass exactly in a legal configuration, and the first failure gives the cause. -/
theorem initChecksInOrder : Obligations.InitChecksInOrder := by
  refine ⟨by decide, fun s => ⟨fun ho => ?_, fun ho => ?_⟩⟩
  · have ho := configOpen_iff.2 ho
    refine ⟨fun hc => ⟨_, execInit_of_legal ho hc, afterInit_values s hc⟩, fun passed p rest he hq hp => ?_⟩
    obtain ⟨c, hc, hcode⟩ := initFailure_of_first he hq hp
    rw [← hcode]
    exact execInit_of_failure ho hc
  · exact execInit_of_locked (Bool.eq_false_iff.2 fun h => ho (configOpen_iff.1 h))

/-! ### The invariants at reset -/

theorem noOverrunInv_reset : NoOverrunInv State.reset := by
  have ha : ¬ State.reset.active := by simp [State.active, State.reset]
  exact ⟨flowInv_reset, fun h => absurd h ha, fun h => absurd h ha, fun h => absurd h ha⟩

/-- Settles O60: each invariant at reset, where the machine is not active and every queue is empty. -/
theorem resetMeetsTheInvariants : Obligations.ResetMeetsTheInvariants := by
  obtain ⟨hbuf, hob, hfrm, h1, h2, h3⟩ := reset_memories_wf
  exact ⟨⟨hbuf, hob, h1, h2, h3, hfrm⟩, flowInv_reset, runInv_reset, noOverrunInv_reset, causeInv_reset⟩

end Sys2Proof.Machine

/-! Statements of the family 20_memory.md: the canonical form of the memories, the lock on the tables, and the
faults of a run. -/

namespace Sys2Proof.Machine

variable {s t : State}

/-! ### Which operations write (20_memory.md R70, column "written by"; 46_control_sequencer.md R281, R285) -/

/-- The data a machine stores: the memories (20_memory.md R70) and the configuration registers (10_state.md R42). -/
structure Storage where
  cfg : CfgRegs
  buf : Vector Memory 2
  ob : Memory
  coef1 : Memory
  coef2 : Memory
  coef3 : Memory
  frm : Memory

/-- The memories and the configuration registers of a state. -/
def State.storage (s : State) : Storage :=
  { cfg := s.cfg, buf := s.buf, ob := s.ob, coef1 := s.coef1, coef2 := s.coef2, coef3 := s.coef3, frm := s.frm }

/-- The writers of 20_memory.md R70, with CFGWR, and RESET and INIT of 10_state.md R60. -/
def writesStorage : Instr → Bool
  | .reset | .cfgwr _ _ | .coefwr _ _ _ | .init | .pdmword _ | .deint | .chsel | .frmadd => true
  | _ => false

/-- Every other operation leaves the memories and the configuration registers alone. -/
theorem storage_of_not_writes {i : Instr} (hi : writesStorage i = false) (he : exec i s = .next t) :
    t.storage = s.storage := by
  cases i with
  | reset | cfgwr b v | coefwr a b v | init | pdmword w | deint | chsel | frmadd => cases hi
  | csrrd b => obtain ⟨r, -, rfl⟩ := execCsrrd_next he; rfl
  | start => rcases execStart_next he with rfl | ⟨-, -, rfl⟩ <;> rfl
  | rxframe | rxframet | shutdown => rcases linkCommand_next he with rfl | ⟨-, -, -, rfl⟩ <;> rfl
  | handoff => rcases execHandoff_next he with rfl | ⟨-, -, -, rfl⟩ <;> rfl
  | rxexit => rcases execRxexit_next he with rfl | ⟨-, -, rfl⟩ <;> rfl
  | blkreq => rcases execBlkreq_next he with rfl | ⟨-, -, rfl⟩ <;> rfl
  | blkpop => rcases execBlkpop_next he with rfl | ⟨-, -, k, rest, -, rfl⟩ <;> rfl
  | firblk => rcases execFirblk_next he with rfl | ⟨-, -, b, -, -, rfl⟩ <;> rfl
  | s1step a w => rcases execS1step_next he with rfl | ⟨-, -, c, v, y, -, rfl⟩ <;> rfl
  | s2step a x => rcases execS2step_next he with rfl | ⟨-, -, c, o, -, rfl⟩ <;> rfl
  | s3step a x => rcases execS3step_next he with rfl | ⟨-, -, -, c, o, -, rfl⟩ <;> rfl
  | dcoe => rcases execDcoe_next he with rfl | ⟨-, -, ⟨-, rfl⟩ | ⟨-, rfl⟩⟩ <;> rfl
  | frmtx => rcases execFrmtx_next he with rfl | ⟨-, -, ⟨-, rfl⟩ | ⟨ws, wt, -, -, rfl⟩⟩ <;> rfl
  | unwind => rcases execUnwind_next he with rfl | ⟨-, -, rfl⟩ <;> rfl
  | drain => rcases execDrain_next he with rfl | ⟨-, -, ⟨k, rest, -, rfl⟩ | ⟨-, -, -, rfl⟩⟩ <;> rfl

@[simp] theorem storage_handoffAttempt (s : State) (k : Half) : (s.handoffAttempt k).storage = s.storage := by
  rw [handoffAttempt_frame]; rfl

@[simp] theorem storage_raiseFatal (s : State) (c : Cause) : (s.raiseFatal c).storage = s.storage := by
  simp [State.storage]

/-- A PDMWORD writes its word or nothing; a block handed off moves no word (20_memory.md R80). -/
theorem storage_execPdmword {w : Word} (he : execPdmword w s = .next t) :
    t.storage = s.storage ∨ t.storage = (s.wordTaken w).storage := by
  rcases execPdmword_next he with rfl | ⟨-, -, -, ⟨-, rfl⟩ | ⟨-, -, -, rfl⟩ | ⟨-, -, rfl⟩⟩
  · exact .inl rfl
  · exact .inl rfl
  · exact .inr rfl
  · exact .inr (storage_handoffAttempt _ _)

/-! ### The canonical form (20_memory.md R70, R78, R80) -/

/-- Deinterleaving a half is a loop of stores. -/
theorem wf_deintHalf {n groups : Nat} {m m' : Memory} (h : deintHalf n groups m = .ok m')
    (hm : m.wf = true) : m'.wf = true := by
  refine wf_forRange (fun g a b ha hb => ?_) h hm
  unfold deintOneGroup at hb
  split at hb
  · cases hb
  · exact wf_forRange (fun _ _ _ hx hy => wf_store hy hx) hb ha

theorem wf_selectWord {g : CfgRegs} {half ob ob' : Memory} {c k : Nat}
    (h : selectWord g half c k ob = .ok ob') (hm : ob.wf = true) : ob'.wf = true := by
  unfold selectWord at h
  split at h
  · cases h
  · split at h
    · cases h
    · exact wf_store h hm

theorem wf_selectBlock {g : CfgRegs} {half ob ob' : Memory} (h : selectBlock g half ob = .ok ob')
    (hm : ob.wf = true) : ob'.wf = true :=
  wf_forRange (fun _ _ _ ha hb => wf_forRange (fun _ _ _ hx hy => wf_selectWord hy hx) hb ha) h hm

theorem wf_addSample {c : Nat} {m m' : Memory} (h : addSample s c m = .ok m') (hm : m.wf = true) :
    m'.wf = true := by
  unfold addSample at h
  split at h
  · cases h
  · exact wf_store h hm

/-- The canonical form speaks of the memories alone. -/
theorem MemoriesWf.of_storage (h : MemoriesWf s) (e : t.storage = s.storage) : MemoriesWf t := by
  obtain ⟨-, hbuf, hob, h1, h2, h3, hfrm⟩ := Storage.mk.inj e
  unfold MemoriesWf at h ⊢
  rwa [hbuf, hob, h1, h2, h3, hfrm]

theorem memoriesWf_reset : MemoriesWf State.reset := resetMeetsTheInvariants.1

/-- One half replaced by a canonical memory. -/
theorem MemoriesWf.setHalf (h : MemoriesWf s) (k : Half) {m : Memory} (hm : m.wf = true) :
    MemoriesWf { s with buf := s.buf.set k m } := by
  obtain ⟨hbuf, hrest⟩ := h
  refine ⟨fun j => ?_, hrest⟩
  rw [getElem_set_fin]
  split
  · exact hm
  · exact hbuf j

theorem MemoriesWf.afterInit (h : MemoriesWf s) : MemoriesWf s.afterInit := by
  obtain ⟨-, -, h1, h2, h3, -⟩ := h
  exact ⟨fun k => by simp, rfl, h1, h2, h3, rfl⟩

theorem MemoriesWf.writeCoef (h : MemoriesWf s) (st : Stage) (k : Nat) (v : Word) :
    MemoriesWf (s.writeCoef st k v) := by
  obtain ⟨hbuf, hob, h1, h2, h3, hfrm⟩ := h
  cases st with
  | one => exact ⟨hbuf, hob, s.coef1.wf_write k v h1, h2, h3, hfrm⟩
  | two => exact ⟨hbuf, hob, h1, s.coef2.wf_write k v h2, h3, hfrm⟩
  | three => exact ⟨hbuf, hob, h1, h2, s.coef3.wf_write k v h3, hfrm⟩

theorem MemoriesWf.writeReg (h : MemoriesWf s) (v : Word) (r : Reg) : MemoriesWf (writeReg s v r) := by
  rw [writeReg_frame]; exact h

theorem MemoriesWf.wordTaken (h : MemoriesWf s) (w : Word) : MemoriesWf (s.wordTaken w) :=
  (h.setHalf s.fillSel (s.buf[s.fillSel].wf_write s.wrPos.toNat w (h.1 s.fillSel))).of_storage rfl

/-- Every operation keeps the canonical form: a writer's memories are made by single-word writes, or empty. -/
theorem memoriesWf_exec (i : Instr) (s t : State) (h : MemoriesWf s) (he : exec i s = .next t) :
    MemoriesWf t := by
  cases hw : writesStorage i with
  | false => exact h.of_storage (storage_of_not_writes hw he)
  | true =>
    have ⟨hbuf, hob, h1, h2, h3, hfrm⟩ := h
    cases i with
    | reset => cases he; exact memoriesWf_reset
    | cfgwr b v =>
      rcases execCfgwr_next he with rfl | ⟨-, r, -, rfl⟩
      · exact h
      · exact h.writeReg v r
    | coefwr a b v =>
      rcases execCoefwr_next he with rfl | ⟨-, st, k, -, rfl⟩
      · exact h
      · exact h.writeCoef st k _
    | init =>
      rcases execInit_next he with rfl | ⟨-, c, -, rfl⟩ | ⟨-, -, rfl⟩
      · exact h
      · exact h.of_storage (storage_raiseFatal s c)
      · exact h.afterInit
    | pdmword w =>
      rcases storage_execPdmword he with e | e
      · exact h.of_storage e
      · exact (h.wordTaken w).of_storage e
    | deint =>
      rcases execDeint_next he with rfl | ⟨-, -, m, hm, rfl⟩
      · exact h
      · exact h.setHalf s.cur (wf_deintHalf hm (hbuf s.cur))
    | chsel =>
      rcases execChsel_next he with rfl | ⟨-, -, m, hm, rfl⟩
      · exact h
      · exact ⟨hbuf, wf_selectBlock hm hob, h1, h2, h3, hfrm⟩
    | frmadd =>
      rcases execFrmadd_next he with rfl | ⟨-, -, m, hm, ⟨-, rfl⟩ | ⟨-, rfl⟩⟩
      · exact h
      all_goals exact ⟨hbuf, hob, h1, h2, h3, wf_forRange (fun _ _ _ ha hb => wf_addSample hb ha) hm hfrm⟩
    | _ => cases hw

/-- Settles O54: the agenda is no memory, and every operation keeps the canonical form. -/
theorem stepKeepsMemoriesCanonical : Obligations.StepKeepsMemoriesCanonical :=
  step_keeps (fun _ _ h => h) memoriesWf_exec

/-! ### The lock on the tables (20_memory.md R90, 46_control_sequencer.md R280) -/

theorem tables_of_storage (e : t.storage = s.storage) :
    t.cfg = s.cfg ∧ t.coef1 = s.coef1 ∧ t.coef2 = s.coef2 ∧ t.coef3 = s.coef3 := by
  obtain ⟨hcfg, -, -, h1, h2, h3, -⟩ := Storage.mk.inj e
  exact ⟨hcfg, h1, h2, h3⟩

/-- Settles O50: of the operations that write, CFGWR, COEFWR and INIT find the lock closed, and those of the
source and the consumer write no table. -/
theorem tablesAreLockedWhileActive : Obligations.TablesAreLockedWhileActive := by
  intro i s t ha hreset he
  have hlock : ¬ s.configOpen = true := fun ho => not_active_of_configOpen ho ha
  cases hw : writesStorage i with
  | false => exact tables_of_storage (storage_of_not_writes hw he)
  | true =>
    cases i with
    | reset => exact absurd rfl hreset
    | cfgwr b v =>
      rcases execCfgwr_next he with rfl | ⟨ho, -⟩
      · exact tables_of_storage rfl
      · exact absurd ho hlock
    | coefwr a b v =>
      rcases execCoefwr_next he with rfl | ⟨ho, -⟩
      · exact tables_of_storage rfl
      · exact absurd ho hlock
    | init =>
      rcases execInit_next he with rfl | ⟨ho, -⟩ | ⟨ho, -⟩
      · exact tables_of_storage rfl
      all_goals exact absurd ho hlock
    | pdmword w =>
      rcases storage_execPdmword he with e | e
      · exact tables_of_storage e
      · exact tables_of_storage (s := s.wordTaken w) e
    | deint => rcases execDeint_next he with rfl | ⟨-, -, m, -, rfl⟩ <;> exact ⟨rfl, rfl, rfl, rfl⟩
    | chsel => rcases execChsel_next he with rfl | ⟨-, -, m, -, rfl⟩ <;> exact ⟨rfl, rfl, rfl, rfl⟩
    | frmadd =>
      rcases execFrmadd_next he with rfl | ⟨-, -, m, -, ⟨-, rfl⟩ | ⟨-, rfl⟩⟩ <;>
        exact ⟨rfl, rfl, rfl, rfl⟩
    | _ => cases hw

/-! ### Where an operation can fault (60_exceptions.md R330, 20_memory.md R79) -/

/-- The link commands and the operations that go through an array. -/
def mayFault : Instr → Bool
  | .rxframe | .rxframet | .shutdown | .pdmword _ | .deint | .chsel | .firblk | .s1step _ _ | .s2step _ _
  | .s3step _ _ | .frmadd | .frmtx => true
  | _ => false

/-- No other operation faults, in any state. -/
theorem mayFault_of_fault {i : Instr} {e : Fault} (he : exec i s = .fault e) : mayFault i = true := by
  cases i with
  | reset | start | handoff | rxexit | blkreq | unwind => cases he
  | cfgwr b v => simp only [exec, execCfgwr] at he; split at he <;> cases he
  | csrrd b => simp only [exec, execCsrrd] at he; split at he <;> cases he
  | coefwr a b v => simp only [exec, execCoefwr] at he; split at he <;> cases he
  | init =>
    simp only [exec, execInit] at he
    split at he
    · split at he <;> cases he
    · cases he
  | blkpop =>
    simp only [exec, execBlkpop] at he
    split at he
    · split at he <;> cases he
    · cases he
  | dcoe =>
    simp only [exec, execDcoe] at he
    split at he
    · split at he <;> cases he
    · cases he
  | drain =>
    simp only [exec, execDrain] at he
    split at he
    · split at he <;> cases he
    · cases he
  | _ => rfl

theorem execPdmword_fault {w : Word} {e : Fault} (h : execPdmword w s = .fault e) :
    s.rxState = .running ∧ 96 ≤ s.wrPos.toNat := by
  unfold execPdmword at h
  split at h
  · refine ⟨(wordEnabled_iff.1 ‹_›).1, ?_⟩
    split at h
    · cases h
    · split at h
      · cases h
      · exact (storeWord_eq_error ‹_›).1
  · cases h

theorem execDeint_fault {e : Fault} (h : execDeint s = .fault e) :
    s.cseq = .deint ∧ deintHalf s.cfg.N_IN s.cfg.D2 s.buf[s.cur] = .error e := by
  unfold execDeint at h
  split at h
  · refine ⟨(at_iff.1 ‹_›).1, ?_⟩
    split at h <;> cases h
    assumption
  · cases h

theorem execChsel_fault {e : Fault} (h : execChsel s = .fault e) :
    s.cseq = .chsel ∧ selectBlock s.cfg s.buf[s.cur] s.ob = .error e := by
  unfold execChsel at h
  split at h
  · refine ⟨(at_iff.1 ‹_›).1, ?_⟩
    split at h <;> cases h
    assumption
  · cases h

theorem execFirblk_fault {e : Fault} (h : execFirblk s = .fault e) :
    s.cseq = .fir ∧ forRange s.cfg.N_OUT blockChannel { st := s, valid := false } = .error e := by
  unfold execFirblk at h
  split at h
  · refine ⟨(at_iff.1 ‹_›).1, ?_⟩
    split at h <;> cases h
    assumption
  · cases h

theorem execS1step_fault {a : BitVec 8} {w : Word} {e : Fault} (h : execS1step a w s = .fault e) :
    ∃ c : Fin 16, s1Step s.coef1 w s.ch[c].h1 = .error e := by
  unfold execS1step at h
  split at h
  · cases h
  · rename_i c hc
    split at h
    · split at h <;> cases h
      exact ⟨c, ‹_›⟩
    · cases h

theorem execS2step_fault {a : BitVec 8} {x : Word} {e : Fault} (h : execS2step a x s = .fault e) :
    s.active ∧ ∃ c : Fin 16, s.stage2 x s.ch[c].st2 = .error e := by
  unfold execS2step at h
  split at h
  · cases h
  · rename_i c hc
    split at h
    · refine ⟨(unitEnabled_iff.1 ‹_›).1.imp_right .inl, c, ?_⟩
      split at h <;> cases h
      assumption
    · cases h

theorem execS3step_fault {a : BitVec 8} {x : Word} {e : Fault} (h : execS3step a x s = .fault e) :
    s.active ∧ s.cfg.nStages = 3 ∧ ∃ c : Fin 16, s.stage3 x s.ch[c].st3 = .error e := by
  unfold execS3step at h
  split at h
  · cases h
  · rename_i c hc
    split at h
    · rename_i hu
      rw [Bool.and_eq_true, beq_iff_eq] at hu
      refine ⟨(unitEnabled_iff.1 hu.1).1.imp_right .inl, hu.2, c, ?_⟩
      split at h <;> cases h
      assumption
    · cases h

theorem execFrmadd_fault {e : Fault} (h : execFrmadd s = .fault e) :
    s.cseq = .frmadd ∧ forRange s.cfg.N_OUT (addSample s) s.frm = .error e := by
  unfold execFrmadd at h
  split at h
  · refine ⟨(at_iff.1 ‹_›).1, ?_⟩
    split at h
    · cases h; assumption
    · split at h <;> cases h
  · cases h

theorem execFrmtx_fault {e : Fault} (h : execFrmtx s = .fault e) :
    s.cseq = .frmtx ∧ (frameWords s = .error e ∨ frameWordsTransposed s = .error e) := by
  unfold execFrmtx at h
  split at h
  · refine ⟨(at_iff.1 ‹_›).1, ?_⟩
    cases hp : s.hostPend <;> simp only [hp] at h
    case none | shutdown => cases h
    case rxframe =>
      split at h <;> cases h
      exact .inl ‹_›
    case rxframet =>
      split at h <;> cases h
      · exact .inl ‹_›
      · exact .inr ‹_›
  · cases h

/-! ### In a run no index is out of range and no buffer word without a value (60_exceptions.md R330) -/

/-- The consumer at a place between `C_OFF` and `C_DRAIN`: the write lock is closed. -/
theorem RunInv.active_of_cseq (h : RunInv s) (hoff : s.cseq ≠ .off) (hdrain : s.cseq ≠ .drain) : s.active := by
  cases hr : s.rxState with
  | idle => exact absurd (h.shutdown.fresh (.inl hr)).1 hoff
  | armed => exact .inl hr
  | running => exact .inr (.inl hr)
  | shuttingDown => exact .inr (.inr hr)
  | stopped =>
    rcases h.shutdown.unwound (h.shutdown.flagged (.inr hr)) with hq | hq
    · exact absurd hq hdrain
    · exact absurd hq hoff

/-- The channel counts of a legal configuration, and the size of its output block. -/
theorem LegalCfg.channels {g : CfgRegs} (h : LegalCfg g) :
    1 ≤ g.N_OUT ∧ g.N_OUT ≤ 16 ∧ g.OBW ≤ 96 := by
  obtain ⟨⟨hin, hpos, hle⟩, -, hd, -, -⟩ := h.stages
  simp only [List.mem_cons, List.not_mem_nil, or_false] at hin hd
  unfold CfgRegs.N_IN at hle
  have hout : g.N_OUT ≤ 16 := by omega
  have hob : g.N_OUT * g.D2 ≤ 16 * 6 := Nat.mul_le_mul hout (by omega)
  exact ⟨hpos, hout, hob⟩

/-- The channel map of a legal configuration names physical channels. -/
theorem LegalCfg.chmap {g : CfgRegs} (h : LegalCfg g) :
    ∀ c : Fin 16, c.val < g.N_OUT → g.chmap[c].toNat < g.N_IN :=
  h _ (by simp [initConditions, CfgRegs.N_OUT, CfgRegs.N_IN])

/-- Word `c` of row `r` of an array of `m` rows of `n` words, rows one after another. -/
theorem row_index_lt {r c m n : Nat} (hr : r < m) (hc : c < n) : r * n + c < m * n := by
  have hrow : (r + 1) * n ≤ m * n := Nat.mul_le_mul_right n hr
  rw [Nat.add_one_mul] at hrow
  omega

/-- The frame memory holds every column of every buffer (20_memory.md R70). -/
theorem CfgRegs.frmIndex_lt {g : CfgRegs} {b c k : Nat} (hb : b < g.NFB) (hc : c < g.N_OUT)
    (hk : k < g.SPF) : g.frmIndex b c k < g.frmWords := by
  have hin : c * g.SPF + k < g.FW := row_index_lt hc hk
  rw [CfgRegs.frmIndex, Nat.add_assoc]
  exact row_index_lt hb hin

/-- DEINT finds its half written. -/
theorem RunInv.deintHalf_ok (h : RunInv s) (hq : s.cseq = .deint) :
    ∃ m, deintHalf s.cfg.N_IN s.cfg.D2 s.buf[s.cur] = .ok m := by
  have ha := h.active_of_cseq (by simp [hq]) (by simp [hq])
  have hsize : s.cfg.D2 * s.cfg.N_IN = s.cfg.BW := Nat.mul_comm _ _
  obtain ⟨m, hm, -⟩ := deintHalf_spec (n := s.cfg.N_IN) (groups := s.cfg.D2) (m := s.buf[s.cur])
    (hsize ▸ (h.range.legal ha).sizes.1.2) (hsize ▸ h.written.held ha (.inl hq))
  exact ⟨m, hm⟩

/-- CHSEL finds every word the channel map names written. -/
theorem RunInv.selectBlock_ok (h : RunInv s) (hq : s.cseq = .chsel) :
    ∃ m, selectBlock s.cfg s.buf[s.cur] s.ob = .ok m := by
  have ha := h.active_of_cseq (by simp [hq]) (by simp [hq])
  have hl := h.range.legal ha
  obtain ⟨-, hout, hob⟩ := hl.channels
  have hbw : s.cfg.BW ≤ Config.bufWords := hl.sizes.1.2
  obtain ⟨m, hm, -⟩ := selectBlock_spec (half := s.buf[s.cur]) (ob := s.ob) hout hob fun c hc k hk => by
    have hlt : k * s.cfg.N_IN + s.cfg.chmap[c].toNat < s.cfg.BW := by
      rw [CfgRegs.BW, Nat.mul_comm s.cfg.N_IN]
      exact row_index_lt hk (hl.chmap c hc)
    exact ⟨hlt.trans_le hbw, h.written.held ha (.inr hq) _ hlt⟩
  exact ⟨m, hm⟩

/-- FRMADD stores inside the frame memory. -/
theorem RunInv.column_ok (h : RunInv s) (hq : s.cseq = .frmadd) :
    ∃ m, forRange s.cfg.N_OUT (addSample s) s.frm = .ok m := by
  have ha := h.active_of_cseq (by simp [hq]) (by simp [hq])
  obtain ⟨-, hout, -⟩ := (h.range.legal ha).channels
  obtain ⟨m, hm, -⟩ := forRange_ok_of (f := addSample s) (a := s.frm) (fun _ _ => True) s.cfg.N_OUT trivial
    fun c m hc _ => by
      have hidx : channelIndex c = .ok ⟨c, by omega⟩ := channelIndex_eq_ok.2 rfl
      have hlt := CfgRegs.frmIndex_lt (h.range.frmBuf ha) hc (h.range.frmCol ha)
      exact ⟨_, by simp only [addSample, hidx]; exact store_eq_ok.2 ⟨hlt, rfl⟩, trivial⟩
  exact ⟨m, hm⟩

/-- FRMTX finds every word of the frame written. -/
theorem RunInv.frameWord_ok (h : RunInv s) (hq : s.cseq = .frmtx) {c k : Nat} (hc : c < s.cfg.N_OUT)
    (hk : k < s.cfg.SPF) :
    ∃ v, load .frm s.cfg.frmWords s.frm (s.cfg.frmIndex s.frmBuf.toNat c k) = .ok v := by
  have ha := h.active_of_cseq (by simp [hq]) (by simp [hq])
  obtain ⟨v, hv⟩ := Option.isSome_iff_exists.1 (h.written.frame ha hq c hc k hk)
  exact ⟨v, load_eq_ok.2 ⟨CfgRegs.frmIndex_lt (h.range.frmBuf ha) hc hk, hv⟩⟩

theorem RunInv.frameWords_ok (h : RunInv s) (hq : s.cseq = .frmtx) : ∃ ws, frameWords s = .ok ws :=
  collect_ok_of fun j hj => by
    rw [Nat.zero_add]
    have hpos : 0 < s.cfg.SPF := Nat.pos_of_mul_pos_left (Nat.zero_lt_of_lt hj)
    exact h.frameWord_ok hq (Nat.div_lt_of_lt_mul (Nat.mul_comm _ _ ▸ hj)) (Nat.mod_lt j hpos)

theorem RunInv.frameWordsTransposed_ok (h : RunInv s) (hq : s.cseq = .frmtx) :
    ∃ ws, frameWordsTransposed s = .ok ws :=
  collect_ok_of fun j hj => by
    rw [Nat.zero_add]
    have hpos : 0 < s.cfg.N_OUT := Nat.pos_of_mul_pos_right (Nat.zero_lt_of_lt hj)
    exact h.frameWord_ok hq (Nat.mod_lt j hpos) (Nat.div_lt_of_lt_mul hj)

/-! ### The coefficients the host did not write (70_reset_and_hazards.md R379) -/

/-- The fault of a coefficient memory, in a state where a coefficient of the run was never written. -/
def CoefficientFault (s : State) (e : Fault) : Prop :=
  ¬ CoefficientsWritten s ∧ (e = .uninit .coef1 ∨ e = .uninit .coef2 ∨ e = .uninit .coef3)

theorem s1Step_coefficientFault {w : Word} {x : Vector Word 8} {e : Fault}
    (h : s1Step s.coef1 w x = .error e) : CoefficientFault s e := by
  by_cases hw : Written s.coef1 256
  · obtain ⟨y, hy, -⟩ := s1Step_ok hw w x
    rw [hy] at h; cases h
  · rw [s1Step_error hw] at h
    cases h
    exact ⟨fun hc => hw hc.1, .inl rfl⟩

theorem stage2_coefficientFault (hl : LegalCfg s.cfg) {x : Word} {f : FirState} {e : Fault}
    (h : s.stage2 x f = .error e) : CoefficientFault s e := by
  obtain ⟨-, -, -, htaps, -⟩ := hl.stages
  obtain ⟨rfl, hw⟩ := firStep_error htaps.2 h
  exact ⟨fun ⟨_, hc, _⟩ => hw hc, .inr (.inl rfl)⟩

theorem stage3_coefficientFault (hl : LegalCfg s.cfg) (hn : s.cfg.nStages.toNat = 3) {x : Word} {f : FirState}
    {e : Fault} (h : s.stage3 x f = .error e) : CoefficientFault s e := by
  obtain ⟨-, -, -, -, htaps⟩ := hl.stages
  obtain ⟨rfl, hw⟩ := firStep_error (htaps hn).2.2 h
  exact ⟨fun ⟨_, _, hc⟩ => hw (hc hn), .inr (.inr rfl)⟩

/-- A pass of FIRBLK over a written output block. -/
theorem blockPass_coefficientFault (hl : LegalCfg s.cfg) (hob : Written s.ob s.cfg.OBW) {c k : Nat}
    (hc : c < s.cfg.N_OUT) (hk : k < s.cfg.D2) {a : BlockAcc} {e : Fault}
    (h : blockPass s c k a = .error e) : CoefficientFault s e := by
  obtain ⟨-, -, hsize⟩ := hl.channels
  have hlt : c * s.cfg.D2 + (s.cfg.D2 - 1 - k) < s.cfg.OBW := row_index_lt hc (by omega)
  obtain ⟨w, hw⟩ := Option.isSome_iff_exists.1 (hob _ hlt)
  have hload : load .ob Config.bufWords s.ob (c * s.cfg.D2 + (s.cfg.D2 - 1 - k)) = .ok w :=
    load_eq_ok.2 ⟨hlt.trans_le hsize, hw⟩
  simp only [blockPass, hload] at h
  split at h
  · cases h; exact s1Step_coefficientFault ‹_›
  · split at h
    · cases h; exact stage2_coefficientFault hl ‹_›
    · cases h

theorem blockTail_coefficientFault {b : BlockOut} (hl : LegalCfg b.st.cfg) {c : Fin 16} {ch : Channel}
    {y : Word} {e : Fault} (h : blockTail b c ch y = .error e) : CoefficientFault b.st e := by
  unfold blockTail at h
  split at h
  · cases h
  · rename_i hn
    have hst := hl.stages.2.1
    simp only [List.mem_cons, List.not_mem_nil, or_false] at hst
    have hn2 : b.st.cfg.nStages.toNat ≠ 2 := fun h2 =>
      hn (beq_iff_eq.2 (BitVec.eq_of_toNat_eq h2))
    split at h
    · cases h; exact stage3_coefficientFault hl (hst.resolve_left hn2) ‹_›
    · cases h

/-- FIRBLK over one channel. -/
theorem blockChannel_coefficientFault {b : BlockOut} (hl : LegalCfg b.st.cfg)
    (hob : Written b.st.ob b.st.cfg.OBW) {c : Nat} (hc : c < b.st.cfg.N_OUT) {e : Fault}
    (h : blockChannel c b = .error e) : CoefficientFault b.st e := by
  obtain ⟨-, hout, -⟩ := hl.channels
  unfold blockChannel at h
  split at h
  · rename_i hi
    obtain ⟨hge, -⟩ := channelIndex_eq_error.1 hi
    omega
  · split at h
    · rename_i hpass
      cases h
      obtain ⟨k, a, hk, -, hpass⟩ := forRange_error hpass
      exact blockPass_coefficientFault hl hob hc hk hpass
    · exact blockTail_coefficientFault (b := { b with st := b.st.raiseFlag .s2sat _ }) hl h

/-- FIRBLK in a run: the channels before the one that faults have changed no table and no memory. -/
theorem RunInv.firblk_coefficientFault (h : RunInv s) (hq : s.cseq = .fir) {e : Fault}
    (he : forRange s.cfg.N_OUT blockChannel { st := s, valid := false } = .error e) :
    CoefficientFault s e := by
  have ha := h.active_of_cseq (by simp [hq]) (by simp [hq])
  have hl := h.range.legal ha
  have hob := h.written.block ha hq
  obtain ⟨c, b, hc, hb, hfault⟩ := forRange_error he
  have hframe : BlockFrame s b.st := forRange_ok_ind (fun _ (b : BlockOut) => BlockFrame s b.st) hb
    (BlockFrame.refl s) fun _ _ _ _ hx hy => blockChannel_frame hx hy
  have key := blockChannel_coefficientFault (b := b) (by rw [hframe.1]; exact hl)
    (by rw [hframe.1]; exact hob) (by rw [hframe.1]; exact hc) hfault
  rw [hframe.1] at key
  exact key

/-- Settles O57: the link commands fault by misuse, the filters by a coefficient; the other operations that could
fault find their indices in range and their words written. -/
theorem onlyTheHostCausesFaults : Obligations.OnlyTheHostCausesFaults := by
  intro i s e h he
  have hmay := mayFault_of_fault he
  cases i with
  | rxframe | rxframet | shutdown =>
    obtain ⟨hp, rfl⟩ := linkCommand_fault he
    exact .inl ⟨rfl, hp, rfl⟩
  | pdmword w =>
    obtain ⟨hr, hpos⟩ := execPdmword_fault he
    have ha : s.active := .inr (.inl hr)
    obtain ⟨⟨-, hbw⟩, -⟩ := (h.range.legal ha).sizes
    exact absurd (h.range.wrPos ha) (by omega)
  | deint =>
    obtain ⟨hq, herr⟩ := execDeint_fault he
    obtain ⟨m, hm⟩ := h.deintHalf_ok hq
    rw [hm] at herr; cases herr
  | chsel =>
    obtain ⟨hq, herr⟩ := execChsel_fault he
    obtain ⟨m, hm⟩ := h.selectBlock_ok hq
    rw [hm] at herr; cases herr
  | firblk =>
    obtain ⟨hq, herr⟩ := execFirblk_fault he
    exact .inr (h.firblk_coefficientFault hq herr)
  | s1step a w =>
    obtain ⟨c, herr⟩ := execS1step_fault he
    exact .inr (s1Step_coefficientFault herr)
  | s2step a x =>
    obtain ⟨ha, c, herr⟩ := execS2step_fault he
    exact .inr (stage2_coefficientFault (h.range.legal ha) herr)
  | s3step a x =>
    obtain ⟨ha, hn, c, herr⟩ := execS3step_fault he
    exact .inr (stage3_coefficientFault (h.range.legal ha) (by rw [hn]; rfl) herr)
  | frmadd =>
    obtain ⟨hq, herr⟩ := execFrmadd_fault he
    obtain ⟨m, hm⟩ := h.column_ok hq
    rw [hm] at herr; cases herr
  | frmtx =>
    obtain ⟨hq, herr | herr⟩ := execFrmtx_fault he
    · obtain ⟨ws, hws⟩ := h.frameWords_ok hq
      rw [hws] at herr; cases herr
    · obtain ⟨ws, hws⟩ := h.frameWordsTransposed_ok hq
      rw [hws] at herr; cases herr
  | _ => cases hmay

end Sys2Proof.Machine

/-! Statements of the family 30_encoding.md: the decoder and the encoder against the operation map, the words they
refuse, what an operation does not read, the coefficient writes and the delivery of a frame. -/

namespace Sys2Proof.Machine

/-! ### Decoding an encoded operation (30_encoding.md R118 to R121) -/

/-- The operation word of every operation is in the operation map (R118 to R121). -/
theorem word_in_the_map : ∀ i : Instr, Laws.WordInTheMap.Statement i
  | .reset => Laws.WordInTheMap.reset
  | .cfgwr b imm => Laws.WordInTheMap.cfgwr b imm
  | .csrrd b => Laws.WordInTheMap.csrrd b
  | .coefwr a b imm => Laws.WordInTheMap.coefwr a b imm
  | .init => Laws.WordInTheMap.init
  | .start => Laws.WordInTheMap.start
  | .rxframe => Laws.WordInTheMap.rxframe
  | .rxframet => Laws.WordInTheMap.rxframet
  | .shutdown => Laws.WordInTheMap.shutdown
  | .pdmword imm => Laws.WordInTheMap.pdmword imm
  | .handoff => Laws.WordInTheMap.handoff
  | .rxexit => Laws.WordInTheMap.rxexit
  | .blkreq => Laws.WordInTheMap.blkreq
  | .blkpop => Laws.WordInTheMap.blkpop
  | .deint => Laws.WordInTheMap.deint
  | .chsel => Laws.WordInTheMap.chsel
  | .firblk => Laws.WordInTheMap.firblk
  | .s1step a imm => Laws.WordInTheMap.s1step a imm
  | .s2step a imm => Laws.WordInTheMap.s2step a imm
  | .s3step a imm => Laws.WordInTheMap.s3step a imm
  | .dcoe => Laws.WordInTheMap.dcoe
  | .frmadd => Laws.WordInTheMap.frmadd
  | .frmtx => Laws.WordInTheMap.frmtx
  | .unwind => Laws.WordInTheMap.unwind
  | .drain => Laws.WordInTheMap.drain

/-- Settles O1: the map gives the operation back from the fields of its word, and its unused fields are 0. -/
theorem decodeInvertsEncode : Obligations.DecodeInvertsEncode := by
  intro i hwf
  obtain ⟨f, -, hzero, hmap⟩ := word_in_the_map i
  exact decode_eq_ok.2 ⟨f, hmap, hzero, hwf⟩

theorem decode_of_encode_eq {i : Instr} {w : OpWord} (hw : encode i = w) (hwf : i.wellFormed = true) :
    decode w = .ok i := hw ▸ decodeInvertsEncode i hwf

/-- Settles O4: each word is the operation word of the operation it stands for. -/
theorem writtenOutWordsDecode : Obligations.WrittenOutWordsDecode :=
  ⟨decode_of_encode_eq (by decide) rfl, decode_of_encode_eq (by decide) rfl,
    decode_of_encode_eq (by decide) rfl, decode_of_encode_eq (by decide) rfl,
    decode_of_encode_eq (by decide) rfl, decode_of_encode_eq (by decide) rfl⟩

/-! ### Encoding a decoded operation (30_encoding.md R119, R120) -/

/-- The word with the given fields, those the format does not use replaced by 0 (R119, column "uses"). -/
def formatWord (f : Format) (op a : BitVec 8) (b : BitVec 16) (imm : Word) : OpWord :=
  match f with
  | .z => makeWord op 0 0 0
  | .i => makeWord op 0 0 imm
  | .r => makeWord op 0 b 0
  | .ri => makeWord op 0 b imm
  | .ai => makeWord op a 0 imm
  | .abi => makeWord op a b imm

/-- A word whose unused fields are 0 is the word of the fields its format uses. -/
theorem word_of_unusedFieldsZero {f : Format} {w : OpWord} (h : UnusedFieldsZero f w) :
    formatWord f (opOf w) (aOf w) (bOf w) (immOf w) = w := by
  conv_rhs => rw [← makeWord_fields w]
  cases f <;> simp_all [UnusedFieldsZero, formatWord]

/-- A row of the operation map (R120): its code and format are listed, and the operation is encoded with that code
in that format. -/
theorem operationMap_row {n : Nat} {a : BitVec 8} {b : BitVec 16} {imm : Word} {f : Format} {i : Instr}
    (h : operationMap n a b imm = some (f, i)) :
    (BitVec.ofNat 8 n, f) ∈ operationCodes ∧ encode i = formatWord f (BitVec.ofNat 8 n) a b imm := by
  unfold operationMap at h
  split at h <;> cases h <;> exact ⟨by decide, rfl⟩

/-- A word without stray bits is the operation word of the operation its row gives. -/
theorem encode_of_row {w : OpWord} {f : Format} {i : Instr}
    (hmap : operationMap (opOf w).toNat (aOf w) (bOf w) (immOf w) = some (f, i)) (hzero : UnusedFieldsZero f w) :
    encode i = w := by
  have hrow := (operationMap_row hmap).2
  rw [BitVec.ofNat_toNat, BitVec.setWidth_eq] at hrow
  exact hrow.trans (word_of_unusedFieldsZero hzero)

/-- Settles O2: the row of the map that decoded the word encodes its operation to the same fields. -/
theorem encodeInvertsDecode : Obligations.EncodeInvertsDecode := by
  intro w i h
  obtain ⟨f, hmap, hzero, hwf⟩ := decode_eq_ok.1 h
  exact ⟨hwf, encode_of_row hmap hzero⟩

/-! ### Reserved words (30_encoding.md R125) -/

/-- A listed code has a row in the operation map, with the format listed. -/
theorem operationMap_of_listed (a : BitVec 8) (b : BitVec 16) (imm : Word) :
    ∀ p ∈ operationCodes, ∃ i, operationMap p.1.toNat a b imm = some (p.2, i) := by
  intro p hp
  fin_cases hp <;> exact ⟨_, rfl⟩

/-- A code that is not listed has no row (R125 (a)). -/
theorem operationMap_eq_none {w : OpWord} (h : ∀ f, (opOf w, f) ∉ operationCodes) :
    operationMap (opOf w).toNat (aOf w) (bOf w) (immOf w) = none := by
  refine Option.eq_none_iff_forall_ne_some.2 fun ⟨f, i⟩ hmap => h f ?_
  simpa using (operationMap_row hmap).1

theorem legalStage_iff (a : BitVec 8) : legalStage a = true ↔ 1 ≤ a.toNat ∧ a.toNat ≤ 3 := by
  revert a; decide +kernel

/-- R43's list of reserved indices. -/
theorem reservedIndex_iff (b : BitVec 16) :
    reservedIndex b = true ↔ b.toNat ∈ [0x06, 0x07] ∨ (0x14 ≤ b.toNat ∧ b.toNat ≤ 0x1F) ∨
      (0x30 ≤ b.toNat ∧ b.toNat ≤ 0x3F) ∨ 0x4E ≤ b.toNat := by
  simp [reservedIndex, ← BitVec.toNat_inj, or_assoc]

/-- An operation is ill-formed exactly when its word has a reserved operand (R125 (c)). -/
theorem operandReserved_encode (i : Instr) : OperandReserved (encode i) ↔ i.wellFormed = false := by
  cases i with
  | cfgwr b imm | csrrd b =>
    simp [OperandReserved, encode, Instr.wellFormed, ← reservedIndex_iff, -List.mem_cons]
  | coefwr a b imm =>
    simp [OperandReserved, encode, Instr.wellFormed, legalTap, ← legalStage_iff, imp_iff_not_or]
  | s1step a imm | s2step a imm | s3step a imm =>
    simp [OperandReserved, encode, Instr.wellFormed, legalChannel]
  | _ => simp [OperandReserved, encode, Instr.wellFormed]

theorem step_of_decode_error {s : State} {w : OpWord} {rest : List OpWord} {e : DecodeError}
    (h : s.agenda = w :: rest) (hd : decode w = .error e) : step s = .refused (.reservedWord e) := by
  rw [step_cons h, hd]

/-- Settles O3: the row of the word's code in the map decides the reason, or that there is none. -/
theorem reservedWordsAreRefused : Obligations.ReservedWordsAreRefused := by
  intro s w rest hs
  refine ⟨fun hcode => ?unlisted, fun f hcode => ?listed⟩
  case unlisted =>
    exact step_of_decode_error hs (decode_eq_error.2 (.inl ⟨operationMap_eq_none hcode, rfl⟩))
  case listed =>
    obtain ⟨i, hmap⟩ := operationMap_of_listed (aOf w) (bOf w) (immOf w) _ hcode
    have hill (hzero : UnusedFieldsZero f w) : OperandReserved w ↔ i.wellFormed = false := by
      rw [← operandReserved_encode, encode_of_row hmap hzero]
    refine ⟨fun hfield => ?_, fun hzero hres => ?_, fun hzero hres => ?_⟩
    · exact step_of_decode_error hs (decode_eq_error.2 (.inr ⟨f, i, hmap, .inl ⟨hfield, rfl⟩⟩))
    · exact step_of_decode_error hs
        (decode_eq_error.2 (.inr ⟨f, i, hmap, .inr ⟨hzero, (hill hzero).1 hres, rfl⟩⟩))
    · have hwf : i.wellFormed = true := by simpa using mt (hill hzero).2 hres
      exact ⟨i, decode_eq_ok.2 ⟨f, hmap, hzero, hwf⟩⟩

/-! ### No operation reads the agenda (30_encoding.md R118) -/

/-- The state with the agenda replaced: the statement's `withAgenda` on a state. -/
abbrev State.withAgenda (l : List OpWord) (s : State) : State := { s with agenda := l }

section
variable (s : State) (l : List OpWord)

/-- `apply_ite` from the branches up: the two conditions may differ by what unfolds. -/
theorem ite_commutes {α β : Type} (F : α → β) (c : Prop) [Decidable c] {x y : α} {x' y' : β} (hx : x' = F x)
    (hy : y' = F y) : (if c then x' else y') = F (if c then x else y) := by
  rw [hx, hy, apply_ite F]

/-! What the operations read of a state is not its agenda. -/

theorem readReg_withAgenda (r : Reg) : readReg (s.withAgenda l) r = readReg s r := by cases r <;> rfl

theorem stage2_withAgenda : (s.withAgenda l).stage2 = s.stage2 := rfl
theorem stage3_withAgenda : (s.withAgenda l).stage3 = s.stage3 := rfl
theorem blockPass_withAgenda : blockPass (s.withAgenda l) = blockPass s := rfl
theorem addSample_withAgenda : addSample (s.withAgenda l) = addSample s := rfl
theorem frameWords_withAgenda : frameWords (s.withAgenda l) = frameWords s := rfl
theorem frameWordsTransposed_withAgenda : frameWordsTransposed (s.withAgenda l) = frameWordsTransposed s := rfl

/-! The updates of a state leave its agenda. -/

theorem writeReg_withAgenda (v : Word) (r : Reg) :
    writeReg (s.withAgenda l) v r = (writeReg s v r).withAgenda l := by cases r <;> rfl

theorem writeCoef_withAgenda (st : Stage) (k : Nat) (v : Word) :
    (s.withAgenda l).writeCoef st k v = (s.writeCoef st k v).withAgenda l := by cases st <;> rfl

theorem raiseFatal_withAgenda (c : Cause) : (s.withAgenda l).raiseFatal c = (s.raiseFatal c).withAgenda l :=
  ite_commutes (State.withAgenda l) _ rfl rfl

theorem handoffIrq_withAgenda (h : Half) : (s.withAgenda l).handoffIrq h = (s.handoffIrq h).withAgenda l :=
  ite_commutes (State.withAgenda l) _ rfl (ite_commutes (State.withAgenda l) _ rfl (raiseFatal_withAgenda s l _))

theorem handoffThread_withAgenda (h : Half) :
    (s.withAgenda l).handoffThread h = (s.handoffThread h).withAgenda l :=
  ite_commutes (State.withAgenda l) _ rfl rfl

theorem handoffAttempt_withAgenda (h : Half) :
    (s.withAgenda l).handoffAttempt h = (s.handoffAttempt h).withAgenda l :=
  ite_commutes (State.withAgenda l) _ (handoffThread_withAgenda s l h) (handoffIrq_withAgenda s l h)

theorem advanceWord_withAgenda : (s.withAgenda l).advanceWord = s.advanceWord.withAgenda l :=
  ite_commutes (State.withAgenda l) _ rfl
    (handoffAttempt_withAgenda
      { s with wrPos := BitVec.ofNat 8 (s.cfg.BW - 1), fillSel := 1 - s.fillSel } l s.fillSel)

/-- A loop state of FIRBLK with the agenda of its machine replaced. -/
def BlockOut.withAgenda (l : List OpWord) (b : BlockOut) : BlockOut := { b with st := b.st.withAgenda l }

/-- A loop whose passes do not read the agenda does not read it. -/
theorem forRange_map {σ : Type} {f : Nat → σ → Except Fault σ} {g : σ → σ}
    (hf : ∀ i a, f i (g a) = (f i a).map g) (n : Nat) (a : σ) :
    forRange n f (g a) = (forRange n f a).map g := by
  induction n with
  | zero => rfl
  | succ n ih =>
    simp only [forRange, ih]
    cases forRange n f a with
    | error e => rfl
    | ok b => exact hf n b

theorem blockTail_withAgenda (b : BlockOut) (c : Fin 16) (ch : Channel) (y : Word) :
    blockTail (b.withAgenda l) c ch y = (blockTail b c ch y).map (BlockOut.withAgenda l) := by
  refine ite_commutes (Except.map (BlockOut.withAgenda l)) _ rfl ?_
  simp only [BlockOut.withAgenda, stage3_withAgenda]
  cases b.st.stage3 y ch.st3 <;> rfl

theorem blockChannel_withAgenda (c : Nat) (b : BlockOut) :
    blockChannel c (b.withAgenda l) = (blockChannel c b).map (BlockOut.withAgenda l) := by
  unfold blockChannel
  cases channelIndex c with
  | error e => rfl
  | ok i =>
    simp only [BlockOut.withAgenda, blockPass_withAgenda]
    cases forRange b.st.cfg.D2 (blockPass b.st c) { ch := b.st.ch[i], y2 := none, sat := false } with
    | error e => rfl
    | ok a => exact blockTail_withAgenda l { b with st := b.st.raiseFlag .s2sat a.sat } i a.ch _

/-! One rule per operation whose meaning has cases beyond its guard, then all of them together. -/

theorem next_ite_withAgenda {c : Prop} [Decidable c] {t u t' u' : State} (ht : t' = t.withAgenda l)
    (hu : u' = u.withAgenda l) :
    Host.Outcome.next (if c then t' else u') = withAgenda l (.next (if c then t else u)) :=
  congrArg Host.Outcome.next (ite_commutes (State.withAgenda l) c ht hu)

theorem execCfgwr_withAgenda (b : BitVec 16) (v : Word) :
    execCfgwr b v (s.withAgenda l) = withAgenda l (execCfgwr b v s) := by
  unfold execCfgwr
  cases regOfIndex b with
  | none => rfl
  | some r => exact next_ite_withAgenda l (writeReg_withAgenda s l v r) rfl

theorem execCsrrd_withAgenda (b : BitVec 16) :
    execCsrrd b (s.withAgenda l) = withAgenda l (execCsrrd b s) := by
  unfold execCsrrd
  simp only [readReg_withAgenda]
  cases regOfIndex b <;> rfl

theorem execCoefwr_withAgenda (a : BitVec 8) (b : BitVec 16) (v : Word) :
    execCoefwr a b v (s.withAgenda l) = withAgenda l (execCoefwr a b v s) := by
  unfold execCoefwr
  cases stageOf a with
  | none => rfl
  | some st =>
    cases tapOf b with
    | none => rfl
    | some k => exact next_ite_withAgenda l (writeCoef_withAgenda s l st k _) rfl

theorem execInit_withAgenda : execInit (s.withAgenda l) = withAgenda l (execInit s) := by
  refine ite_commutes (withAgenda l) _ ?_ rfl
  cases initFailure s.cfg with
  | none => rfl
  | some c => exact congrArg Host.Outcome.next (raiseFatal_withAgenda s l c)

theorem linkCommand_withAgenda (p : HostPend) :
    linkCommand p (s.withAgenda l) = withAgenda l (linkCommand p s) :=
  ite_commutes (withAgenda l) _ rfl (next_ite_withAgenda l rfl rfl)

theorem storeWord_withAgenda (w : Word) :
    (s.withAgenda l).storeWord w = (s.storeWord w).map (State.withAgenda l) := by
  unfold State.storeWord
  cases store .buf Config.bufWords s.buf[s.fillSel] s.wrPos.toNat w <;> rfl

theorem execPdmword_withAgenda (w : Word) :
    execPdmword w (s.withAgenda l) = withAgenda l (execPdmword w s) := by
  refine ite_commutes (withAgenda l) _ (ite_commutes (withAgenda l) _ rfl ?_) rfl
  rw [storeWord_withAgenda]
  cases s.storeWord w with
  | error e => rfl
  | ok t => exact congrArg Host.Outcome.next (advanceWord_withAgenda t l)

theorem execBlkpop_withAgenda : execBlkpop (s.withAgenda l) = withAgenda l (execBlkpop s) := by
  refine ite_commutes (withAgenda l) _ ?_ rfl
  cases s.fifo <;> rfl

theorem execDeint_withAgenda : execDeint (s.withAgenda l) = withAgenda l (execDeint s) := by
  refine ite_commutes (withAgenda l) _ ?_ rfl
  cases deintHalf s.cfg.N_IN s.cfg.D2 s.buf[s.cur] <;> rfl

theorem execChsel_withAgenda : execChsel (s.withAgenda l) = withAgenda l (execChsel s) := by
  refine ite_commutes (withAgenda l) _ ?_ rfl
  cases selectBlock s.cfg s.buf[s.cur] s.ob <;> rfl

theorem execFirblk_withAgenda : execFirblk (s.withAgenda l) = withAgenda l (execFirblk s) := by
  refine ite_commutes (withAgenda l) _ ?_ rfl
  have hloop : forRange s.cfg.N_OUT blockChannel { st := s.withAgenda l, valid := false } =
      (forRange s.cfg.N_OUT blockChannel { st := s, valid := false }).map (BlockOut.withAgenda l) :=
    forRange_map (blockChannel_withAgenda l) s.cfg.N_OUT { st := s, valid := false }
  simp only [hloop]
  cases forRange s.cfg.N_OUT blockChannel { st := s, valid := false } <;> rfl

theorem execS1step_withAgenda (a : BitVec 8) (w : Word) :
    execS1step a w (s.withAgenda l) = withAgenda l (execS1step a w s) := by
  unfold execS1step
  cases channelOf a with
  | none => rfl
  | some c =>
    refine ite_commutes (withAgenda l) _ ?_ rfl
    cases s1Step s.coef1 w s.ch[c].h1 <;> rfl

theorem execS2step_withAgenda (a : BitVec 8) (x : Word) :
    execS2step a x (s.withAgenda l) = withAgenda l (execS2step a x s) := by
  unfold execS2step
  cases channelOf a with
  | none => rfl
  | some c =>
    refine ite_commutes (withAgenda l) _ ?_ rfl
    rw [stage2_withAgenda]
    cases s.stage2 x s.ch[c].st2 <;> rfl

theorem execS3step_withAgenda (a : BitVec 8) (x : Word) :
    execS3step a x (s.withAgenda l) = withAgenda l (execS3step a x s) := by
  unfold execS3step
  cases channelOf a with
  | none => rfl
  | some c =>
    refine ite_commutes (withAgenda l) _ ?_ rfl
    rw [stage3_withAgenda]
    cases s.stage3 x s.ch[c].st3 <;> rfl

theorem execFrmadd_withAgenda : execFrmadd (s.withAgenda l) = withAgenda l (execFrmadd s) := by
  refine ite_commutes (withAgenda l) _ ?_ rfl
  rw [addSample_withAgenda]
  cases forRange s.cfg.N_OUT (addSample s) s.frm with
  | error e => rfl
  | ok m => exact ite_commutes (withAgenda l) _ rfl rfl

theorem execFrmtx_withAgenda : execFrmtx (s.withAgenda l) = withAgenda l (execFrmtx s) := by
  refine ite_commutes (withAgenda l) _ ?_ rfl
  rw [frameWords_withAgenda, frameWordsTransposed_withAgenda]
  cases s.hostPend with
  | none | shutdown => rfl
  | rxframe => cases frameWords s <;> rfl
  | rxframet => cases frameWords s <;> cases frameWordsTransposed s <;> rfl

theorem execDrain_withAgenda : execDrain (s.withAgenda l) = withAgenda l (execDrain s) := by
  refine ite_commutes (withAgenda l) _ ?_ rfl
  cases s.fifo <;> rfl

/-- No operation reads the agenda, and each leaves it alone. -/
theorem exec_withAgenda : ∀ i : Instr, exec i (s.withAgenda l) = withAgenda l (exec i s)
  | .reset => rfl
  | .cfgwr b v => execCfgwr_withAgenda s l b v
  | .csrrd b => execCsrrd_withAgenda s l b
  | .coefwr a b v => execCoefwr_withAgenda s l a b v
  | .init => execInit_withAgenda s l
  | .start | .handoff | .rxexit | .blkreq | .unwind => next_ite_withAgenda l rfl rfl
  | .rxframe => linkCommand_withAgenda s l .rxframe
  | .rxframet => linkCommand_withAgenda s l .rxframet
  | .shutdown => linkCommand_withAgenda s l .shutdown
  | .pdmword w => execPdmword_withAgenda s l w
  | .blkpop => execBlkpop_withAgenda s l
  | .deint => execDeint_withAgenda s l
  | .chsel => execChsel_withAgenda s l
  | .firblk => execFirblk_withAgenda s l
  | .s1step a w => execS1step_withAgenda s l a w
  | .s2step a x => execS2step_withAgenda s l a x
  | .s3step a x => execS3step_withAgenda s l a x
  | .dcoe => ite_commutes (withAgenda l) _ (ite_commutes (withAgenda l) _ rfl rfl) rfl
  | .frmadd => execFrmadd_withAgenda s l
  | .frmtx => execFrmtx_withAgenda s l
  | .drain => execDrain_withAgenda s l

end

/-- Settles O6: replacing the agenda commutes with every operation. -/
theorem operationsNeverReadTheAgenda : Obligations.OperationsNeverReadTheAgenda :=
  fun i s l => exec_withAgenda s l i

/-! ### COEFWR (46_control_sequencer.md R285) -/

theorem execCoefwr_of_open {s : State} {a : BitVec 8} {st : Stage} (ho : s.configOpen = true)
    (hst : stageOf a = some st) (k : Fin 256) (v : Word) :
    execCoefwr a (BitVec.ofNat 16 k) v s = .next (s.writeCoef st k (coefOperand st v)) := by
  simp [execCoefwr, hst, ho]

/-- Settles O11: the write reaches the one memory of its stage; stage 1's operand is the sign-extended low half. -/
theorem coefficientWrite : Obligations.CoefficientWrite := by
  intro k v s hrx hf
  have ho : s.configOpen = true := configOpen_iff.2 ⟨hrx, hf⟩
  exact ⟨⟨_, execCoefwr_of_open (st := .one) ho rfl k v, rfl, fun i => Memory.read_write s.coef1 k i _⟩,
    ⟨_, execCoefwr_of_open (st := .two) ho rfl k v, rfl, fun i => Memory.read_write s.coef2 k i v⟩,
    ⟨_, execCoefwr_of_open (st := .three) ho rfl k v, rfl, fun i => Memory.read_write s.coef3 k i v⟩⟩

/-! ### Delivery of a frame (45_framing_transfer.md R255, R256) -/

/-- A list of words with values, read one by one, holds those words. -/
theorem collect_load {sp : Space} {size n : Nat} {m : Memory} {a : Nat → Nat}
    (ha : ∀ i < n, a i < size ∧ (m.read (a i)).isSome = true) :
    ∃ ws, collect (fun i => load sp size m (a i)) 0 n = .ok ws ∧ ws.length = n ∧
      ∀ i < n, ws[i]? = m.read (a i) := by
  obtain ⟨ws, hws⟩ : ∃ ws, collect (fun i => load sp size m (a i)) 0 n = .ok ws :=
    collect_ok_of fun i hi => by
      obtain ⟨v, hv⟩ := Option.isSome_iff_exists.1 (ha i hi).2
      exact ⟨v, by rw [Nat.zero_add]; exact load_eq_ok.2 ⟨(ha i hi).1, hv⟩⟩
  obtain ⟨hlen, hread⟩ := collect_eq_ok.1 hws
  refine ⟨ws, hws, hlen, fun i hi => ?_⟩
  have hi' : i < ws.length := hlen ▸ hi
  have hload := hread i hi'
  rw [Nat.zero_add] at hload
  rw [List.getElem?_eq_getElem hi', (load_eq_ok.1 hload).2]

/-- The current frame buffer exists and every word of it was written. -/
structure FrameReady (s : State) : Prop where
  buffer : s.frmBuf.toNat < s.cfg.NFB
  written : ∀ c < s.cfg.N_OUT, ∀ k < s.cfg.SPF,
    (s.frm.read (s.cfg.frmIndex s.frmBuf.toNat c k)).isSome = true

section
variable {s : State}

theorem FrameReady.word (h : FrameReady s) {c k : Nat} (hc : c < s.cfg.N_OUT) (hk : k < s.cfg.SPF) :
    s.cfg.frmIndex s.frmBuf.toNat c k < s.cfg.frmWords ∧
      (s.frm.read (s.cfg.frmIndex s.frmBuf.toNat c k)).isSome = true :=
  ⟨CfgRegs.frmIndex_lt h.buffer hc hk, h.written c hc k hk⟩

/-- A ready frame is read channel-major: word `i` is sample `i mod SPF` of channel `i div SPF`. -/
theorem FrameReady.frameWords (h : FrameReady s) :
    ∃ ws, frameWords s = .ok ws ∧ ws.length = s.cfg.N_OUT * s.cfg.SPF ∧ ∀ i < s.cfg.N_OUT * s.cfg.SPF,
      ws[i]? = s.frm.read (s.cfg.frmIndex s.frmBuf.toNat (i / s.cfg.SPF) (i % s.cfg.SPF)) :=
  collect_load fun i hi => by
    have hpos : 0 < s.cfg.SPF := Nat.pos_of_mul_pos_left (Nat.zero_lt_of_lt hi)
    exact h.word (Nat.div_lt_of_lt_mul (Nat.mul_comm _ _ ▸ hi)) (Nat.mod_lt i hpos)

/-- A ready frame is read sample-major: word `i` is sample `i div N_OUT` of channel `i mod N_OUT`. -/
theorem FrameReady.frameWordsTransposed (h : FrameReady s) :
    ∃ ws, frameWordsTransposed s = .ok ws ∧ ws.length = s.cfg.N_OUT * s.cfg.SPF ∧
      ∀ i < s.cfg.N_OUT * s.cfg.SPF,
        ws[i]? = s.frm.read (s.cfg.frmIndex s.frmBuf.toNat (i % s.cfg.N_OUT) (i / s.cfg.N_OUT)) :=
  collect_load fun i hi => by
    have hpos : 0 < s.cfg.N_OUT := Nat.pos_of_mul_pos_right (Nat.zero_lt_of_lt hi)
    exact h.word (Nat.mod_lt i hpos) (Nat.div_lt_of_lt_mul hi)

/-- FRMTX with a receiving command delivers the list of that command (R255, R257, R258). -/
theorem execFrmtx_of_receive (hq : s.at .frmtx = true) (hp : s.hostPend = .rxframe ∨ s.hostPend = .rxframet)
    {major minor : List Word} (hmajor : frameWords s = .ok major) (hminor : frameWordsTransposed s = .ok minor) :
    execFrmtx s = .next (s.deliver major (if s.hostPend = .rxframe then major else minor)) := by
  rcases hp with hp | hp <;> simp [execFrmtx, hq, hp, hmajor, hminor]

/-- The ring of frame buffers of a legal configuration fits `FRM_BUF` (R253). -/
theorem LegalCfg.ring {g : CfgRegs} (h : LegalCfg g) (n : Nat) :
    (BitVec.ofNat 8 (n % g.NFB)).toNat = n % g.NFB := by
  obtain ⟨-, -, hpos, hle⟩ := h.sizes
  have hlt : n % g.NFB < g.NFB := Nat.mod_lt n hpos
  rw [BitVec.toNat_ofNat, Nat.mod_eq_of_lt (by omega)]

end

/-- Settles O41: the two lists read from a ready frame, and the delivery of the waiting command's one. -/
theorem frameDelivered : Obligations.FrameDelivered := by
  intro s hq hf hl hb hw hp
  have hready : FrameReady s := ⟨hb, hw⟩
  obtain ⟨major, hmajor, hmajorLen, hmajorAt⟩ := hready.frameWords
  obtain ⟨minor, hminor, hminorLen, hminorAt⟩ := hready.frameWordsTransposed
  exact ⟨major, minor, _, execFrmtx_of_receive (at_iff.2 ⟨hq, hf⟩) hp hmajor hminor, hmajorLen, hminorLen,
    fun i hi => ⟨hmajorAt i hi, hminorAt i hi⟩, rfl, hl.ring _⟩

end Sys2Proof.Machine

/-! Statements of the family 40_deinterleave.md: the group function, its inverse and its network form, and the two
operations that work on the draining half. -/

namespace Sys2Proof.Machine

/-! ### Bit addresses of a group (40_deinterleave.md R143) -/

section
variable {n m b c j : Nat}

/-- The row of an index into an array of rows of `n`. -/
theorem row_index_div (r : Nat) (hc : c < n) : (r * n + c) / n = r := by
  rw [Nat.mul_comm, Nat.mul_add_div (Nat.zero_lt_of_lt hc), Nat.div_eq_of_lt hc, Nat.add_zero]

/-- The words of a group stand in the reverse of their arrival: arrival `m` is a word of the group. -/
theorem reversed_lt (hn : 0 < n) (m : Nat) : n - 1 - m < n := by omega

theorem reversed_reversed (hm : m < n) : n - 1 - (n - 1 - m) = m := by omega

/-- The instants of the channels fill a raw word. -/
theorem instantsPerWord_mul (hn : n ∣ 32) : instantsPerWord n * n = 32 := Nat.div_mul_cancel hn

theorem instantsPerWord_pos (hn : n ∣ 32) : 0 < instantsPerWord n :=
  Nat.div_pos (Nat.le_of_dvd (by decide) hn) (Nat.pos_of_dvd_of_pos hn (by decide))

/-- The sample of a channel at an instant of a raw word is a bit of that word. -/
theorem sample_bit_lt (hn : n ∣ 32) (j : Nat) (hc : c < n) : j % instantsPerWord n * n + c < 32 :=
  instantsPerWord_mul hn ▸ row_index_lt (Nat.mod_lt j (instantsPerWord_pos hn)) hc

theorem bit_instant_lt (hn : n ∣ 32) (hb : b < 32) : b / n < instantsPerWord n := by
  rw [← instantsPerWord_mul hn, Nat.mul_comm] at hb
  exact Nat.div_lt_of_lt_mul hb

/-- A bit of a raw word is one of the 32 samples of its channel. -/
theorem bit_sample_lt (hn : n ∣ 32) (hm : m < n) (hb : b < 32) :
    (n - 1 - m) * instantsPerWord n + b / n < 32 := by
  have hlt := row_index_lt (reversed_lt (Nat.zero_lt_of_lt hm) m) (bit_instant_lt hn hb)
  rwa [Nat.mul_comm n, instantsPerWord_mul hn] at hlt

/-- The arrival of a sample is one of the group's words. -/
theorem sample_arrival_lt (hn : n ∣ 32) (hj : j < 32) : j / instantsPerWord n < n := by
  rw [← instantsPerWord_mul hn] at hj
  exact Nat.div_lt_of_lt_mul hj

/-! ### The group function and its inverse (40_deinterleave.md R142, R146) -/

/-- Bit `b` of raw word `m` is found in channel `b mod N`, at the instant of its arrival and place. -/
theorem deintBit_of_raw (hn : n ∣ 32) (ws : List Word) (hm : m < n) (hb : b < 32) :
    deintBit n ws (b % n) ((n - 1 - m) * instantsPerWord n + b / n) = (ws.getD m 0#32).getLsbD b := by
  have hinstant := bit_instant_lt hn hb
  rw [deintBit, row_index_div _ hinstant, Nat.mul_add_mod_of_lt hinstant, reversed_reversed hm,
    Nat.div_add_mod']

/-- The inverse puts sample `j` of channel `c` where the group function looks for it. -/
theorem interleaveGroup_sample (hn : n ∣ 32) (ws : List Word) (hc : c < n) (hj : j < 32) :
    ((interleaveGroup n ws).getD (n - 1 - j / instantsPerWord n) 0#32).getLsbD
      (j % instantsPerWord n * n + c) = (ws.getD c 0#32).getLsbD j := by
  rw [getLsbD_interleaveGroup ws (reversed_lt (Nat.zero_lt_of_lt hc) _) (sample_bit_lt hn j hc),
    Nat.mul_add_mod_of_lt hc, row_index_div _ hc, reversed_reversed (sample_arrival_lt hn hj), Nat.div_add_mod']

end

/-- Two groups with the same bits are the same. -/
theorem group_ext {xs ys : List Word} (hlen : xs.length = ys.length)
    (hbit : ∀ i < xs.length, ∀ b < 32, (xs.getD i 0#32).getLsbD b = (ys.getD i 0#32).getLsbD b) : xs = ys :=
  List.ext_getElem hlen fun i hx hy => by
    have hword := BitVec.eq_of_getLsbD_eq (hbit i hx)
    rwa [List.getD_eq_getElem _ _ hx, List.getD_eq_getElem _ _ hy] at hword

section
variable {n : Nat} {ws : List Word}

theorem deintGroup_interleaveGroup (hn : n ∣ 32) (hlen : ws.length = n) :
    deintGroup n (interleaveGroup n ws) = ws :=
  group_ext ((length_deintGroup n _).trans hlen.symm) fun c hc j hj => by
    rw [length_deintGroup] at hc
    rw [getLsbD_deintGroup _ hc hj, deintBit, interleaveGroup_sample hn ws hc hj]

theorem interleaveGroup_deintGroup (hn : n ∣ 32) (hlen : ws.length = n) :
    interleaveGroup n (deintGroup n ws) = ws :=
  group_ext ((length_interleaveGroup n _).trans hlen.symm) fun m hm b hb => by
    rw [length_interleaveGroup] at hm
    rw [getLsbD_interleaveGroup _ hm hb,
      getLsbD_deintGroup _ (Nat.mod_lt b (Nat.zero_lt_of_lt hm)) (bit_sample_lt hn hm hb),
      deintBit_of_raw hn ws hm hb]

end

/-- A group of one word is left as it is (40_deinterleave.md R145). -/
theorem deintGroup_one (w : Word) : deintGroup 1 [w] = [w] :=
  group_ext (length_deintGroup 1 [w]) fun c hc j hj => by
    rw [length_deintGroup] at hc
    obtain rfl : c = 0 := by omega
    rw [getLsbD_deintGroup _ hc hj]
    simp [deintBit, instantsPerWord, Nat.mod_eq_of_lt hj]

/-- Settles O27: the two compositions bit by bit, each bit followed to its place and back. -/
theorem deinterleaveRoundTrip : Obligations.DeinterleaveRoundTrip := by
  refine ⟨fun n hn ws hlen => ?_, deintGroup_one⟩
  have hdvd : n ∣ 32 := by
    have hall : ∀ k ∈ [1, 2, 4, 8, 16], k ∣ 32 := by decide
    exact hall n hn
  exact ⟨deintGroup_interleaveGroup hdvd hlen, interleaveGroup_deintGroup hdvd hlen,
    fun c hc j hj => interleaveGroup_sample hdvd ws hc hj⟩

/-! ### The network (40_deinterleave.md R144) -/

section
variable {n x : Nat}

/-- One unshuffle rotates the address right by one place. -/
theorem unshuffleTo_eq (hx : x < 2 ^ (n + 5)) : unshuffleTo n x = x % 2 * 2 ^ (n + 4) + x / 2 := by
  have hhalf : x / 2 < 2 ^ (n + 4) := Nat.div_lt_of_lt_mul (by rwa [← Nat.pow_succ'])
  rw [unshuffleTo, Nat.shiftRight_eq_div_pow, Nat.and_one_is_mod, Nat.shiftLeft_eq, Nat.pow_one, Nat.or_comm,
    Nat.mul_comm, ← Nat.two_pow_add_eq_or_of_lt hhalf]

/-- Unshuffles one after another rotate the address right by as many places: its low bits become the high
ones. -/
theorem unshuffles_eq (hx : x < 2 ^ (n + 5)) (k p : Nat) (hkp : k + p = n + 5) :
    (List.range k).foldl (fun y _ => unshuffleTo n y) x = x % 2 ^ k * 2 ^ p + x / 2 ^ k := by
  induction k generalizing p with
  | zero => simp [Nat.mod_one]
  | succ k ih =>
    have hquot : x / 2 ^ k < 2 ^ (p + 1) :=
      Nat.div_lt_of_lt_mul (by rwa [← Nat.pow_add, show k + (p + 1) = n + 5 by omega])
    have hrot : x % 2 ^ k * 2 ^ (p + 1) + x / 2 ^ k < 2 ^ (n + 5) := by
      rw [show n + 5 = k + (p + 1) by omega, Nat.pow_add 2 k]
      exact row_index_lt (Nat.mod_lt x (Nat.two_pow_pos k)) hquot
    have heven : x % 2 ^ k * 2 ^ (p + 1) = 2 * (x % 2 ^ k * 2 ^ p) := by ring
    rw [List.range_succ, List.foldl_append, ih (p + 1) (by omega), List.foldl_cons, List.foldl_nil,
      unshuffleTo_eq hrot, heven, Nat.mul_add_mod, Nat.mul_add_div Nat.two_pos, Nat.mod_pow_succ,
      show n + 4 = k + p by omega, Nat.pow_add, Nat.pow_succ, Nat.div_div_eq_div_mul]
    ring

/-- Where the network moves bit `x mod 32` of word `x div 32`: to the word of its channel and the bit of its
instant. -/
theorem networkTo_eq (hn : n ≤ 5) :
    networkTo n x = x % 32 % 2 ^ n * 32 +
      ((2 ^ n - 1 - x / 32) * instantsPerWord (2 ^ n) + x % 32 / 2 ^ n) := by
  have hdvd : 2 ^ n ∣ 32 := pow_dvd_pow 2 hn
  have hpos : 0 < 2 ^ n := Nat.two_pow_pos n
  have hvec : (2 ^ n - 1 - x / 32) * 32 + x % 32 < 2 ^ (n + 5) := by
    rw [Nat.pow_add]
    exact row_index_lt (reversed_lt hpos _) (Nat.mod_lt x (by decide))
  have hwords : (2 ^ n - 1 - x / 32) * 32 = 2 ^ n * ((2 ^ n - 1 - x / 32) * instantsPerWord (2 ^ n)) := by
    rw [Nat.mul_left_comm, Nat.mul_comm (2 ^ n) (instantsPerWord _), instantsPerWord_mul hdvd]
  rw [networkTo, unshuffles_eq hvec n 5 rfl, hwords, Nat.mul_add_mod, Nat.mul_add_div hpos]
  rfl

end

/-- Settles O28: the network's address of a bit is the word of its channel and the bit of its instant. -/
theorem deinterleaveIsTheNetwork : Obligations.DeinterleaveIsTheNetwork := by
  intro n hn ws _ x hx
  have hdvd : 2 ^ n ∣ 32 := pow_dvd_pow 2 (Nat.le_of_lt hn)
  have hchannel : x % 32 % 2 ^ n < 2 ^ n := Nat.mod_lt _ (Nat.two_pow_pos n)
  have hword : x / 32 < 2 ^ n := Nat.div_lt_of_lt_mul hx
  have hbit : x % 32 < 32 := Nat.mod_lt x (by decide)
  have hsample := bit_sample_lt hdvd hword hbit
  rw [networkTo_eq (Nat.le_of_lt hn), row_index_div _ hsample, Nat.mul_add_mod_of_lt hsample,
    getLsbD_deintGroup ws hchannel hsample]
  exact ⟨(row_index_lt hchannel hsample).trans_eq (Nat.mul_comm _ _), deintBit_of_raw hdvd ws hword hbit⟩

/-! ### DEINT and CHSEL on the draining half (40_deinterleave.md R141, R150) -/

section
variable {s : State}

theorem execDeint_of_half {m : Memory} (hat : s.at .deint = true)
    (hm : deintHalf s.cfg.N_IN s.cfg.D2 s.buf[s.cur] = .ok m) :
    execDeint s = .next { s with buf := s.buf.set s.cur m, cseq := .chsel } := by
  simp only [execDeint, hat, hm, if_true]

theorem execChsel_of_block {m : Memory} (hat : s.at .chsel = true)
    (hm : selectBlock s.cfg s.buf[s.cur] s.ob = .ok m) :
    execChsel s = .next { s with ob := m, own := s.own.set s.cur .producer, cseq := .fir } := by
  simp only [execChsel, hat, hm, if_true]

end

/-- The word of a mapped channel lies in its group, inside the block. -/
theorem LegalCfg.mapped_lt {g : CfgRegs} (h : LegalCfg g) {c : Fin 16} (hc : c.val < g.N_OUT) {k : Nat}
    (hk : k < g.D2) : k * g.N_IN + g.chmap[c].toNat < g.BW := by
  rw [CfgRegs.BW, Nat.mul_comm g.N_IN]
  exact row_index_lt hk (h.chmap c hc)

/-- Settles O26: the half's loop over its groups, and the bits of the words of one group. -/
theorem deinterleaveHalf : Obligations.DeinterleaveHalf := by
  intro s hq hf hl hw
  have hsize : s.cfg.D2 * s.cfg.N_IN = s.cfg.BW := Nat.mul_comm _ _
  obtain ⟨m, hm, hbeyond, hgroups⟩ := deintHalf_spec (n := s.cfg.N_IN) (groups := s.cfg.D2)
    (m := s.buf[s.cur]) (hsize ▸ hl.sizes.1.2) (hsize ▸ hw)
  have hcur : (s.buf.set s.cur m)[s.cur] = m := by rw [getElem_set_fin, if_pos rfl]
  refine ⟨_, execDeint_of_half (at_iff.2 ⟨hq, hf⟩) hm, rfl, fun h hne => getElem_set_fin_ne _ _ hne,
    fun i hi => ?beyond, fun g hg c hc => ?group⟩
  case beyond => exact (congrArg (Memory.read · i) hcur).trans (hbeyond i (hsize ▸ hi))
  case group =>
    obtain ⟨ws, hlen, hraw, hout⟩ := hgroups g hg
    refine ⟨_, (congrArg (Memory.read · _) hcur).trans (hout c hc), fun j hj => ?_⟩
    have hidx : s.cfg.N_IN - 1 - j / (32 / s.cfg.N_IN) < ws.length := by
      rw [hlen]
      exact reversed_lt (Nat.zero_lt_of_lt hc) _
    refine ⟨_, hraw _ hidx, ?_⟩
    rw [getLsbD_deintGroup ws hc hj, deintBit, instantsPerWord, List.getD_eq_getElem _ _ hidx]

/-- Settles O29: the loop over the mapped channels, and the guard. -/
theorem channelSelection : Obligations.ChannelSelection := by
  refine ⟨by decide, fun s hs => ?closed, fun s hq hf hl hw => ?selected⟩
  case closed => exact execChsel_of_not_at (Bool.eq_false_iff.2 (mt at_iff.1 hs))
  case selected =>
    obtain ⟨-, hout, hob⟩ := hl.channels
    obtain ⟨m, hm, hsel, hbeyond⟩ := selectBlock_spec (half := s.buf[s.cur]) (ob := s.ob) hout hob
      fun c hc k hk => ⟨(hl.mapped_lt hc hk).trans_le hl.sizes.1.2, hw _ (hl.mapped_lt hc hk)⟩
    have hgiven : (s.own.set s.cur .producer)[s.cur] = .producer := by rw [getElem_set_fin, if_pos rfl]
    exact ⟨_, execChsel_of_block (at_iff.2 ⟨hq, hf⟩) hm, rfl, hgiven,
      fun h hne => getElem_set_fin_ne _ _ hne, hsel, hbeyond⟩

end Sys2Proof.Machine

/-! Statements of the family 41_stage1.md: the Stage-1 sum, S1STEP, and FIRBLK, which runs Stage 1 over the channels
of a block. -/

namespace Sys2Proof.Machine

variable {s : State}

/-! ### The Stage-1 sum (41_stage1.md R161, R163 to R165) -/

theorem s1Dot_eq_sum (h : Vector Word 8) (coef : Nat → Int) :
    s1Dot h coef = ∑ a ∈ Finset.range 256, pm (histBit h a) * coef a := sumTo_eq_sum _ _

/-- A PDM bit and its complement are opposite samples (R161). -/
theorem pm_not (b : Bool) : pm (!b) = -pm b := by cases b <;> rfl

theorem pm_mul (b : Bool) (z : Int) : pm b * z = z - 2 * if b then z else 0 := by
  cases b with
  | true => rw [pm, if_pos rfl, if_pos rfl]; omega
  | false => simp [pm]

theorem abs_pm_mul (b : Bool) (z : Int) : |pm b * z| = |z| := by cases b <;> simp [pm]

/-- The complement of a history has the complement of each of its 256 samples. -/
theorem histBit_complement (h : Vector Word 8) {a : Nat} (ha : a < 256) :
    histBit (Vector.ofFn fun i : Fin 8 => ~~~h[i]) a = !histBit h a := by
  have hword : a / 32 < 8 := by omega
  have hbit : 31 - a % 32 < 32 := by omega
  simp [histBit, hword, hbit]

/-- With 16-bit coefficients each of the 256 products is at most 2^15 in size. -/
theorem abs_s1Dot_le (h : Vector Word 8) {coef : Nat → Int} (hc : ∀ a, -32768 ≤ coef a ∧ coef a ≤ 32767) :
    |s1Dot h coef| ≤ 8388608 := by
  have hterm : ∀ a ∈ Finset.range 256, |pm (histBit h a) * coef a| ≤ 32768 := fun a _ => by
    rw [abs_pm_mul, abs_le]
    have := hc a
    omega
  calc |s1Dot h coef| ≤ ∑ a ∈ Finset.range 256, |pm (histBit h a) * coef a| :=
        s1Dot_eq_sum h coef ▸ Finset.abs_sum_le_sum_abs _ _
    _ ≤ ∑ _a ∈ Finset.range 256, (32768 : Int) := Finset.sum_le_sum hterm
    _ = 8388608 := by simp

/-- Settles O31: every sample of the sum changes its sign. -/
theorem stageOneOddSymmetry : Obligations.StageOneOddSymmetry := by
  intro h coef
  rw [s1Dot_eq_sum, s1Dot_eq_sum, ← Finset.sum_neg_distrib]
  refine Finset.sum_congr rfl fun a ha => ?_
  rw [histBit_complement h (Finset.mem_range.1 ha), pm_not, neg_mul]

/-- Settles O32: a 1 bit takes its coefficient away twice from the sum of all; 256 products of 16 bits fit. -/
theorem stageOneRange : Obligations.StageOneRange := by
  intro h coef hc
  obtain ⟨hlo, hhi⟩ := abs_le.1 (abs_s1Dot_le h hc)
  refine ⟨?_, hlo, hhi, toInt_ofInt_32 (by omega) (by omega)⟩
  rw [s1Dot_eq_sum, Finset.sum_filter, Finset.mul_sum, ← Finset.sum_sub_distrib]
  exact Finset.sum_congr rfl fun a _ => pm_mul _ _

/-! ### S1STEP (41_stage1.md R162, 60_exceptions.md R330) -/

section
variable {c : Fin 16} {w : Word}

theorem execS1step_of_step (hu : s.unitEnabled = true) {h : Vector Word 8} {y : Word}
    (hs : s1Step s.coef1 w s.ch[c].h1 = .ok (h, y)) :
    execS1step (BitVec.ofNat 8 c) w s = .next { s with
      ch := s.ch.set c { s.ch[c] with h1 := h }, returned := s.returned ++ [.sample (some y)] } := by
  simp only [execS1step, channelOf_ofNat, hu, hs, if_true]
  rfl

theorem execS1step_of_fault (hu : s.unitEnabled = true) {e : Fault}
    (hs : s1Step s.coef1 w s.ch[c].h1 = .error e) : execS1step (BitVec.ofNat 8 c) w s = .fault e := by
  simp only [execS1step, channelOf_ofNat, hu, hs, if_true]

theorem legalChannel_ofNat (c : Fin 16) : legalChannel (BitVec.ofNat 8 c) = true := by
  rw [← channelOf_isSome, channelOf_ofNat, Option.isSome_some]

end

/-- Settles O30: the step of the channel's history, the coefficient not written, and the guard. -/
theorem stageOneStep : Obligations.StageOneStep := by
  refine ⟨by decide, fun c w s =>
    ⟨fun hen => ⟨fun hw => ?stepped, fun hw => ?unwritten⟩, fun hdis => ?disabled⟩⟩
  case stepped =>
    obtain ⟨y, hstep, hy⟩ := s1Step_ok hw w s.ch[c].h1
    exact ⟨_, y, execS1step_of_step (unitEnabled_iff.2 hen) hstep, pushHist_zero _ _, pushHist_pos _ _, hy⟩
  case unwritten => exact execS1step_of_fault (unitEnabled_iff.2 hen) (s1Step_error hw _ _)
  case disabled =>
    exact execS1step_of_disabled w (legalChannel_ofNat c) (Bool.eq_false_iff.2 (mt unitEnabled_iff.1 hdis))

/-! ### FIRBLK with the coefficients written (46_control_sequencer.md R300) -/

/-- A channel below `n + 1` is one below `n`, or channel `n`. -/
theorem exists_channel_lt_succ {P : Fin 16 → Prop} (c : Fin 16) :
    (∃ d : Fin 16, d.val < c.val + 1 ∧ P d) ↔ (∃ d : Fin 16, d.val < c.val ∧ P d) ∨ P c := by
  constructor
  · rintro ⟨d, hd, hP⟩
    rcases Nat.lt_succ_iff_lt_or_eq.1 hd with hlt | heq
    · exact .inl ⟨d, hlt, hP⟩
    · exact .inr (Fin.ext heq ▸ hP)
  · rintro (⟨d, hd, hP⟩ | hP)
    · exact ⟨d, Nat.lt_succ_of_lt hd, hP⟩
    · exact ⟨c, Nat.lt_succ_self _, hP⟩

theorem update_of_lt {k : Fin 16 → Bool} {c d : Fin 16} (x : Bool) (hd : d.val < c.val) :
    Function.update k c x d = k d := Function.update_of_ne (Fin.ne_of_lt hd) _ _

/-- Whether one of the first channels was clamped, once channel `c` is known. -/
theorem exists_clamped_update (k : Fin 16 → Bool) (c : Fin 16) (x : Bool) :
    (∃ d : Fin 16, d.val < c.val + 1 ∧ Function.update k c x d = true) ↔
      (∃ d : Fin 16, d.val < c.val ∧ k d = true) ∨ x = true := by
  rw [exists_channel_lt_succ, Function.update_self]
  refine or_congr_left (exists_congr fun d => and_congr_right fun hd => ?_)
  rw [update_of_lt x hd]

/-- FIRBLK yields a sample for channel `c`: with two stages always, with three when Stage 3 is due (R300). -/
def SampleDue (s : State) (c : Fin 16) : Prop :=
  s.cfg.nStages.toNat = 2 ∨ s.ch[c].st3.ph.toNat + 1 = s.cfg.D3

theorem flag_withChannels (s : State) (v : Vector Channel 16) (f : Flag) :
    ({ s with ch := v } : State).flag f = s.flag f := rfl

/-- The filtering of a channel depends on that channel and on what FIRBLK leaves alone. -/
theorem ChannelFiltered.of_frame {u : State} (hf : BlockFrame s u) {c : Fin 16} (hc : u.ch[c] = s.ch[c])
    {ch' : Channel} {k2 k3 : Bool} (h : ChannelFiltered u c ch' k2 k3) : ChannelFiltered s c ch' k2 k3 := by
  obtain ⟨hist, st, out, sat, y2, hpass, hrest⟩ := h
  obtain ⟨hstart, hpass⟩ := hpass
  rw [hc] at hstart hrest
  rw [hf.1] at hpass hrest
  exact ⟨hist, st, out, sat, y2, ⟨hstart, hpass⟩, hrest⟩

/-- What the loops of FIRBLK need survives the channels already filtered. -/
theorem BlockReady.of_frame {u : State} (h : BlockReady s) (hf : BlockFrame s u)
    (hp : PhasesInRange s.cfg u.ch) : BlockReady u := by
  obtain ⟨hl, hob, hco, -, -⟩ := h
  rw [hf.1]
  exact ⟨hl, hob, hco, hp.1, hp.2⟩

/-- FIRBLK from `s` once the first `n` channels are done, with what was clamped in each. -/
structure FilteredUpTo (s : State) (n : Nat) (clamped2 clamped3 : Fin 16 → Bool) (b : BlockOut) : Prop where
  frame : BlockFrame s b.st
  phases : PhasesInRange s.cfg b.st.ch
  later : ∀ c : Fin 16, n ≤ c.val → b.st.ch[c] = s.ch[c]
  filtered : ∀ c : Fin 16, c.val < n → ChannelFiltered s c b.st.ch[c] (clamped2 c) (clamped3 c)
  s2sat : b.st.flag .s2sat = true ↔ s.flag .s2sat = true ∨ ∃ c : Fin 16, c.val < n ∧ clamped2 c = true
  s3sat : b.st.flag .s3sat = true ↔ s.flag .s3sat = true ∨ ∃ c : Fin 16, c.val < n ∧ clamped3 c = true
  valid : b.valid = true ↔ ∃ c : Fin 16, c.val < n ∧ SampleDue s c

theorem BlockReady.filteredUpTo_zero (h : BlockReady s) (clamped2 clamped3 : Fin 16 → Bool) :
    FilteredUpTo s 0 clamped2 clamped3 { st := s, valid := false } where
  frame := BlockFrame.refl s
  phases := ⟨h.ph2, h.ph3⟩
  later _ _ := rfl
  filtered _ hc := absurd hc (Nat.not_lt_zero _)
  s2sat := by simp
  s3sat := by simp
  valid := by simp

/-- FIRBLK on channel `c`, the channels before it done: the channel is filtered as from `s`, and what is known of the
others stays. -/
theorem FilteredUpTo.next (h : BlockReady s) {c : Fin 16} (hc : c.val < s.cfg.N_OUT)
    {clamped2 clamped3 : Fin 16 → Bool} {b : BlockOut} (hb : FilteredUpTo s c clamped2 clamped3 b) :
    ∃ (b' : BlockOut) (k2 k3 : Bool), blockChannel c b = .ok b' ∧
      FilteredUpTo s (c + 1) (Function.update clamped2 c k2) (Function.update clamped3 c k3) b' := by
  have hcfg : b.st.cfg = s.cfg := by rw [hb.frame.1]
  have hch := hb.later c le_rfl
  obtain ⟨ch', k2, k3, hrun, hfil⟩ :=
    blockChannel_ok (h.of_frame hb.frame hb.phases) (hcfg ▸ hc) b.valid
  refine ⟨_, k2, k3, hrun, ?_⟩
  exact {
    frame := blockChannel_frame hb.frame hrun
    phases := hcfg ▸ phases_blockChannel hrun (hcfg.symm ▸ hb.phases)
    later := fun d hd => by
      have hne : d ≠ c := fun e => by subst e; omega
      exact (getElem_set_fin_ne b.st.ch ch' hne).trans (hb.later d (by omega))
    filtered := fun d hd => by
      show ChannelFiltered s d (b.st.ch.set c ch')[d] _ _
      rcases Nat.lt_succ_iff_lt_or_eq.1 hd with hlt | heq
      · rw [getElem_set_fin_ne b.st.ch ch' (Fin.ne_of_lt hlt), update_of_lt k2 hlt, update_of_lt k3 hlt]
        exact hb.filtered d hlt
      · obtain rfl := Fin.ext heq
        rw [getElem_set_fin, if_pos rfl, Function.update_self, Function.update_self]
        exact hfil.of_frame hb.frame hch
    s2sat := by
      rw [exists_clamped_update, ← or_assoc, ← hb.s2sat]
      simp [flag_withChannels]
    s3sat := by
      rw [exists_clamped_update, ← or_assoc, ← hb.s3sat]
      simp [flag_withChannels]
    valid := by
      simp only [Bool.or_eq_true, beq_iff_eq, hb.valid, exists_channel_lt_succ, or_assoc, SampleDue, hcfg, hch] }

/-- The loop of FIRBLK over its channels. -/
theorem BlockReady.filtered (h : BlockReady s) : ∃ (b : BlockOut) (clamped2 clamped3 : Fin 16 → Bool),
    forRange s.cfg.N_OUT blockChannel { st := s, valid := false } = .ok b ∧
    FilteredUpTo s s.cfg.N_OUT clamped2 clamped3 b := by
  obtain ⟨b, hb, clamped2, clamped3, hf⟩ := forRange_ok_of
    (fun n b => ∃ clamped2 clamped3, FilteredUpTo s n clamped2 clamped3 b) s.cfg.N_OUT
    ⟨_, _, h.filteredUpTo_zero (fun _ => false) (fun _ => false)⟩ fun n b hn ⟨_, _, hb⟩ => by
      have hn16 : n < 16 := hn.trans_le h.bounds.2.1
      obtain ⟨b', k2, k3, hrun, hb'⟩ := hb.next h (c := ⟨n, hn16⟩) hn
      exact ⟨b', hrun, _, _, hb'⟩
  exact ⟨b, clamped2, clamped3, hb, hf⟩

/-- FIRBLK whose channels go on: the channels, the flags and the local `v` are the loop's. -/
theorem execFirblk_of_loop (hat : s.at .fir = true) {b : BlockOut}
    (hb : forRange s.cfg.N_OUT blockChannel { st := s, valid := false } = .ok b) (hf : BlockFrame s b.st) :
    execFirblk s = .next { s with
      ch := b.st.ch, status := b.st.status, smpValid := b.valid,
      cseq := if b.valid then .dcoe else .req, freeTick := s.freeTick + 1 } := by
  simp only [execFirblk, hat, hb, if_true]
  rw [hf.1]

/-! ### FIRBLK with a coefficient not written (60_exceptions.md R330) -/

/-- The fault of the first pass is the fault of the loop. -/
theorem forRange_error_of_first {σ : Type} {f : Nat → σ → Except Fault σ} {n : Nat} {a : σ} {e : Fault}
    (hn : 0 < n) (h : f 0 a = .error e) : forRange n f a = .error e := by
  induction n with
  | zero => exact absurd hn (Nat.lt_irrefl 0)
  | succ n ih =>
    rcases Nat.eq_zero_or_pos n with rfl | hpos
    · exact h
    · simp only [forRange, ih hpos]

/-- A pass that goes on has read all its coefficients of Stage 1 and Stage 2. -/
theorem written_of_blockPass (ht : s.cfg.T2 ≤ 256) {c k : Nat} {a a' : BlockAcc}
    (h : blockPass s c k a = .ok a') : Written s.coef1 256 ∧ Written s.coef2 s.cfg.T2 := by
  unfold blockPass at h
  split at h
  · cases h
  · split at h
    · cases h
    · rename_i hs1
      split at h
      · cases h
      · rename_i hs2
        constructor
        · by_contra hw
          rw [s1Step_error hw] at hs1; cases hs1
        · by_contra hw
          rw [State.stage2, firStep_unwritten ht hw] at hs2; cases hs2

/-- With three stages, a channel that goes on has read all its coefficients of Stage 3. -/
theorem written_of_blockTail {b b' : BlockOut} {c : Fin 16} {ch : Channel} {y : Word}
    (hn : b.st.cfg.nStages.toNat = 3) (ht : b.st.cfg.T3 ≤ 256) (h : blockTail b c ch y = .ok b') :
    Written b.st.coef3 b.st.cfg.T3 := by
  unfold blockTail at h
  split at h
  · rename_i h2
    rw [beq_iff_eq.1 h2] at hn
    exact absurd hn (by decide)
  · by_contra hw
    rw [State.stage3, firStep_unwritten ht hw] at h
    cases h

/-- A channel that goes on has read every coefficient of a run. -/
theorem written_of_blockChannel {b b' : BlockOut} (hl : LegalCfg b.st.cfg) {c : Nat}
    (h : blockChannel c b = .ok b') : CoefficientsWritten b.st := by
  obtain ⟨-, -, hd, ht2, ht3⟩ := hl.stages
  have hpos : b.st.cfg.D2 ≠ 0 := fun h0 => by simp [h0] at hd
  obtain ⟨k, hk⟩ := Nat.exists_eq_succ_of_ne_zero hpos
  unfold blockChannel at h
  split at h
  · cases h
  · split at h
    · cases h
    · rename_i hloop
      rw [hk] at hloop
      obtain ⟨x, -, hlast⟩ := forRange_succ_eq_ok.1 hloop
      obtain ⟨h1, h2⟩ := written_of_blockPass ht2.2 hlast
      exact ⟨h1, h2, fun hn =>
        written_of_blockTail (b := { b with st := b.st.raiseFlag .s2sat _ }) hn (ht3 hn).2.2 h⟩

/-- FIRBLK over a written block stops at its first channel. -/
theorem execFirblk_of_unwritten (hat : s.at .fir = true) (hl : LegalCfg s.cfg) (hob : Written s.ob s.cfg.OBW)
    (hw : ¬ CoefficientsWritten s) : ∃ e, execFirblk s = .fault e ∧ CoefficientFault s e := by
  have hpos : 0 < s.cfg.N_OUT := hl.channels.1
  cases hfirst : blockChannel 0 { st := s, valid := false } with
  | ok b => exact absurd (written_of_blockChannel (b := { st := s, valid := false }) hl hfirst) hw
  | error e =>
    refine ⟨e, ?_, blockChannel_coefficientFault (b := { st := s, valid := false }) hl hob hpos hfirst⟩
    simp only [execFirblk, hat, forRange_error_of_first hpos hfirst, if_true]

/-- Settles O39: the loop over the channels, and its fault in the first of them. -/
theorem filterBlock : Obligations.FilterBlock := by
  refine ⟨by decide, fun s hq hf hl hob hph2 hph3 => ⟨fun hw => ?filtered, fun hw => ?unwritten⟩⟩
  case filtered =>
    have hready : BlockReady s := ⟨hl, hob, hw, hph2, hph3⟩
    obtain ⟨b, clamped2, clamped3, hloop, hb⟩ := hready.filtered
    obtain ⟨-, -, hmask⟩ := hb.frame
    refine ⟨_, clamped2, clamped3, execFirblk_of_loop (at_iff.2 ⟨hq, hf⟩) hloop hb.frame, rfl, hb.later,
      hb.filtered, hb.s2sat, hb.s3sat, hmask, fun h2 => ?_, fun h3 => ?_⟩
    · exact hb.valid.2 ⟨0, hready.bounds.1, .inl h2⟩
    · have hdue : ∀ c, SampleDue s c ↔ s.ch[c].st3.ph.toNat + 1 = s.cfg.D3 := fun c =>
        or_iff_right (by omega)
      simpa only [hdue] using hb.valid
  case unwritten =>
    obtain ⟨e, he, -, rfl | rfl | rfl⟩ := execFirblk_of_unwritten (at_iff.2 ⟨hq, hf⟩) hl hob hw
    all_goals exact ⟨_, by simp, he⟩

end Sys2Proof.Machine

/-! Statements of the family 42_stage23.md: the rounding shift, the polyphase schedule against the direct form, and
the unit operations S2STEP and S3STEP. -/

namespace Sys2Proof.Machine

variable {s : State}

/-! ### The output of a stage (42_stage23.md R181, R182) -/

theorem rshr_zero (z : Int) : rshr z 0 = z := if_pos rfl

theorem rshr_of_pos (z : Int) {n : Nat} (hn : 1 ≤ n) : rshr z n = (z + 2 ^ (n - 1)) / 2 ^ n :=
  if_neg (by omega)

theorem sat32_eq (z : Int) : sat32 z = max (-2147483648) (min 2147483647 z) := by norm_num [sat32]

/-- Settles O35: the quotient of an integer division by `2^n` is the floor; the examples are computed. -/
theorem roundingShift : Obligations.RoundingShift := by
  refine ⟨rshr_zero, fun z n hn _ => ?_, by decide⟩
  have hpow : (0 : Int) < 2 ^ n := by positivity
  rw [rshr_of_pos z hn]
  exact ⟨Int.ediv_mul_le _ hpow.ne', Int.lt_ediv_add_one_mul_self _ hpow⟩

/-! ### Samples age as inputs are pushed (42_stage23.md R178) -/

/-- `x'` is the history `x` after `n` pushes: each sample that is still among the taps is `n` older. -/
def AgedBy (taps n : Nat) (x x' : Vector Word 256) : Prop :=
  ∀ a, a + n < taps → sampleAt x' (a + n) = sampleAt x a

theorem AgedBy.refl (taps : Nat) (x : Vector Word 256) : AgedBy taps 0 x x := fun _ _ => rfl

theorem AgedBy.trans {taps n k : Nat} {x y z : Vector Word 256} (hxy : AgedBy taps n x y)
    (hyz : AgedBy taps k y z) : AgedBy taps (n + k) x z := fun a ha => by
  rw [← Nat.add_assoc, hyz (a + n) (by omega), hxy a (by omega)]

theorem FirStepped.agedBy_one {m : Memory} {p : FirParams} {w : Word} {f f' : FirState} {out : Option Word}
    {sat : Bool} (h : FirStepped m p w f f' out sat) (ht : p.taps ≤ 256) :
    AgedBy p.taps 1 f.x f'.x := fun a ha => by
  have hnext : a + 1 < 256 := by omega
  have hcur : a < 256 := by omega
  have hold := h.older ⟨a + 1, hnext⟩ (Nat.succ_pos a) ha
  simp only [Fin.getElem_fin, Nat.add_sub_cancel] at hold
  simp [sampleAt, hcur, hnext, hold]

/-! ### The branches of a history (42_stage23.md R179, R184) -/

/-- What the taps of branch `r` contribute to the direct form: those whose index leaves `r` modulo `D`. -/
def branchShare (m : Memory) (p : FirParams) (x : Vector Word 256) (r : Nat) : Int :=
  ∑ k ∈ (Finset.range p.taps).filter (fun k => k % p.dec = r), coefAt m k * sampleAt x k

/-- A branch summed `r` inputs before the output is that branch's share of the direct form at the output: the sample
of age `j*D` is then at age `r + j*D`. -/
theorem branchOver_eq_branchShare {m : Memory} {p : FirParams} {r : Nat} {x x' : Vector Word 256}
    (hr : r < p.dec) (ht : p.taps ≤ 256) (h : AgedBy p.taps r x x') :
    branchOver m p x r = branchShare m p x' r := by
  unfold branchOver branchShare
  refine Finset.sum_nbij' (fun j => r + j * p.dec) (fun k => k / p.dec) ?tap ?index ?left ?right ?term
  case tap =>
    intro j hj
    obtain ⟨-, hlt⟩ := Finset.mem_filter.1 hj
    refine Finset.mem_filter.2 ⟨Finset.mem_range.2 hlt, ?_⟩
    rw [Nat.add_mul_mod_self_right, Nat.mod_eq_of_lt hr]
  case index =>
    intro k hk
    obtain ⟨hlt, rfl⟩ := Finset.mem_filter.1 hk
    have hlt := Finset.mem_range.1 hlt
    have hdiv := Nat.div_le_self k p.dec
    refine Finset.mem_filter.2 ⟨Finset.mem_range.2 (by omega), ?_⟩
    rwa [Nat.mod_add_div']
  case left =>
    intro j _
    simp only [Nat.add_mul_div_right r j (by omega : 0 < p.dec), Nat.div_eq_of_lt hr, Nat.zero_add]
  case right =>
    intro k hk
    obtain ⟨-, rfl⟩ := Finset.mem_filter.1 hk
    exact Nat.mod_add_div' k p.dec
  case term =>
    intro j hj
    obtain ⟨-, hlt⟩ := Finset.mem_filter.1 hj
    rw [Nat.add_comm r, h (j * p.dec) (by omega)]

/-- Each tap belongs to exactly one branch. -/
theorem sum_branchShare (m : Memory) {p : FirParams} (hd : 0 < p.dec) (x : Vector Word 256) :
    ∑ r ∈ Finset.range p.dec, branchShare m p x r = directSum m p x :=
  Finset.sum_fiberwise_of_maps_to (fun k _ => Finset.mem_range.2 (Nat.mod_lt k hd)) _

/-! ### The accumulator (42_stage23.md R177, R181) -/

theorem abs_toInt_le (w : Word) : |w.toInt| ≤ 2147483648 := by
  have hlo := BitVec.le_toInt w
  have hhi := BitVec.toInt_lt (x := w)
  rw [abs_le]
  norm_num at hlo hhi
  omega

/-- The sum of at most 256 products of 32-bit words is at most 2^70 in size. -/
theorem abs_directSum_le (m : Memory) {p : FirParams} (ht : p.taps ≤ 256) (x : Vector Word 256) :
    |directSum m p x| ≤ 2 ^ 70 := by
  have hterm : ∀ k ∈ Finset.range p.taps, |coefAt m k * sampleAt x k| ≤ 2 ^ 62 := fun k _ => by
    rw [abs_mul]
    calc _ ≤ (2147483648 : Int) * 2147483648 :=
          mul_le_mul (abs_toInt_le _) (abs_toInt_le _) (abs_nonneg _) (by norm_num)
      _ = 2 ^ 62 := by norm_num
  calc |directSum m p x| ≤ ∑ k ∈ Finset.range p.taps, |coefAt m k * sampleAt x k| :=
        Finset.abs_sum_le_sum_abs _ _
    _ ≤ ∑ _k ∈ Finset.range p.taps, (2 ^ 62 : Int) := Finset.sum_le_sum hterm
    _ = p.taps * 2 ^ 62 := by simp
    _ ≤ 2 ^ 70 := by omega

/-- The 72-bit accumulator holds the direct-form sum exactly. -/
theorem toInt_ofInt_directSum (m : Memory) {p : FirParams} (ht : p.taps ≤ 256) (x : Vector Word 256) :
    (BitVec.ofInt 72 (directSum m p x)).toInt = directSum m p x := by
  obtain ⟨hlo, hhi⟩ := abs_le.1 (abs_directSum_le m ht x)
  rw [BitVec.toInt_ofInt]
  exact Int.bmod_eq_of_le (by norm_num at hlo ⊢; omega) (by norm_num at hhi ⊢; omega)

/-- The word a stage emits when the sum `z` has gone into its 72-bit accumulator. -/
def firOutput (p : FirParams) (z : Int) : Word := BitVec.ofInt 32 (sat32 (rshr (BitVec.ofInt 72 z).toInt p.shr))

/-- An accumulator that wrapped before a later addition gives the same output. -/
theorem firOutput_wrapped_add (p : FirParams) (a b : Int) :
    firOutput p ((BitVec.ofInt 72 a).toInt + b) = firOutput p (a + b) := by
  unfold firOutput
  rw [BitVec.ofInt_add, BitVec.ofInt_toInt, ← BitVec.ofInt_add]

theorem firOutput_directSum (m : Memory) {p : FirParams} (ht : p.taps ≤ 256) (x : Vector Word 256) :
    firOutput p (directSum m p x) = BitVec.ofInt 32 (sat32 (rshr (directSum m p x) p.shr)) := by
  rw [firOutput, toInt_ofInt_directSum m ht]

/-! ### The polyphase schedule (42_stage23.md R180, R183, R184) -/

section
variable {sp : Space} {m : Memory} {p : FirParams} {f : FirState}

theorem FirReady.taps_le (h : FirReady m p f) : p.taps ≤ 256 := by
  obtain ⟨-, -, ht, -, -⟩ := h
  exact ht

theorem FirReady.dec_pos (h : FirReady m p f) : 0 < p.dec := by
  obtain ⟨hd, -⟩ := h
  omega

/-- One step before the last phase: nothing is emitted, the branch of the phase is added, and the stage is ready for
the next input. -/
theorem firStep_between (x : Word) (hr : FirReady m p f) (hph : f.ph.toNat + 1 < p.dec) :
    ∃ g sat, firStep sp m p x f = .ok ⟨g, none, sat⟩ ∧ FirReady m p g ∧ AgedBy p.taps 1 f.x g.x ∧
      g.ph.toNat = f.ph.toNat + 1 ∧
      g.acc = BitVec.ofInt 72 (f.acc.toInt + branchOver m p g.x (p.dec - 1 - f.ph.toNat)) := by
  obtain ⟨⟨g, out, sat⟩, hstep, hs, hlt⟩ := firStep_ok (sp := sp) hr x
  obtain ⟨hd, ht1, ht, hw, -⟩ := hr
  obtain ⟨hacc, hph', rfl, -⟩ := hs.between hph
  exact ⟨g, sat, hstep, ⟨hd, ht1, ht, hw, hlt⟩, hs.agedBy_one ht, hph', hacc⟩

/-- The step of the last phase: the branch of tap 0 is added, the sum emitted, and the stage is at an output
boundary. -/
theorem firStep_last (x : Word) (hr : FirReady m p f) (hph : f.ph.toNat + 1 = p.dec) :
    ∃ g sat, firStep sp m p x f =
        .ok ⟨g, some (firOutput p (f.acc.toInt + branchOver m p g.x 0)), sat⟩ ∧
      AgedBy p.taps 1 f.x g.x ∧ g.acc = 0 ∧ g.ph = 0 := by
  obtain ⟨⟨g, out, sat⟩, hstep, hs, -⟩ := firStep_ok (sp := sp) hr x
  obtain ⟨hacc, hph', z, rfl, hout, -⟩ := hs.output hph
  refine ⟨g, sat, ?_, hs.agedBy_one hr.taps_le, hacc, hph'⟩
  dsimp only at hout
  rw [hstep, hout, firOutput, sat32_eq]

theorem firRun_cons_of_step {x : Word} {xs : List Word} {o : FirOut} {f' : FirState} {outs : List (Option Word)}
    (hstep : firStep sp m p x f = .ok o) (hrun : firRun sp m p xs o.st = .ok (f', outs)) :
    firRun sp m p (x :: xs) f = .ok (f', o.out :: outs) := by
  simp only [firRun, hstep, hrun]

/-- The inputs up to the next output, from any phase: the output takes what is accumulated already, and of the
branches still to come their share of the direct form. -/
theorem firRun_to_output (x : Word) (xs : List Word) (hr : FirReady m p f)
    (hlen : f.ph.toNat + (xs.length + 1) = p.dec) :
    ∃ f', firRun sp m p (x :: xs) f = .ok (f', List.replicate xs.length none ++
        [some (firOutput p (f.acc.toInt + ∑ r ∈ Finset.range (xs.length + 1), branchShare m p f'.x r))]) ∧
      AgedBy p.taps (xs.length + 1) f.x f'.x ∧ f'.acc = 0 ∧ f'.ph = 0 := by
  have ht := hr.taps_le
  induction xs generalizing x f with
  | nil =>
    obtain ⟨g, sat, hstep, haged, hacc, hph⟩ := firStep_last (sp := sp) x hr hlen
    refine ⟨g, (firRun_cons_of_step hstep rfl).trans ?_, haged, hacc, hph⟩
    rw [branchOver_eq_branchShare (by omega) ht (AgedBy.refl _ _)]
    simp
  | cons y ys ih =>
    rw [List.length_cons] at hlen ⊢
    obtain ⟨g, sat, hstep, hready, haged, hph, hacc⟩ := firStep_between (sp := sp) x hr (by omega)
    obtain ⟨f', hrun, haged', hacc', hph'⟩ := ih y hready (by omega)
    refine ⟨f', (firRun_cons_of_step hstep hrun).trans ?_,
      Nat.add_comm 1 _ ▸ haged.trans haged', hacc', hph'⟩
    have hphase : p.dec - 1 - f.ph.toNat = ys.length + 1 := by omega
    rw [hphase, branchOver_eq_branchShare (by omega) ht haged'] at hacc
    rw [hacc, firOutput_wrapped_add, add_assoc, add_comm (branchShare _ _ _ _), ← Finset.sum_range_succ,
      List.replicate_succ, List.cons_append]

end

/-- Settles O36: from phase 0 the branches of all `D` inputs are to come, and their shares make up the direct form,
which 72 bits hold. -/
theorem polyphaseEqualsDirectForm : Obligations.PolyphaseEqualsDirectForm := by
  intro sp m p f xs hr hacc hph hlen
  have ht := hr.taps_le
  have hpos := hr.dec_pos
  cases xs with
  | nil => exact absurd hlen hpos.ne
  | cons x xs =>
    rw [List.length_cons] at hlen
    obtain ⟨f', hrun, -, hacc', hph'⟩ := firRun_to_output (sp := sp) x xs hr (by simp [hph, hlen])
    refine ⟨f', hrun.trans ?_, hacc', hph'⟩
    have hempty : f.acc.toInt = 0 := by rw [hacc]; rfl
    rw [hempty, zero_add, hlen, sum_branchShare m hpos, firOutput_directSum m ht, ← hlen, Nat.add_sub_cancel]

/-! ### S2STEP and S3STEP (42_stage23.md R177, R186; 60_exceptions.md R330) -/

/-- S3STEP is enabled as the other unit operations are, and with three stages only (R186). -/
theorem stageThreeEnabled_iff : (s.unitEnabled && s.cfg.nStages == 3) = true ↔
    (s.rxState = .armed ∨ s.rxState = .running) ∧ s.fatal = false ∧ s.cfg.nStages.toNat = 3 := by
  rw [Bool.and_eq_true, unitEnabled_iff, beq_iff_eq, ← BitVec.toNat_inj, and_assoc]
  rfl

section
variable {c : Fin 16} {x : Word}

theorem execS2step_of_step (hu : s.unitEnabled = true) {o : FirOut} (hs : s.stage2 x s.ch[c].st2 = .ok o) :
    execS2step (BitVec.ofNat 8 c) x s = .next { s with
      ch := s.ch.set c { s.ch[c] with st2 := o.st },
      status := if o.sat then s.status ||| 0b00100#5 else s.status,
      returned := s.returned ++ [.sample o.out] } := by
  simp only [execS2step, channelOf_ofNat, hu, hs, if_true]
  rfl

theorem execS2step_of_fault (hu : s.unitEnabled = true) {e : Fault} (hs : s.stage2 x s.ch[c].st2 = .error e) :
    execS2step (BitVec.ofNat 8 c) x s = .fault e := by
  simp only [execS2step, channelOf_ofNat, hu, hs, if_true]

theorem execS3step_of_step (hu : (s.unitEnabled && s.cfg.nStages == 3) = true) {o : FirOut}
    (hs : s.stage3 x s.ch[c].st3 = .ok o) :
    execS3step (BitVec.ofNat 8 c) x s = .next { s with
      ch := s.ch.set c { s.ch[c] with st3 := o.st },
      status := if o.sat then s.status ||| 0b01000#5 else s.status,
      returned := s.returned ++ [.sample o.out] } := by
  simp only [execS3step, channelOf_ofNat, hu, hs, if_true]
  rfl

theorem execS3step_of_fault (hu : (s.unitEnabled && s.cfg.nStages == 3) = true) {e : Fault}
    (hs : s.stage3 x s.ch[c].st3 = .error e) : execS3step (BitVec.ofNat 8 c) x s = .fault e := by
  simp only [execS3step, channelOf_ofNat, hu, hs, if_true]

end

/-- Settles O33: the step of the channel's Stage 2, the coefficient not written, and the guard. -/
theorem stageTwoStep : Obligations.StageTwoStep := by
  refine fun c x s => ⟨fun hen => ⟨fun hr => ?stepped, fun ht hw => ?unwritten⟩, fun hdis => ?disabled⟩
  case stepped =>
    obtain ⟨o, hstep, hs, -⟩ := firStep_ok hr x
    exact ⟨o.st, o.out, o.sat, hs, execS2step_of_step (unitEnabled_iff.2 hen) hstep⟩
  case unwritten => exact execS2step_of_fault (unitEnabled_iff.2 hen) (firStep_unwritten ht hw _ _)
  case disabled =>
    exact execS2step_of_disabled x (legalChannel_ofNat c) (Bool.eq_false_iff.2 (mt unitEnabled_iff.1 hdis))

/-- Settles O34: the step of the channel's Stage 3, the coefficient not written, and the guard with three stages. -/
theorem stageThreeStep : Obligations.StageThreeStep := by
  refine fun c x s => ⟨fun hen => ⟨fun hr => ?stepped, fun ht hw => ?unwritten⟩, fun hdis => ?disabled⟩
  case stepped =>
    obtain ⟨o, hstep, hs, -⟩ := firStep_ok hr x
    exact ⟨o.st, o.out, o.sat, hs, execS3step_of_step (stageThreeEnabled_iff.2 hen) hstep⟩
  case unwritten => exact execS3step_of_fault (stageThreeEnabled_iff.2 hen) (firStep_unwritten ht hw _ _)
  case disabled =>
    exact execS3step_of_disabled x (legalChannel_ofNat c)
      (Bool.eq_false_iff.2 (mt stageThreeEnabled_iff.1 hdis))

end Sys2Proof.Machine

/-! Statements of the family 43_dcoe.md: DCOE on the column of channels, and one channel against the exact
recurrence. -/

namespace Sys2Proof.Machine

variable {s : State}

/-! ### The update of one channel (43_dcoe.md R197, R198, R199) -/

/-- An integer survives the 64-bit accumulator exactly when it lies in the signed range. -/
theorem toInt_ofInt_64_iff (z : Int) : (BitVec.ofInt 64 z).toInt = z ↔ -2 ^ 63 ≤ z ∧ z < 2 ^ 63 := by
  constructor
  · intro hz
    rw [← hz]
    exact ⟨BitVec.le_toInt _, BitVec.toInt_lt⟩
  · rintro ⟨hlo, hhi⟩
    rw [BitVec.toInt_ofInt]
    exact Int.bmod_eq_of_le (by norm_num at hlo ⊢; omega) (by norm_num at hhi ⊢; omega)

/-- The high word of an accumulator is its floor at 32 fraction bits. -/
theorem toInt_highWord (a : BitVec 64) : (a.extractLsb' 32 32).toInt = a.toInt / 2 ^ 32 := by
  have hlt := a.isLt
  simp only [BitVec.toInt_eq_toNat_cond, BitVec.extractLsb'_toNat, Nat.shiftRight_eq_div_pow]
  omega

theorem dcoeOverflows_eq_false_iff (ch : Channel) : dcoeOverflows ch = false ↔
    -2 ^ 63 ≤ dcoeSum ch.dcAcc ch.dcPrevX ch.smp ∧ dcoeSum ch.dcAcc ch.dcPrevX ch.smp < 2 ^ 63 := by
  rw [← toInt_ofInt_64_iff, dcoeOverflows, decide_eq_false_iff_not, not_not]

theorem dcoeOverflows_iff (ch : Channel) : dcoeOverflows ch = true ↔
    dcoeSum ch.dcAcc ch.dcPrevX ch.smp < -2 ^ 63 ∨ 2 ^ 63 ≤ dcoeSum ch.dcAcc ch.dcPrevX ch.smp := by
  rw [← Bool.not_eq_false, dcoeOverflows_eq_false_iff, not_and_or, not_le, not_lt]

theorem dcoeChannel_smp_toInt (ch : Channel) : (dcoeChannel ch).smp.toInt =
    (BitVec.ofInt 64 (dcoeSum ch.dcAcc ch.dcPrevX ch.smp)).toInt / 2 ^ 32 :=
  toInt_highWord _

/-- The update of a channel that does not overflow is exact. -/
theorem dcoeChannel_dcAcc_toInt {ch : Channel} (h : dcoeOverflows ch = false) :
    (dcoeChannel ch).dcAcc.toInt = dcoeSum ch.dcAcc ch.dcPrevX ch.smp :=
  (toInt_ofInt_64_iff _).2 ((dcoeOverflows_eq_false_iff ch).1 h)

/-! ### The column of processed channels (43_dcoe.md R197, R201) -/

section
variable {k : Nat} {chs : Vector Channel k} {c : Fin k} {n : Nat}

theorem dcoeColumn_of_lt (h : c.val < n) : (dcoeColumn n chs)[c] = dcoeChannel chs[c] := by
  simp only [dcoeColumn, Fin.getElem_fin, Vector.getElem_ofFn, h, if_true]

theorem dcoeColumn_of_le (h : n ≤ c.val) : (dcoeColumn n chs)[c] = chs[c] := by
  simp only [dcoeColumn, Fin.getElem_fin, Vector.getElem_ofFn, Nat.not_lt.2 h, if_false]

theorem dcoeColumnOverflows_iff (n : Nat) (chs : Vector Channel k) : dcoeColumnOverflows n chs = true ↔
    ∃ c : Fin k, c.val < n ∧ dcoeOverflows chs[c] = true := by
  simp only [dcoeColumnOverflows, List.any_eq_true, List.mem_finRange, true_and, Bool.and_eq_true,
    decide_eq_true_eq]

theorem dcoeColumnOverflows_eq_false (h : ∀ c : Fin k, c.val < n → dcoeOverflows chs[c] = false) :
    dcoeColumnOverflows n chs = false := by
  refine Bool.eq_false_iff.2 fun ho => ?_
  obtain ⟨c, hc, hov⟩ := (dcoeColumnOverflows_iff n chs).1 ho
  exact absurd ((h c hc).symm.trans hov) Bool.false_ne_true

end

/-! ### DCOE (43_dcoe.md R197, R198) -/

theorem execDcoe_of_bypass (hat : s.at .dcoe = true) (hen : s.cfg.dcoeEn = false) :
    execDcoe s = .next { s with cseq := .frmadd } := by
  simp only [execDcoe, hat, hen, Bool.false_eq_true, if_false, if_true]

theorem execDcoe_of_enabled (hat : s.at .dcoe = true) (hen : s.cfg.dcoeEn = true) :
    execDcoe s = .next { s.raiseFlag .dcovf (dcoeColumnOverflows s.cfg.N_OUT s.ch) with
      ch := dcoeColumn s.cfg.N_OUT s.ch, cseq := .frmadd } := by
  simp only [execDcoe, hat, hen, if_true]

/-- Settles O37: the guard, the bypass, and the filter on the channels below `N_OUT`, of which one that overflows
raises the flag. -/
theorem dcOffsetFilter : Obligations.DcOffsetFilter := by
  refine ⟨by decide, fun s hs => ?closed, fun s hq hf => ⟨fun hen => ?bypassed, fun hen => ?filtered⟩⟩
  case closed => exact execDcoe_of_not_at (Bool.eq_false_iff.2 (mt at_iff.1 hs))
  case bypassed => exact execDcoe_of_bypass (at_iff.2 ⟨hq, hf⟩) hen
  case filtered =>
    refine ⟨_, execDcoe_of_enabled (at_iff.2 ⟨hq, hf⟩) hen, rfl, fun c hc => dcoeColumn_of_le hc,
      fun c hc => ?channel, fun hfit => ?fits, fun ⟨c, hc, hout⟩ => ?overflows⟩
    case channel =>
      dsimp only
      rw [dcoeColumn_of_lt hc]
      exact ⟨rfl, dcoeChannel_smp_toInt _⟩
    case fits =>
      have hno : dcoeColumnOverflows s.cfg.N_OUT s.ch = false :=
        dcoeColumnOverflows_eq_false fun c hc => (dcoeOverflows_eq_false_iff _).2 (hfit c hc)
      simp only [State.raiseFlag_status, hno, Bool.false_eq_true, if_false]
    case overflows =>
      have hov : dcoeColumnOverflows s.cfg.N_OUT s.ch = true :=
        (dcoeColumnOverflows_iff _ _).2 ⟨c, hc, (dcoeOverflows_iff _).2 hout⟩
      simp only [State.raiseFlag_status, hov, if_true]
      rfl

/-! ### One channel against the exact recurrence (43_dcoe.md R195, R200) -/

/-- The accumulator, in units of the last fraction bit, is not above the exact value `y`, and less than 64 units
below it. -/
def DcoeTracks (acc : BitVec 64) (y : Rat) : Prop :=
  (acc.toInt : Rat) ≤ y * 2 ^ 32 ∧ y * 2 ^ 32 < acc.toInt + 64

/-- The product with the pole `252/256 = 63/64` is floored: the loss is less than one unit. -/
theorem dcoe_pole_floor (a : Int) : ((252 * a / 256 : Int) : Rat) ≤ 63 / 64 * a ∧
    63 / 64 * (a : Rat) < ((252 * a / 256 : Int) : Rat) + 1 := by
  have hlo : 256 * (252 * a / 256) ≤ 252 * a := by omega
  have hhi : 252 * a < 256 * (252 * a / 256) + 256 := by omega
  qify at hlo hhi
  constructor <;> linarith

theorem dcoeSum_cast (acc : BitVec 64) (prevX x : Word) : (dcoeSum acc prevX x : Rat) =
    ((252 * acc.toInt / 256 : Int) : Rat) + ((x.toInt : Rat) - prevX.toInt) * 2 ^ 32 := by
  unfold dcoeSum Config.dcoeNum Config.dcoeDen
  push_cast
  rfl

/-- An exact update keeps the bound: the pole shrinks the error of 64 units to 63, and the floor adds less than
one. -/
theorem DcoeTracks.update {ch : Channel} {y : Rat} (h : DcoeTracks ch.dcAcc y) (hfit : dcoeOverflows ch = false) :
    DcoeTracks (dcoeChannel ch).dcAcc (63 / 64 * y + ch.smp.toInt - ch.dcPrevX.toInt) := by
  obtain ⟨hle, hlt⟩ := h
  obtain ⟨hlo, hhi⟩ := dcoe_pole_floor ch.dcAcc.toInt
  rw [DcoeTracks, dcoeChannel_dcAcc_toInt hfit, dcoeSum_cast]
  constructor <;> linarith

/-- The previous input of the recurrence is the channel's `DC_PREVX`. -/
theorem dcoeAfter_dcPrevX (xs : List Word) :
    (dcoeReference (xs.map BitVec.toInt)).2 = (dcoeAfter xs).dcPrevX.toInt := by
  cases xs <;> rfl

theorem dcoeAfter_tracks (xs : List Word) (h : dcoeFits xs) :
    DcoeTracks (dcoeAfter xs).dcAcc (dcoeReference (xs.map BitVec.toInt)).1 := by
  induction xs with
  | nil =>
    have hzero : (dcoeAfter []).dcAcc.toInt = 0 := rfl
    norm_num [DcoeTracks, hzero, dcoeReference]
  | cons x past ih =>
    obtain ⟨hpast, hfit⟩ := h
    rw [List.map_cons, dcoeReference, dcoeAfter_dcPrevX]
    exact DcoeTracks.update (ch := { dcoeAfter past with smp := x }) (ih hpast) hfit

/-- Settles O38: the bound of `DcoeTracks`, divided by `2^32`. -/
theorem dcOffsetTracksTheRecurrence : Obligations.DcOffsetTracksTheRecurrence := by
  intro xs hfits
  obtain ⟨hle, hlt⟩ := dcoeAfter_tracks xs hfits
  constructor
  · rw [lt_div_iff₀ (by norm_num), sub_mul]
    linarith
  · rwa [div_le_iff₀ (by norm_num)]

end Sys2Proof.Machine

/-! Statements of the family 44_pdm_rx_credit_fifo.md: the words and blocks of the producer, the hand-off of a
block, the consumer's two FIFO operations, the producer's table, a shutdown from end to end, and the overrun flag
under the fatal drop policy. First one rule for each operation whose guard is open, then the statements. -/

namespace Sys2Proof.Machine

variable {s t : State}

/-! ### A word taken (44_pdm_rx_credit_fifo.md R212, R213, R215) -/

theorem handoffEnabled_iff :
    s.handoffEnabled = true ↔ s.hoPend = true ∧ s.fifo.length < 2 ∧ s.fatal = false := by
  simp [State.handoffEnabled, Config.fifoSlots, and_assoc]

theorem exitEnabled_iff : s.exitEnabled = true ↔ s.rxState = .shuttingDown ∧ s.fatal = false := by
  simp [State.exitEnabled]

theorem execPdmword_of_takesWord (w : Word) (h : TakesWord s) :
    execPdmword w s = .next (s.wordTaken w).advanceWord := by
  obtain ⟨hr, hp, hf, hsd, hw⟩ := h
  have hstore : s.storeWord w = .ok (s.wordTaken w) := storeWord_eq_ok.2 ⟨hw, rfl⟩
  simp [execPdmword, wordEnabled_iff.2 ⟨hr, hp, hf⟩, hsd, hstore]

theorem execPdmword_of_flagged (w : Word) (hen : s.wordEnabled = true) (hsd : s.rxSdFlag = true) :
    execPdmword w s = .next { s with rxState := .shuttingDown } := by
  simp [execPdmword, hen, hsd]

theorem statusAfterStore_eq (s : State) (w : Word) : statusAfterStore s = (s.wordTaken w).status := by
  have hown : (s.wordTaken w).status =
      if s.own[s.fillSel] != .producer then s.status ||| 0b00010#5 else s.status := rfl
  rw [hown, statusAfterStore]
  by_cases hp : s.own[s.fillSel] = .producer <;> simp [hp]

theorem wordStored_of_buf {w : Word} (h : t.buf = (s.wordTaken w).buf) : WordStored s w t := by
  have hbuf : t.buf = s.buf.set s.fillSel (s.buf[s.fillSel].write s.wrPos.toNat w) := h
  unfold WordStored
  rw [hbuf]
  refine ⟨fun i => ?_, fun k hk => getElem_set_fin_ne _ _ hk⟩
  rw [getElem_set_fin, if_pos rfl, Memory.read_write]

/-- Settles O17: above position 0 the store is followed by the count down alone. -/
theorem wordInsideABlock : Obligations.WordInsideABlock := by
  intro w s h hpos
  have hadv : (s.wordTaken w).advanceWord = { s.wordTaken w with wrPos := s.wrPos - 1 } := if_pos hpos
  refine ⟨_, (execPdmword_of_takesWord w h).trans (congrArg _ hadv), wordStored_of_buf rfl, ?_, ?_⟩
  · rw [statusAfterStore_eq s w]; rfl
  · have hone : (1#8).toNat ≤ s.wrPos.toNat := hpos
    exact BitVec.toNat_sub_of_le hone

/-- Settles O21: the flag is looked at before the word is stored. -/
theorem shutdownFlagSeenOnAWord : Obligations.ShutdownFlagSeenOnAWord :=
  fun w _ hr hp hf hsd => execPdmword_of_flagged w (wordEnabled_iff.2 ⟨hr, hp, hf⟩) hsd

/-! ### A block completed (44_pdm_rx_credit_fifo.md R214) -/

/-- The word at position 0 taken, the position reloaded and the halves swapped: the state in which the hand-off is
attempted. -/
def State.blockFilled (s : State) (w : Word) : State :=
  { s.wordTaken w with wrPos := BitVec.ofNat 8 (s.cfg.BW - 1), fillSel := 1 - s.fillSel }

theorem execPdmword_of_block (w : Word) (h : TakesWord s) (hz : s.wrPos = 0) :
    execPdmword w s = .next ((s.blockFilled w).handoffAttempt s.fillSel) := by
  have hpos : ¬ 0 < (s.wordTaken w).wrPos.toNat := by
    show ¬ 0 < s.wrPos.toNat
    simp [hz]
  rw [execPdmword_of_takesWord w h, State.advanceWord, if_neg hpos]
  rfl

/-- Whatever the hand-off of the completed block does, the word is stored, the position reloaded and the halves
swapped. -/
theorem block_completed (w : Word) (h : TakesWord s) (hz : s.wrPos = 0) (hbw : s.cfg.BW ≤ 96)
    (ht : (s.blockFilled w).handoffAttempt s.fillSel = t) :
    exec (.pdmword w) s = .next t ∧ WordStored s w t ∧ t.wrPos.toNat = s.cfg.BW - 1 ∧
      t.fillSel ≠ s.fillSel := by
  subst ht
  refine ⟨execPdmword_of_block w h hz, ?_⟩
  rw [handoffAttempt_frame]
  refine ⟨wordStored_of_buf rfl, ?_, other_half_ne s.fillSel⟩
  show (BitVec.ofNat 8 (s.cfg.BW - 1)).toNat = s.cfg.BW - 1
  rw [BitVec.toNat_ofNat]
  exact Nat.mod_eq_of_lt (by omega)

/-! ### The hand-off, mode by mode (44_pdm_rx_credit_fifo.md R218 to R221) -/

theorem handoffAttempt_of_credit {k : Half} (hm : s.cfg.threadMode = false) (hc : 0 < s.credit.toNat) :
    s.handoffAttempt k = { s.push k with credit := s.credit - 1 } := by
  simp [State.handoffAttempt, State.handoffIrq, hm, hc]

theorem handoffAttempt_of_count {k : Half} (hm : s.cfg.threadMode = false) (hc : s.credit = 0)
    (hd : s.cfg.countAndDrop = true) :
    s.handoffAttempt k = { s with dropCount := s.dropCount + 1 } := by
  simp [State.handoffAttempt, State.handoffIrq, hm, hc, hd]

theorem handoffAttempt_of_stop {k : Half} (hm : s.cfg.threadMode = false) (hc : s.credit = 0)
    (hd : s.cfg.countAndDrop = false) : s.handoffAttempt k = s.raiseFatal .droppedBlock := by
  simp [State.handoffAttempt, State.handoffIrq, hm, hc, hd]

theorem handoffAttempt_of_room {k : Half} (hm : s.cfg.threadMode = true) (hl : s.fifo.length < 2) :
    s.handoffAttempt k = s.push k := by
  simp [State.handoffAttempt, State.handoffThread, Config.fifoSlots, hm, hl]

theorem handoffAttempt_of_full {k : Half} (hm : s.cfg.threadMode = true) (hl : 2 ≤ s.fifo.length) :
    s.handoffAttempt k = { s with hoPend := true, hoHalf := k } := by
  simp [State.handoffAttempt, State.handoffThread, Config.fifoSlots, hm, Nat.not_lt.2 hl]

/-- The first fatal stop records its cause (60_exceptions.md R322). -/
theorem raiseFatal_of_not_fatal (hf : s.fatal = false) (c : Cause) :
    s.raiseFatal c = { s with status := s.status ||| 1#5, fatalCause := c.code } := by
  simp [State.raiseFatal, hf, State.raiseFlag, Flag.bit]

/-- The tags after one half is given the tag `o`. -/
theorem own_set (own : Vector Owner 2) (k : Half) (o : Owner) :
    (own.set k o)[k] = o ∧ ∀ h : Half, h ≠ k → (own.set k o)[h] = own[h] :=
  ⟨by rw [getElem_set_fin, if_pos rfl], fun _ hne => getElem_set_fin_ne _ _ hne⟩

/-- Settles O18: the hand-off that finds a credit. -/
theorem blockHandedOffWithCredit : Obligations.BlockHandedOffWithCredit := by
  intro w s h hz _ hbw hm hc
  obtain ⟨he, hstored, hpos, hsel⟩ := block_completed w h hz hbw (handoffAttempt_of_credit hm hc)
  refine ⟨_, he, hstored, ?_, hpos, hsel, ?_, own_set s.own s.fillSel .queued⟩
  · rw [statusAfterStore_eq s w]; rfl
  · have hone : (1#2).toNat ≤ s.credit.toNat := hc
    exact BitVec.toNat_sub_of_le hone

/-- Settles O19: the hand-off without a credit, policy by policy. -/
theorem blockDroppedWithoutCredit : Obligations.BlockDroppedWithoutCredit := by
  intro w s h hz _ hbw hm hc
  cases hd : s.cfg.countAndDrop with
  | true =>
    obtain ⟨he, hstored, hpos, hsel⟩ := block_completed w h hz hbw (handoffAttempt_of_count hm hc hd)
    refine ⟨_, he, hstored, hpos, hsel, fun _ => ?_, nofun⟩
    rw [statusAfterStore_eq s w]; rfl
  | false =>
    have hfatal : (s.blockFilled w).fatal = false := (fatal_wordTaken s w).trans h.2.2.1
    obtain ⟨he, hstored, hpos, hsel⟩ := block_completed w h hz hbw
      ((handoffAttempt_of_stop (s := s.blockFilled w) hm hc hd).trans (raiseFatal_of_not_fatal hfatal .droppedBlock))
    refine ⟨_, he, hstored, hpos, hsel, nofun, fun _ => ?_⟩
    rw [statusAfterStore_eq s w]; rfl

/-- Settles O20: the hand-off in thread-driven mode, by the room in the FIFO. -/
theorem threadModeHandOff : Obligations.ThreadModeHandOff := by
  intro w s h hz _ hbw hm
  rcases Nat.lt_or_ge s.fifo.length 2 with hl | hl
  · obtain ⟨he, hstored, hpos, hsel⟩ := block_completed w h hz hbw (handoffAttempt_of_room hm hl)
    refine ⟨_, he, hstored, hpos, hsel, fun _ => ⟨?_, own_set s.own s.fillSel .queued⟩,
      fun hfull => absurd hl (Nat.not_lt.2 hfull)⟩
    rw [statusAfterStore_eq s w]; rfl
  · obtain ⟨he, hstored, hpos, hsel⟩ := block_completed w h hz hbw (handoffAttempt_of_full hm hl)
    refine ⟨_, he, hstored, hpos, hsel, fun hroom => absurd hroom (Nat.not_lt.2 hl), fun _ => ?_⟩
    rw [statusAfterStore_eq s w]; rfl

/-! ### HANDOFF, RXEXIT, BLKREQ and BLKPOP (44_pdm_rx_credit_fifo.md R221, R224, R226, R228) -/

theorem execHandoff_of_enabled (h : s.handoffEnabled = true) :
    execHandoff s = .next { s.push s.hoHalf with hoPend := false } := by simp [execHandoff, h]

theorem execRxexit_of_enabled (h : s.exitEnabled = true) :
    execRxexit s = .next { s with rxState := .stopped } := by simp [execRxexit, h]

theorem execBlkreq_of_at (h : s.at .req = true) : execBlkreq s =
    .next { s with credit := if s.cfg.threadMode then s.credit else 1, cseq := .wait } := by
  simp [execBlkreq, h, Config.creditGrant]

theorem execBlkpop_of_queued (h : s.at .wait = true) {k : Half} {rest : List Half} (hk : s.fifo = k :: rest) :
    execBlkpop s = .next { s with cur := k, fifo := rest, own := s.own.set k .consumer, cseq := .deint } := by
  simp [execBlkpop, h, hk]

/-- Settles O22: the pending half is queued as soon as there is room. -/
theorem pendingHandOffCompletes : Obligations.PendingHandOffCompletes := by
  refine ⟨by decide, fun s => ⟨fun h => ?_, fun h => ?_⟩⟩
  · exact ⟨_, execHandoff_of_enabled (handoffEnabled_iff.2 h), rfl, own_set s.own s.hoHalf .queued⟩
  · exact execHandoff_of_disabled (Bool.eq_false_iff.2 (mt handoffEnabled_iff.1 h))

/-- Settles O23: RXEXIT with its guard open, and closed. -/
theorem producerExit : Obligations.ProducerExit :=
  ⟨by decide, fun _ => ⟨fun h => execRxexit_of_enabled (exitEnabled_iff.2 h), fun h =>
    execRxexit_of_disabled (Bool.eq_false_iff.2 (mt exitEnabled_iff.1 h))⟩⟩

/-- Settles O24: the mode decides whether the credit is granted. -/
theorem blockRequest : Obligations.BlockRequest := by
  refine ⟨by decide, fun s => ⟨fun h => ?_, fun h => ?_⟩⟩
  · have he := execBlkreq_of_at (at_iff.2 h)
    exact ⟨fun hm => he.trans (by simp [hm]), fun hm => he.trans (by simp [hm])⟩
  · exact execBlkreq_of_not_at (Bool.eq_false_iff.2 (mt at_iff.1 h))

/-- Settles O25: BLKPOP acts in `C_WAIT` with a block queued. -/
theorem blockPop : Obligations.BlockPop := by
  refine ⟨by decide, fun s => ⟨fun k rest hq hf hk => ?_, fun h => ?_⟩⟩
  · exact ⟨_, execBlkpop_of_queued (at_iff.2 ⟨hq, hf⟩) hk, rfl, own_set s.own k .consumer⟩
  · refine execBlkpop_of_disabled (Bool.eq_false_iff.2 fun hen => h ?_)
    simpa [at_iff, and_assoc] using hen

/-! ### The producer's table (44_pdm_rx_credit_fifo.md R210) -/

@[simp] theorem handoffAttempt_rxState (s : State) (k : Half) :
    (s.handoffAttempt k).rxState = s.rxState := by rw [handoffAttempt_frame]

/-- An operation leaves `RX_STATE` alone or moves it along a row of the table. -/
theorem rxState_exec {i : Instr} (he : exec i s = .next t) :
    t.rxState = s.rxState ∨ ProducerEdge s i t.rxState := by
  cases i with
  | reset => cases he; exact .inr (by simp [ProducerEdge, State.reset])
  | cfgwr b v =>
    rcases execCfgwr_next he with rfl | ⟨-, r, -, rfl⟩
    · exact .inl rfl
    · exact .inl (by simp)
  | csrrd b => obtain ⟨r, -, rfl⟩ := execCsrrd_next he; exact .inl rfl
  | coefwr a b v =>
    rcases execCoefwr_next he with rfl | ⟨-, st, k, -, rfl⟩
    · exact .inl rfl
    · exact .inl (by simp)
  | init =>
    rcases execInit_next he with rfl | ⟨-, c, -, rfl⟩ | ⟨ho, -, rfl⟩
    · exact .inl rfl
    · exact .inl (by simp)
    · rcases (configOpen_iff.1 ho).1 with hr | hr <;> exact .inr (by simp [ProducerEdge, hr])
  | start =>
    rcases execStart_next he with rfl | ⟨hr, -, rfl⟩
    · exact .inl rfl
    · exact .inr (by simp [ProducerEdge, hr])
  | rxframe | rxframet | shutdown =>
    rcases linkCommand_next he with rfl | ⟨-, -, -, rfl⟩ <;> exact .inl rfl
  | pdmword w =>
    rcases execPdmword_next he with rfl | ⟨hr, -, -, ⟨hsd, rfl⟩ | ⟨-, -, -, rfl⟩ | ⟨-, -, rfl⟩⟩
    · exact .inl rfl
    · exact .inr (by simp [ProducerEdge, hr, hsd])
    · exact .inl rfl
    · exact .inl (handoffAttempt_rxState _ _)
  | handoff => rcases execHandoff_next he with rfl | ⟨-, -, -, rfl⟩ <;> exact .inl rfl
  | rxexit =>
    rcases execRxexit_next he with rfl | ⟨hr, -, rfl⟩
    · exact .inl rfl
    · exact .inr (by simp [ProducerEdge, hr])
  | blkreq => rcases execBlkreq_next he with rfl | ⟨-, -, rfl⟩ <;> exact .inl rfl
  | blkpop => rcases execBlkpop_next he with rfl | ⟨-, -, k, rest, -, rfl⟩ <;> exact .inl rfl
  | deint => rcases execDeint_next he with rfl | ⟨-, -, m, -, rfl⟩ <;> exact .inl rfl
  | chsel => rcases execChsel_next he with rfl | ⟨-, -, m, -, rfl⟩ <;> exact .inl rfl
  | firblk => rcases execFirblk_next he with rfl | ⟨-, -, b, -, -, rfl⟩ <;> exact .inl rfl
  | s1step a w => rcases execS1step_next he with rfl | ⟨-, -, c, v, y, -, rfl⟩ <;> exact .inl rfl
  | s2step a x => rcases execS2step_next he with rfl | ⟨-, -, c, o, -, rfl⟩ <;> exact .inl rfl
  | s3step a x => rcases execS3step_next he with rfl | ⟨-, -, -, c, o, -, rfl⟩ <;> exact .inl rfl
  | dcoe => rcases execDcoe_next he with rfl | ⟨-, -, ⟨-, rfl⟩ | ⟨-, rfl⟩⟩ <;> exact .inl rfl
  | frmadd => rcases execFrmadd_next he with rfl | ⟨-, -, m, -, ⟨-, rfl⟩ | ⟨-, rfl⟩⟩ <;> exact .inl rfl
  | frmtx => rcases execFrmtx_next he with rfl | ⟨-, -, ⟨-, rfl⟩ | ⟨ws, wt, -, -, rfl⟩⟩ <;> exact .inl rfl
  | unwind => rcases execUnwind_next he with rfl | ⟨-, -, rfl⟩ <;> exact .inl rfl
  | drain =>
    rcases execDrain_next he with rfl | ⟨-, -, ⟨k, rest, -, rfl⟩ | ⟨-, -, -, rfl⟩⟩ <;> exact .inl rfl

/-- Settles O46: INIT, START, PDMWORD, RXEXIT and RESET have their rows, no other operation moves `RX_STATE`. -/
theorem producerStatesMoveByTheTable : Obligations.ProducerStatesMoveByTheTable :=
  fun _ _ _ he hne => (rxState_exec he).resolve_left hne

/-! ### The overrun flag under the fatal drop policy (60_exceptions.md R331) -/

/-- The machine R331 speaks of: active, in interrupt-driven mode, a dropped block being a fatal stop. -/
def FatalDrop (s : State) : Prop :=
  s.active ∧ s.cfg.threadMode = false ∧ s.cfg.countAndDrop = false

/-- No queued half and no half held is the one being filled. -/
structure FillApart (s : State) : Prop where
  queued : ∀ h ∈ s.fifo, h ≠ s.fillSel
  held : s.cseq = .deint ∨ s.cseq = .chsel → s.cur ≠ s.fillSel

theorem noOverrunInv_iff : NoOverrunInv s ↔
    FlowInv s ∧ (FatalDrop s → Reliable s ∧ (s.fatal = false → FillApart s)) := by
  constructor
  · exact fun h => ⟨h.flow, fun ⟨ha, hm, hd⟩ => ⟨h.clear ha hm hd, fun hf =>
      ⟨h.queuedApart ha hm hd hf, h.heldApart ha hm hd hf⟩⟩⟩
  · exact fun ⟨hflow, h⟩ => ⟨hflow, fun ha hm hd => (h ⟨ha, hm, hd⟩).1,
      fun ha hm hd hf => ((h ⟨ha, hm, hd⟩).2 hf).queued, fun ha hm hd hf => ((h ⟨ha, hm, hd⟩).2 hf).held⟩

theorem FlowInv.noOverrun_of_not_active (h : FlowInv s) (ha : ¬ s.active) : NoOverrunInv s :=
  noOverrunInv_iff.2 ⟨h, fun hd => absurd hd.1 ha⟩

theorem noOverrunInv_afterInit (s : State) : NoOverrunInv s.afterInit :=
  noOverrunInv_iff.2 ⟨flowInv_afterInit s, fun _ =>
    ⟨flag_afterInit s (by decide), fun _ => ⟨by simp, by simp⟩⟩⟩

/-- What an operation does to the double buffer when it stores no word and queues no half: a half it makes the held
one was held or queued before. -/
structure FillsNothing (s t : State) : Prop where
  mode : t.active → s.active ∧ t.cfg = s.cfg
  overrun : t.flag .overrun = s.flag .overrun
  fatal : t.fatal = s.fatal
  fillSel : t.fillSel = s.fillSel
  fifo : t.fifo ⊆ s.fifo
  held : t.cseq = .deint ∨ t.cseq = .chsel →
    t.cur ∈ s.fifo ∨ (t.cur = s.cur ∧ (s.cseq = .deint ∨ s.cseq = .chsel))

/-- The consumer moves without taking a half. -/
theorem FillsNothing.of_sameFlow (f : SameFlow s t)
    (hheld : t.cseq = .deint ∨ t.cseq = .chsel → s.cseq = .deint ∨ s.cseq = .chsel) : FillsNothing s t where
  mode ha := ⟨active_of_eq f.rxState ha, f.cfg⟩
  overrun := f.overrun
  fatal := f.fatal
  fillSel := f.fillSel
  fifo := f.fifo ▸ List.Subset.refl _
  held hq := .inr ⟨f.cur, hheld hq⟩

theorem NoOverrunInv.transfer (h : NoOverrunInv s) (hflow : FlowInv t) (f : FillsNothing s t) :
    NoOverrunInv t := by
  refine noOverrunInv_iff.2 ⟨hflow, fun ⟨ha, hm, hd⟩ => ?_⟩
  obtain ⟨ha', hcfg⟩ := f.mode ha
  obtain ⟨hrel, hapart⟩ := (noOverrunInv_iff.1 h).2 ⟨ha', hcfg ▸ hm, hcfg ▸ hd⟩
  refine ⟨f.overrun.trans hrel, fun hf => ?_⟩
  have hs := hapart (f.fatal.symm.trans hf)
  refine ⟨fun k hk => ?_, fun hq => ?_⟩
  · rw [f.fillSel]; exact hs.queued k (f.fifo hk)
  · rw [f.fillSel]
    rcases f.held hq with hk | ⟨hcur, hq'⟩
    · exact hs.queued _ hk
    · rw [hcur]; exact hs.held hq'

/-- The half being filled is the producer's: it is neither queued nor held, and the tags say which halves are. -/
theorem FlowInv.own_fillSel (h : FlowInv s) (hrel : Reliable s) (hapart : FillApart s) :
    s.own[s.fillSel] = .producer := by
  cases ho : s.own[s.fillSel] with
  | producer => rfl
  | queued => exact absurd rfl (hapart.queued _ ((h.queued hrel _).1 ho))
  | consumer =>
    obtain ⟨hcur, hq⟩ := (h.held hrel _).1 ho
    exact absurd hcur.symm (hapart.held hq)

/-- The store of a word, the machine not stopped, leaves the overrun flag clear. -/
theorem NoOverrunInv.reliable_wordTaken (h : NoOverrunInv s) (hd : FatalDrop s) (hf : s.fatal = false)
    (w : Word) : Reliable (s.wordTaken w) := by
  obtain ⟨hflow, hdrop⟩ := noOverrunInv_iff.1 h
  obtain ⟨hrel, hapart⟩ := hdrop hd
  have hflag : s.flag .overrun = false := hrel
  have hown := hflow.own_fillSel hrel (hapart hf)
  exact (overrun_wordTaken s w).trans (by simp [hflag, hown])

/-- A credit not used up: the consumer is waiting and no block is queued (44_pdm_rx_credit_fifo.md R230). -/
theorem FlowInv.waiting_of_credit (h : FlowInv s) (ha : s.active) (hm : s.cfg.threadMode = false)
    (hc : 0 < s.credit.toNat) : s.cseq = .wait ∧ s.fifo = [] := by
  have hwait : s.cseq = .wait := by
    by_contra hne
    rw [(h.elsewhere ha hm hne).2] at hc
    exact absurd hc (by decide)
  have hsum := h.waiting ha hm hwait
  exact ⟨hwait, List.eq_nil_of_length_eq_zero (by omega)⟩

/-- A block completed under the fatal policy: with a credit it is the one block queued, in the half no longer being
filled; without one the machine stops. -/
theorem FlowInv.blockFilled_apart (h : FlowInv s) {w : Word} (hr : s.rxState = .running)
    (hm : s.cfg.threadMode = false) (hd : s.cfg.countAndDrop = false) (hrel : Reliable (s.wordTaken w))
    (ht : (s.blockFilled w).handoffAttempt s.fillSel = t) :
    Reliable t ∧ (t.fatal = false → FillApart t) := by
  rcases Nat.eq_zero_or_pos s.credit.toNat with hc | hc
  · rw [handoffAttempt_of_stop (s := s.blockFilled w) hm (BitVec.eq_of_toNat_eq hc) hd] at ht
    subst ht
    refine ⟨?_, fun hf => by simp at hf⟩
    rw [Reliable, State.flag_raiseFatal]
    exact (Bool.or_false _).trans hrel
  · rw [handoffAttempt_of_credit (s := s.blockFilled w) hm hc] at ht
    subst ht
    obtain ⟨hwait, hnil⟩ := h.waiting_of_credit (.inr (.inl hr)) hm hc
    refine ⟨hrel, fun _ => ⟨fun k hk => ?_, fun hheld => ?_⟩⟩
    · have hk' : k ∈ s.fifo ++ [s.fillSel] := hk
      rw [hnil, List.nil_append, List.mem_singleton] at hk'
      rw [hk']
      exact (other_half_ne s.fillSel).symm
    · have hheld' : s.cseq = .deint ∨ s.cseq = .chsel := hheld
      simp [hwait] at hheld'

/-- PDMWORD keeps the invariant. -/
theorem noOverrunInv_execPdmword {w : Word} (h : NoOverrunInv s) (hflow : FlowInv t)
    (he : execPdmword w s = .next t) : NoOverrunInv t := by
  rcases execPdmword_next he with rfl | ⟨hr, -, hf, ⟨-, rfl⟩ | ⟨-, -, -, rfl⟩ | ⟨-, -, rfl⟩⟩
  · exact h
  · exact h.transfer hflow ⟨fun _ => ⟨.inr (.inl hr), rfl⟩, rfl, rfl, rfl, List.Subset.refl _,
      fun hq => .inr ⟨rfl, hq⟩⟩
  · refine noOverrunInv_iff.2 ⟨hflow, fun hd => ⟨h.reliable_wordTaken hd hf w, fun _ => ?_⟩⟩
    have hs := ((noOverrunInv_iff.1 h).2 hd).2 hf
    exact ⟨hs.queued, hs.held⟩
  · refine noOverrunInv_iff.2 ⟨hflow, fun ⟨_, hm, hd⟩ => ?_⟩
    rw [handoffAttempt_frame] at hm hd
    exact h.flow.blockFilled_apart hr hm hd (h.reliable_wordTaken ⟨.inr (.inl hr), hm, hd⟩ hf w) rfl

/-- Every operation keeps the invariant. -/
theorem noOverrunInv_exec (i : Instr) (s t : State) (h : NoOverrunInv s) (he : exec i s = .next t) :
    NoOverrunInv t := by
  have hflow : FlowInv t := flowInv_exec i s t h.flow he
  cases i with
  | reset => cases he; exact hflow.noOverrun_of_not_active (by simp [State.active, State.reset])
  | cfgwr b v =>
    rcases execCfgwr_next he with rfl | ⟨ho, r, -, rfl⟩
    · exact h
    · exact hflow.noOverrun_of_not_active (mt (active_of_eq (by simp)) (not_active_of_configOpen ho))
  | csrrd b =>
    obtain ⟨r, -, rfl⟩ := execCsrrd_next he
    exact h.transfer hflow (.of_sameFlow ⟨rfl, rfl, rfl, rfl, rfl, rfl, rfl, rfl, rfl, rfl, rfl⟩ id)
  | coefwr a b v =>
    rcases execCoefwr_next he with rfl | ⟨ho, st, k, -, rfl⟩
    · exact h
    · exact hflow.noOverrun_of_not_active (mt (active_of_eq (by simp)) (not_active_of_configOpen ho))
  | init =>
    rcases execInit_next he with rfl | ⟨ho, c, -, rfl⟩ | ⟨-, -, rfl⟩
    · exact h
    · exact hflow.noOverrun_of_not_active (mt (active_of_eq (by simp)) (not_active_of_configOpen ho))
    · exact noOverrunInv_afterInit s
  | start =>
    rcases execStart_next he with rfl | ⟨ha, -, rfl⟩
    · exact h
    · exact h.transfer hflow ⟨fun _ => ⟨.inl ha, rfl⟩, rfl, rfl, rfl, List.Subset.refl _, by simp⟩
  | rxframe | rxframet | shutdown =>
    rcases linkCommand_next he with rfl | ⟨-, -, -, rfl⟩
    · exact h
    · exact h.transfer hflow (.of_sameFlow ⟨rfl, rfl, rfl, rfl, rfl, rfl, rfl, rfl, rfl, rfl, rfl⟩ id)
  | pdmword w => exact noOverrunInv_execPdmword h hflow he
  | handoff =>
    rcases execHandoff_next he with rfl | ⟨hp, -, -, rfl⟩
    · exact h
    · refine noOverrunInv_iff.2 ⟨hflow, fun ⟨ha, hm, _⟩ => ?_⟩
      have hnone : s.hoPend = false := h.flow.noPending ha hm
      simp [hnone] at hp
  | rxexit =>
    rcases execRxexit_next he with rfl | ⟨-, -, rfl⟩
    · exact h
    · exact hflow.noOverrun_of_not_active (by simp [State.active])
  | blkreq =>
    rcases execBlkreq_next he with rfl | ⟨-, -, rfl⟩
    · exact h
    · exact h.transfer hflow ⟨fun ha => ⟨ha, rfl⟩, rfl, rfl, rfl, List.Subset.refl _, by simp⟩
  | blkpop =>
    rcases execBlkpop_next he with rfl | ⟨-, -, k, rest, hk, rfl⟩
    · exact h
    · exact h.transfer hflow ⟨fun ha => ⟨ha, rfl⟩, rfl, rfl, rfl, by simp [hk], fun _ => .inl (by simp [hk])⟩
  | deint =>
    rcases execDeint_next he with rfl | ⟨hq, -, m, -, rfl⟩
    · exact h
    · exact h.transfer hflow (.of_sameFlow ⟨rfl, rfl, rfl, rfl, rfl, rfl, rfl, rfl, rfl, rfl, rfl⟩
        fun _ => .inl hq)
  | chsel =>
    rcases execChsel_next he with rfl | ⟨-, -, m, -, rfl⟩
    · exact h
    · exact h.transfer hflow ⟨fun ha => ⟨ha, rfl⟩, rfl, rfl, rfl, List.Subset.refl _, by simp⟩
  | firblk =>
    rcases execFirblk_next he with rfl | ⟨-, -, b, -, ⟨-, -, hmask⟩, rfl⟩
    · exact h
    · obtain ⟨hfatal, hover⟩ := flags_of_mask hmask
      refine h.transfer hflow (.of_sameFlow ⟨rfl, rfl, rfl, rfl, rfl, rfl, rfl, rfl, rfl, hfatal, hover⟩ ?_)
      cases b.valid <;> simp
  | s1step a w =>
    rcases execS1step_next he with rfl | ⟨-, -, c, v, y, -, rfl⟩
    · exact h
    · exact h.transfer hflow (.of_sameFlow ⟨rfl, rfl, rfl, rfl, rfl, rfl, rfl, rfl, rfl, rfl, rfl⟩ id)
  | s2step a x =>
    rcases execS2step_next he with rfl | ⟨-, -, c, o, -, rfl⟩
    · exact h
    · obtain ⟨hfatal, hover⟩ := flags_of_raise (s := s) (f := .s2sat) (on := o.sat) (.inl rfl) rfl
      exact h.transfer hflow (.of_sameFlow ⟨rfl, rfl, rfl, rfl, rfl, rfl, rfl, rfl, rfl, hfatal, hover⟩ id)
  | s3step a x =>
    rcases execS3step_next he with rfl | ⟨-, -, -, c, o, -, rfl⟩
    · exact h
    · obtain ⟨hfatal, hover⟩ := flags_of_raise (s := s) (f := .s3sat) (on := o.sat) (.inr (.inl rfl)) rfl
      exact h.transfer hflow (.of_sameFlow ⟨rfl, rfl, rfl, rfl, rfl, rfl, rfl, rfl, rfl, hfatal, hover⟩ id)
  | dcoe =>
    rcases execDcoe_next he with rfl | ⟨-, -, ⟨-, rfl⟩ | ⟨-, rfl⟩⟩
    · exact h
    · obtain ⟨hfatal, hover⟩ := flags_of_raise (s := s) (f := .dcovf)
        (on := dcoeColumnOverflows s.cfg.N_OUT s.ch) (.inr (.inr rfl)) rfl
      exact h.transfer hflow (.of_sameFlow ⟨rfl, rfl, rfl, rfl, rfl, rfl, rfl, rfl, rfl, hfatal, hover⟩ (by simp))
    · exact h.transfer hflow (.of_sameFlow ⟨rfl, rfl, rfl, rfl, rfl, rfl, rfl, rfl, rfl, rfl, rfl⟩ (by simp))
  | frmadd =>
    rcases execFrmadd_next he with rfl | ⟨-, -, m, -, ⟨-, rfl⟩ | ⟨-, rfl⟩⟩
    · exact h
    all_goals
      exact h.transfer hflow (.of_sameFlow ⟨rfl, rfl, rfl, rfl, rfl, rfl, rfl, rfl, rfl, rfl, rfl⟩ (by simp))
  | frmtx =>
    rcases execFrmtx_next he with rfl | ⟨-, -, ⟨-, rfl⟩ | ⟨ws, wt, -, -, rfl⟩⟩
    · exact h
    all_goals
      exact h.transfer hflow (.of_sameFlow ⟨rfl, rfl, rfl, rfl, rfl, rfl, rfl, rfl, rfl, rfl, rfl⟩ (by simp))
  | unwind =>
    rcases execUnwind_next he with rfl | ⟨-, -, rfl⟩
    · exact h
    · exact h.transfer hflow (.of_sameFlow ⟨rfl, rfl, rfl, rfl, rfl, rfl, rfl, rfl, rfl, rfl, rfl⟩ (by simp))
  | drain =>
    rcases execDrain_next he with rfl | ⟨hq, -, ⟨k, rest, hk, rfl⟩ | ⟨-, -, -, rfl⟩⟩
    · exact h
    · exact h.transfer hflow ⟨fun ha => ⟨ha, rfl⟩, rfl, rfl, rfl, by simp [hk], by simp [hq]⟩
    · exact h.transfer hflow (.of_sameFlow ⟨rfl, rfl, rfl, rfl, rfl, rfl, rfl, rfl, rfl, rfl, rfl⟩ (by simp))

/-- Settles O58: the agenda is no part of the invariant, and every operation keeps it. -/
theorem stepKeepsOverrunClear : Obligations.StepKeepsOverrunClear :=
  step_keeps (fun _ _ h => h.transfer (h.flow.same ⟨rfl, rfl, rfl, rfl, rfl, rfl⟩ rfl rfl fun _ => rfl)
    (.of_sameFlow ⟨rfl, rfl, rfl, rfl, rfl, rfl, rfl, rfl, rfl, rfl, rfl⟩ id)) noOverrunInv_exec

/-! ### Operations performed one after another -/

theorem performAll_cons_of_next {i : Instr} {is : List Instr} (h : exec i s = .next t) :
    performAll (i :: is) s = performAll is t := by simp [performAll, h]

theorem performAll_append_of_next {is js : List Instr} {u : State} (h : performAll is s = .next u)
    (h' : performAll js u = .next t) : performAll (is ++ js) s = .next t := by
  induction is generalizing s with
  | nil => cases h; exact h'
  | cons i is ih =>
    cases he : exec i s with
    | next v =>
      rw [performAll_cons_of_next he] at h
      rw [List.cons_append, performAll_cons_of_next he]
      exact ih h
    | fault e => simp [performAll, he] at h
    | refused r => simp [performAll, he] at h

/-! ### The consumer's operations of a shutdown (45_framing_transfer.md R255, R262, R263) -/

theorem execFrmtx_of_shutdown (h : s.at .frmtx = true) (hp : s.hostPend = .shutdown) :
    execFrmtx s = .next ({ s with cseq := .unwind }.exchange [.eom, .sdack]) := by
  simp [execFrmtx, h, hp]

theorem execUnwind_of_at (h : s.at .unwind = true) :
    execUnwind s = .next { s with rxSdFlag := true, cseq := .drain } := by simp [execUnwind, h]

theorem execDrain_of_queued (h : s.at .drain = true) {k : Half} {rest : List Half} (hk : s.fifo = k :: rest) :
    execDrain s = .next { s with fifo := rest, own := s.own.set k .producer } := by
  simp [execDrain, State.drainEnabled, h, hk]

theorem execDrain_of_empty (h : s.at .drain = true) (hk : s.fifo = []) (hr : s.rxState = .stopped)
    (hp : s.hoPend = false) : execDrain s =
      .next (({ s with hostPend := .none, cseq := .off }.exchange [.eom]).giveBack .shutdownDone) := by
  simp [execDrain, State.drainEnabled, h, hk, hr, hp]

/-! ### A shutdown from end to end (45_framing_transfer.md R264, R266) -/

/-- The tags after the halves of a list are given back to the producer one after another. -/
def releaseAll (own : Vector Owner 2) (q : List Half) : Vector Owner 2 :=
  q.foldl (fun (o : Vector Owner 2) (k : Half) => o.set k .producer) own

theorem getElem_releaseAll (own : Vector Owner 2) (q : List Half) (h : Half) :
    (releaseAll own q)[h] = if h ∈ q then .producer else own[h] := by
  induction q generalizing own with
  | nil => simp [releaseAll]
  | cons k rest ih =>
    have hcons : releaseAll own (k :: rest) = releaseAll (own.set k .producer) rest := rfl
    rw [hcons, ih, getElem_set_fin]
    by_cases hr : h ∈ rest <;> by_cases hk : h = k <;> simp [hr, hk]

theorem releaseAll_append (own : Vector Owner 2) (p q : List Half) :
    releaseAll own (p ++ q) = releaseAll (releaseAll own p) q := List.foldl_append

/-- The half whose hand-off is pending, if there is one. -/
def State.pendingHalves (s : State) : List Half := if s.hoPend then [s.hoHalf] else []

theorem mem_pendingHalves {h : Half} : h ∈ s.pendingHalves ↔ s.hoPend = true ∧ h = s.hoHalf := by
  unfold State.pendingHalves
  split <;> simp_all

/-- The frame discarded and the shutdown flag raised. -/
def State.unwound (s : State) : State :=
  { s with cseq := .drain, rxSdFlag := true, link := s.link ++ [.eom, .sdack] }

/-- The FIFO emptied, its halves given back. -/
def State.emptied (s : State) : State := { s with fifo := [], own := releaseAll s.own s.fifo }

/-- The pending hand-off done and its block discarded. -/
def State.unblocked (s : State) : State :=
  { s with hoPend := false, own := releaseAll s.own s.pendingHalves }

theorem performAll_unwinding (hq : s.cseq = .frmtx) (hp : s.hostPend = .shutdown) (hf : s.fatal = false) :
    performAll [.frmtx, .unwind] s = .next s.unwound := by
  rw [performAll_cons_of_next (i := .frmtx) (execFrmtx_of_shutdown (at_iff.2 ⟨hq, hf⟩) hp),
    performAll_cons_of_next (i := .unwind) (execUnwind_of_at ?_)]
  · rfl
  · exact at_iff.2 ⟨rfl, hf⟩

/-- One DRAIN for each queued block. -/
theorem performAll_drains (hq : s.cseq = .drain) (hf : s.fatal = false) :
    performAll (List.replicate s.fifo.length .drain) s = .next s.emptied := by
  unfold State.emptied
  generalize hk : s.fifo = q
  induction q generalizing s with
  | nil =>
    show Host.Outcome.next s = .next { s with fifo := [] }
    rw [← hk]
  | cons k rest ih =>
    rw [List.length_cons, List.replicate_succ,
      performAll_cons_of_next (i := .drain) (execDrain_of_queued (at_iff.2 ⟨hq, hf⟩) hk)]
    exact ih (s := { s with fifo := rest, own := s.own.set k .producer }) hq hf rfl

/-- A pending hand-off completes on the empty FIFO (44_pdm_rx_credit_fifo.md R221), and the block is discarded. -/
theorem performAll_pending (hq : s.cseq = .drain) (hf : s.fatal = false) (hk : s.fifo = []) :
    performAll (if s.hoPend then [.handoff, .drain] else []) s = .next s.unblocked := by
  unfold State.unblocked State.pendingHalves
  cases hp : s.hoPend with
  | false =>
    show Host.Outcome.next s = .next { s with hoPend := false }
    rw [← hp]
  | true =>
    have hen : s.handoffEnabled = true := handoffEnabled_iff.2 ⟨hp, by simp [hk], hf⟩
    rw [if_pos rfl, if_pos rfl, performAll_cons_of_next (i := .handoff) (execHandoff_of_enabled hen),
      performAll_cons_of_next (i := .drain) (execDrain_of_queued (k := s.hoHalf) (rest := []) ?_ ?_)]
    · simp [performAll, releaseAll, hk]
    · exact at_iff.2 ⟨hq, hf⟩
    · simp [hk]

/-- With nothing queued and nothing pending the next word finds the flag, the producer stops and the last DRAIN
releases the host. -/
theorem performAll_stopping (w : Word) (hq : s.cseq = .drain) (hr : s.rxState = .running)
    (hf : s.fatal = false) (hk : s.fifo = []) (hp : s.hoPend = false) (hsd : s.rxSdFlag = true) :
    performAll [.pdmword w, .rxexit, .drain] s = .next { s with
      rxState := .stopped, hostPend := .none, cseq := .off, link := s.link ++ [.eom],
      returned := s.returned ++ [.shutdownDone] } := by
  have hen : s.wordEnabled = true := wordEnabled_iff.2 ⟨hr, hp, hf⟩
  rw [performAll_cons_of_next (i := Instr.pdmword w) (execPdmword_of_flagged w hen hsd),
    performAll_cons_of_next (i := .rxexit) (execRxexit_of_enabled ?_),
    performAll_cons_of_next (i := .drain) (execDrain_of_empty ?_ ?_ ?_ ?_)]
  · rfl
  · exact at_iff.2 ⟨hq, hf⟩
  · exact hk
  · rfl
  · exact hp
  · exact exitEnabled_iff.2 ⟨rfl, hf⟩

/-- Under the flow-control invariant no credit is out while the consumer delivers a frame, and, the overrun flag
clear, every half that is not queued is the producer's (44_pdm_rx_credit_fifo.md R230). -/
theorem FlowInv.at_frmtx (h : FlowInv s) (hq : s.cseq = .frmtx) (ha : s.active) :
    s.credit = 0 ∧ (Reliable s → ∀ k : Half, s.own[k] = .producer ∨ k ∈ s.fifo) := by
  refine ⟨?_, fun hrel k => ?_⟩
  · cases hm : s.cfg.threadMode with
    | false => exact (h.elsewhere ha hm (by simp [hq])).2
    | true => exact h.noCredit ha hm
  · cases ho : s.own[k] with
    | producer => exact .inl rfl
    | queued => exact .inr ((h.queued hrel k).1 ho)
    | consumer =>
      have hheld := ((h.held hrel k).1 ho).2
      simp [hq] at hheld

/-- The tags at the end of a shutdown: the queued halves and the pending one are the producer's. -/
theorem own_shutdown (s : State) (h : Half) : s.unwound.emptied.unblocked.own[h] =
    if h ∈ s.fifo ∨ (s.hoPend = true ∧ h = s.hoHalf) then .producer else s.own[h] := by
  show (releaseAll (releaseAll s.own s.fifo) s.pendingHalves)[h] = _
  simp only [← releaseAll_append, getElem_releaseAll, List.mem_append, mem_pendingHalves]

/-- Settles O45: the four parts of the shutdown one after another. -/
theorem shutdownCompletes : Obligations.ShutdownCompletes := by
  intro s w hq hhost hr hf
  have hback : (∀ h : Half, s.own[h] = .producer ∨ h ∈ s.fifo) →
      ∀ h : Half, s.unwound.emptied.unblocked.own[h] = .producer := by
    intro hall h
    rw [own_shutdown]
    split
    · rfl
    · rename_i hout
      exact (hall h).resolve_right (mt Or.inl hout)
  have hrun := performAll_append_of_next (performAll_append_of_next (performAll_append_of_next
    (performAll_unwinding hq hhost hf)
    (performAll_drains (s := s.unwound) rfl hf))
    (performAll_pending (s := s.unwound.emptied) rfl hf rfl))
    (performAll_stopping (s := s.unwound.emptied.unblocked) w rfl hr hf rfl rfl rfl)
  refine ⟨_, hrun, ?_, own_shutdown s, hback, fun hflow => ?_⟩
  · simp [State.unwound, State.emptied, State.unblocked]
  · obtain ⟨hc, hall⟩ := hflow.at_frmtx hq (.inr (.inl hr))
    exact ⟨hc, fun hrel => hback (hall hrel)⟩

end Sys2Proof.Machine

/-! Statements of the family 45_framing_transfer.md: the frame link commands, the column FRMADD adds to the frame,
FRMTX without a frame, UNWIND and DRAIN. First one rule for each operation whose guard is open, then the
statements. -/

namespace Sys2Proof.Machine

variable {s : State}

/-! ### The frame link commands (45_framing_transfer.md R257, R258, R260, R261) -/

theorem linkOpen_iff :
    s.linkOpen = true ↔ (s.rxState = .armed ∨ s.rxState = .running) ∧ s.fatal = false := by
  simp [State.linkOpen]

theorem linkCommand_of_waiting (p : HostPend) (hp : s.hostPend ≠ .none) :
    linkCommand p s = .fault .hostMisuse := by simp [linkCommand, hp]

theorem linkCommand_of_open (p : HostPend) (hp : s.hostPend = .none) (ho : s.linkOpen = true) :
    linkCommand p s = .next { s with hostPend := p } := by simp [linkCommand, hp, ho]

/-- Settles O16: the three commands are one rule, and it looks at `HOST_PEND` first. -/
theorem linkMisuseFaults : Obligations.LinkMisuseFaults := fun _ hp =>
  ⟨linkCommand_of_waiting .rxframe hp, linkCommand_of_waiting .rxframet hp, linkCommand_of_waiting .shutdown hp⟩

/-- Settles O15: the three commands by the state of the link. -/
theorem linkCommandsWait : Obligations.LinkCommandsWait := by
  refine fun s hp => ⟨fun h => ?accepted, fun h => ?closed⟩
  case accepted =>
    have ho : s.linkOpen = true := linkOpen_iff.2 h
    exact ⟨linkCommand_of_open .rxframe hp ho, linkCommand_of_open .rxframet hp ho,
      linkCommand_of_open .shutdown hp ho⟩
  case closed =>
    have hguard : (s.linkOpen && s.hostPend == .none) = false := by
      rw [Bool.eq_false_iff.2 (mt linkOpen_iff.1 h), Bool.false_and]
    exact ⟨linkCommand_of_closed .rxframe hp hguard, linkCommand_of_closed .rxframet hp hguard,
      linkCommand_of_closed .shutdown hp hguard⟩

/-! ### The column FRMADD adds (45_framing_transfer.md R252) -/

/-- Within one column of one buffer the frame index tells the channels apart. -/
theorem CfgRegs.frmIndex_inj {g : CfgRegs} {b c d k : Nat} (hpos : 0 < g.SPF)
    (h : g.frmIndex b c k = g.frmIndex b d k) : c = d := by
  unfold CfgRegs.frmIndex at h
  exact Nat.eq_of_mul_eq_mul_right hpos (by omega)

theorem addSample_of_lt (hbuf : s.frmBuf.toNat < s.cfg.NFB) (hcol : s.frmCol.toNat < s.cfg.SPF) {c : Nat}
    {i : Fin 16} (hi : i.val = c) (hc : c < s.cfg.N_OUT) (m : Memory) : addSample s c m =
      .ok (m.write (s.cfg.frmIndex s.frmBuf.toNat c s.frmCol.toNat) s.ch[i].smp) := by
  simp only [addSample, channelIndex_eq_ok.2 hi]
  exact store_eq_ok.2 ⟨CfgRegs.frmIndex_lt hbuf hc hcol, rfl⟩

/-- The loop over the channels writes their samples into the column and leaves every other word. -/
theorem column_spec (hout : s.cfg.N_OUT ≤ 16) (hbuf : s.frmBuf.toNat < s.cfg.NFB)
    (hcol : s.frmCol.toNat < s.cfg.SPF) : ∃ m, forRange s.cfg.N_OUT (addSample s) s.frm = .ok m ∧
      (∀ c : Fin 16, c.val < s.cfg.N_OUT →
        m.read (s.cfg.frmIndex s.frmBuf.toNat c s.frmCol.toNat) = some s.ch[c].smp) ∧
      ∀ i, (∀ c < s.cfg.N_OUT, i ≠ s.cfg.frmIndex s.frmBuf.toNat c s.frmCol.toNat) →
        m.read i = s.frm.read i := by
  obtain ⟨m, hm, hnew, hold⟩ := forRange_store (f := addSample s)
    (a := fun c => s.cfg.frmIndex s.frmBuf.toNat c s.frmCol.toNat) (v := fun c => s.ch[Fin.ofNat 16 c].smp)
    (fun c hc => addSample_of_lt (i := Fin.ofNat 16 c) hbuf hcol (Nat.mod_eq_of_lt (hc.trans_le hout)) hc)
    (fun c _ d _ he => CfgRegs.frmIndex_inj (Nat.zero_lt_of_lt hcol) he) s.frm
  refine ⟨m, hm, fun c hc => (hnew c hc).trans ?_, hold⟩
  exact congrArg (fun i : Fin 16 => some s.ch[i].smp) (Fin.ofNat_val_eq_self c)

theorem execFrmadd_of_column (hat : s.at .frmadd = true) {m : Memory}
    (hm : forRange s.cfg.N_OUT (addSample s) s.frm = .ok m) : execFrmadd s = .next { s with
      frm := m
      frmCol := if s.frmCol.toNat = s.cfg.SPF - 1 then 0 else s.frmCol + 1
      cseq := if s.frmCol.toNat = s.cfg.SPF - 1 then .frmtx else .req } := by
  simp only [execFrmadd, hat, hm, if_true]
  split <;> rfl

/-- `FRM_COL` counts the columns of a legal frame without a wrap: `SPF` fits it. -/
theorem LegalCfg.nextColumn {g : CfgRegs} (h : LegalCfg g) {k : BitVec 16} (hk : k.toNat < g.SPF) :
    (k + 1).toNat = k.toNat + 1 := by
  have hspf : 1 ≤ g.SPF ∧ g.SPF ≤ 65535 := h _ (by simp [initConditions, CfgRegs.SPF])
  have hadd : (k + 1).toNat = (k.toNat + 1) % 2 ^ 16 := BitVec.toNat_add k 1
  rw [hadd, Nat.mod_eq_of_lt (by omega)]

/-- Settles O40: the loop over the channels, and the count of columns. -/
theorem frameColumnAdded : Obligations.FrameColumnAdded := by
  refine ⟨by decide, fun s hs => ?closed, fun s hq hf hl hcol hbuf => ?added⟩
  case closed => exact execFrmadd_of_not_at (Bool.eq_false_iff.2 (mt at_iff.1 hs))
  case added =>
    obtain ⟨-, hout, -⟩ := hl.channels
    obtain ⟨m, hm, hnew, hold⟩ := column_spec hout hbuf hcol
    exact ⟨_, execFrmadd_of_column (at_iff.2 ⟨hq, hf⟩) hm, rfl, hnew, hold,
      fun hlast => ⟨if_pos hlast, if_pos hlast⟩,
      fun hmore => ⟨(congrArg BitVec.toNat (if_neg hmore)).trans (hl.nextColumn hcol), if_neg hmore⟩⟩

/-! ### FRMTX without a frame, UNWIND, DRAIN (45_framing_transfer.md R255, R262, R263) -/

/-- Settles O42: the branch of the waiting SHUTDOWN, and the wait for a command. -/
theorem shutdownSeenAtAFrameBoundary : Obligations.ShutdownSeenAtAFrameBoundary :=
  ⟨by decide, fun _ hq hf => ⟨fun hp => execFrmtx_of_shutdown (at_iff.2 ⟨hq, hf⟩) hp,
    fun hp => execFrmtx_of_disabled (by simp [hp])⟩⟩

/-- Settles O43: UNWIND at its place in `CSEQ`, and elsewhere. -/
theorem unwindRaisesTheFlag : Obligations.UnwindRaisesTheFlag :=
  ⟨by decide, fun _ => ⟨fun h => execUnwind_of_at (at_iff.2 h),
    fun h => execUnwind_of_not_at (Bool.eq_false_iff.2 (mt at_iff.1 h))⟩⟩

theorem drainEnabled_iff : s.drainEnabled = true ↔
    (s.cseq = .drain ∧ s.fatal = false) ∧ (s.fifo ≠ [] ∨ s.rxState = .stopped ∧ s.hoPend = false) := by
  simp [State.drainEnabled, at_iff]

/-- Settles O44: a block to discard, the release, and the wait for the producer. -/
theorem drainDiscardsThenReleases : Obligations.DrainDiscardsThenReleases := by
  refine ⟨by decide, fun s hs => ?elsewhere, fun s hq hf =>
    ⟨fun k rest hk => ?discard, fun hk hdone => ?release, fun hk hwait => ?wait⟩⟩
  case elsewhere => exact execDrain_of_disabled (Bool.eq_false_iff.2 fun hen => hs (drainEnabled_iff.1 hen).1)
  case discard => exact ⟨_, execDrain_of_queued (at_iff.2 ⟨hq, hf⟩) hk, rfl, own_set s.own k .producer⟩
  case release => exact execDrain_of_empty (at_iff.2 ⟨hq, hf⟩) hk hdone.1 hdone.2
  case wait =>
    refine execDrain_of_disabled (Bool.eq_false_iff.2 fun hen => ?_)
    exact (drainEnabled_iff.1 hen).2.elim (fun hne => hne hk) hwait

end Sys2Proof.Machine

/-! Statements of the family 46_control_sequencer.md: the host commands that are ignored out of their place, and
START. -/

namespace Sys2Proof.Machine

variable {s : State}

/-! ### Commands out of their place, and START (46_control_sequencer.md R280, R290) -/

theorem startOpen_iff : s.startOpen = true ↔ s.rxState = .armed ∧ s.fatal = false := by
  simp [State.startOpen]

theorem execStart_of_open (h : s.startOpen = true) :
    execStart s = .next { s with rxState := .running, cseq := .req } := by
  simp [execStart, h]

theorem execStart_of_not_armed (h : ¬ (s.rxState = .armed ∧ s.fatal = false)) : execStart s = .next s :=
  execStart_of_closed (Bool.eq_false_iff.2 (mt startOpen_iff.1 h))

/-- Settles O12: the three configuration commands share one guard, START has its own. -/
theorem lockedCommandsAreIgnored : Obligations.LockedCommandsAreIgnored := by
  refine fun s => ⟨fun h => ?configuration, execStart_of_not_armed⟩
  case configuration =>
    have hlocked : s.configOpen = false := Bool.eq_false_iff.2 (mt configOpen_iff.1 h)
    exact ⟨fun _ v hb => execCfgwr_of_locked v hb hlocked,
      fun _ _ v ha hb => execCoefwr_of_locked v ha hb hlocked, execInit_of_locked hlocked⟩

/-- Settles O14: START by its guard. -/
theorem startBeginsBothContexts : Obligations.StartBeginsBothContexts :=
  ⟨by decide, fun _ => ⟨fun h => execStart_of_open (startOpen_iff.2 h), execStart_of_not_armed⟩⟩

end Sys2Proof.Machine

/-! Statements of the family 60_exceptions.md: the fatal stop disables every operation, and what each agent may write. -/

namespace Sys2Proof.Machine

variable {s t : State}

/-! ### The fatal stop (60_exceptions.md R322) -/

/-! Every guard asks that `FATAL` is clear. -/

theorem configOpen_of_fatal (hf : s.fatal = true) : s.configOpen = false := by simp [State.configOpen, hf]
theorem startOpen_of_fatal (hf : s.fatal = true) : s.startOpen = false := by simp [State.startOpen, hf]
theorem linkOpen_of_fatal (hf : s.fatal = true) : s.linkOpen = false := by simp [State.linkOpen, hf]
theorem wordEnabled_of_fatal (hf : s.fatal = true) : s.wordEnabled = false := by simp [State.wordEnabled, hf]
theorem handoffEnabled_of_fatal (hf : s.fatal = true) : s.handoffEnabled = false := by
  simp [State.handoffEnabled, hf]
theorem exitEnabled_of_fatal (hf : s.fatal = true) : s.exitEnabled = false := by simp [State.exitEnabled, hf]
theorem unitEnabled_of_fatal (hf : s.fatal = true) : s.unitEnabled = false := by simp [State.unitEnabled, hf]
theorem at_of_fatal (hf : s.fatal = true) (q : CSeq) : s.at q = false := by simp [State.at, hf]
theorem drainEnabled_of_fatal (hf : s.fatal = true) : s.drainEnabled = false := by
  simp [State.drainEnabled, at_of_fatal hf]

theorem acts_of_fatal {i : Instr} (hf : s.fatal = true) (hreset : i ≠ .reset) (hcsrrd : ∀ b, i ≠ .csrrd b) :
    acts i s = false := by
  cases i with
  | reset => exact absurd rfl hreset
  | csrrd b => exact absurd rfl (hcsrrd b)
  | cfgwr | coefwr | init => exact configOpen_of_fatal hf
  | start => exact startOpen_of_fatal hf
  | rxframe | rxframet | shutdown => exact Bool.and_eq_false_iff.2 (.inl (linkOpen_of_fatal hf))
  | pdmword => exact wordEnabled_of_fatal hf
  | handoff => exact handoffEnabled_of_fatal hf
  | rxexit => exact exitEnabled_of_fatal hf
  | s1step | s2step => exact unitEnabled_of_fatal hf
  | s3step => exact Bool.and_eq_false_iff.2 (.inl (unitEnabled_of_fatal hf))
  | blkpop | frmtx => exact Bool.and_eq_false_iff.2 (.inl (at_of_fatal hf _))
  | drain => exact drainEnabled_of_fatal hf
  | blkreq | deint | chsel | firblk | dcoe | frmadd | unwind => exact at_of_fatal hf _

/-- An operation with an operand out of range is refused. -/
theorem wellFormed_of_next {i : Instr} (he : exec i s = .next t) : i.wellFormed = true := by
  cases i with
  | cfgwr b v =>
    cases hr : regOfIndex b with
    | none => simp [exec, execCfgwr, hr] at he
    | some r => simpa [Instr.wellFormed, hr] using regOfIndex_isSome b
  | csrrd b =>
    obtain ⟨r, hr, -⟩ := execCsrrd_next he
    simpa [Instr.wellFormed, hr] using regOfIndex_isSome b
  | coefwr a b v =>
    have ha := stageOf_isSome a
    have hb := tapOf_isSome b
    cases hst : stageOf a with
    | none => simp [exec, execCoefwr, hst] at he
    | some st =>
      cases hk : tapOf b with
      | none => simp [exec, execCoefwr, hst, hk] at he
      | some k => simp [Instr.wellFormed, ← ha, ← hb, hst, hk]
  | s1step a x | s2step a x | s3step a x =>
    cases hc : channelOf a with
    | none => simp [exec, execS1step, execS2step, execS3step, hc] at he
    | some c => simpa [Instr.wellFormed, hc] using channelOf_isSome a
  | _ => rfl

/-- A link command that goes on found no other command waiting. -/
theorem hostPend_of_next {i : Instr} (hl : isLinkCommand i = true) (he : exec i s = .next t) :
    s.hostPend = .none := by
  by_contra hp
  obtain ⟨h1, h2, h3⟩ := linkMisuseFaults s hp
  cases i with
  | rxframe => cases h1.symm.trans he
  | rxframet => cases h2.symm.trans he
  | shutdown => cases h3.symm.trans he
  | _ => cases hl

/-- Settles O48: after a fatal stop no operation acts, and one that does not act changes nothing. -/
theorem fatalStopFreezes : Obligations.FatalStopFreezes := by
  intro i s t hf hreset hcsrrd he
  have hsame : exec i s = .next s := disabledOperationsChangeNothing i s (wellFormed_of_next he)
    (acts_of_fatal hf hreset hcsrrd) fun hl => hostPend_of_next hl he
  cases hsame.symm.trans he; rfl

/-! ### The host's commands (60_exceptions.md R340, 46_control_sequencer.md R285) -/

theorem writeCoef_frame (s : State) (st : Stage) (k : Nat) (v : Word) :
    s.writeCoef st k v = { s with
      coef1 := (s.writeCoef st k v).coef1, coef2 := (s.writeCoef st k v).coef2,
      coef3 := (s.writeCoef st k v).coef3 } := by cases st <;> rfl

/-- Settles O53: CFGWR and COEFWR write their tables, CSRRD returns a value, START moves the two sequencers and a link
command waits in `HOST_PEND`. -/
theorem hostRights : Obligations.HostRights := by
  intro i s t hagent hreset hinit he
  cases i with
  | reset => exact absurd rfl hreset
  | init => exact absurd rfl hinit
  | cfgwr b v =>
    rcases execCfgwr_next he with rfl | ⟨-, r, -, rfl⟩
    · rfl
    · rw [writeReg_frame]
  | csrrd b => obtain ⟨r, -, rfl⟩ := execCsrrd_next he; rfl
  | coefwr a b v =>
    rcases execCoefwr_next he with rfl | ⟨-, st, k, -, rfl⟩
    · rfl
    · rw [writeCoef_frame]
  | start => rcases execStart_next he with rfl | ⟨-, -, rfl⟩ <;> rfl
  | rxframe | rxframet | shutdown => rcases linkCommand_next he with rfl | ⟨-, -, -, rfl⟩ <;> rfl
  | _ => cases hagent

/-! ### The producer's operations (60_exceptions.md R340, 44_pdm_rx_credit_fifo.md R212 to R224) -/

/-- A hand-off appends to the FIFO or leaves it. -/
theorem fifo_prefix_handoffAttempt (s : State) (k : Half) : s.fifo <+: (s.handoffAttempt k).fifo := by
  rcases s.handoffAttempt_cases k with ⟨-, -, e⟩ | ⟨-, -, -, e⟩ | ⟨-, -, -, e⟩ | ⟨-, -, e⟩ | ⟨-, -, e⟩ <;>
    rw [e]
  case inl | inr.inr.inr.inl => exact List.prefix_append _ _
  case inr.inr.inl => rw [State.raiseFatal_fifo]

/-- The store of a word leaves the half that is not being filled. -/
theorem buf_wordTaken_ne (s : State) (w : Word) {h : Half} (hne : h ≠ s.fillSel) :
    (s.wordTaken w).buf[h] = s.buf[h] := getElem_set_fin_ne _ _ hne

/-- Settles O51: a PDMWORD stores in the half being filled and hands it off when it is full; HANDOFF queues the
pending half. -/
theorem producerRights : Obligations.ProducerRights := by
  intro i s t hagent he
  cases i with
  | pdmword w =>
    rcases execPdmword_next he with rfl | ⟨-, -, -, ⟨-, rfl⟩ | ⟨-, -, -, rfl⟩ | ⟨-, -, rfl⟩⟩
    · exact ⟨rfl, fun _ _ => rfl, List.prefix_rfl⟩
    · exact ⟨rfl, fun _ _ => rfl, List.prefix_rfl⟩
    · exact ⟨rfl, fun _ => buf_wordTaken_ne s w, List.prefix_rfl⟩
    · refine ⟨by rw [handoffAttempt_frame]; rfl, fun h hne => ?_, fifo_prefix_handoffAttempt (s.blockFilled w) _⟩
      rw [handoffAttempt_frame]
      exact buf_wordTaken_ne s w hne
  | handoff =>
    rcases execHandoff_next he with rfl | ⟨-, -, -, rfl⟩
    · exact ⟨rfl, fun _ _ => rfl, List.prefix_rfl⟩
    · exact ⟨rfl, fun _ _ => rfl, List.prefix_append _ _⟩
  | rxexit =>
    rcases execRxexit_next he with rfl | ⟨-, -, rfl⟩ <;> exact ⟨rfl, fun _ _ => rfl, List.prefix_rfl⟩
  | _ => rcases hagent with h | h <;> cases h

/-! ### The consumer's operations (60_exceptions.md R340, 46_control_sequencer.md R296) -/

/-- What an operation of the consumer can do: it writes registers of its own, takes a block from the front of the FIFO,
rewrites the current half, raises an arithmetic flag and takes the host's command. -/
structure ConsumerEffect (s t : State) : Prop where
  frame : t = { s with
    cseq := t.cseq, cur := t.cur, credit := t.credit, fifo := t.fifo, own := t.own, rxSdFlag := t.rxSdFlag,
    hostPend := t.hostPend, frmCol := t.frmCol, frmBuf := t.frmBuf, status := t.status, smpValid := t.smpValid,
    ch := t.ch, buf := t.buf, ob := t.ob, frm := t.frm, returned := t.returned, link := t.link,
    freeTick := t.freeTick }
  hostPend : t.hostPend = s.hostPend ∨ t.hostPend = .none
  fifo : t.fifo <:+ s.fifo
  buf : ∀ h : Half, h ≠ s.cur → t.buf[h] = s.buf[h]
  flags : t.fatal = s.fatal ∧ t.flag .overrun = s.flag .overrun

theorem ConsumerEffect.refl (s : State) : ConsumerEffect s s :=
  ⟨rfl, .inl rfl, List.suffix_rfl, fun _ _ => rfl, rfl, rfl⟩

theorem consumerEffect_exec {i : Instr} (hagent : agentOf i = .consumer) (he : exec i s = .next t) :
    ConsumerEffect s t := by
  cases i with
  | blkreq =>
    rcases execBlkreq_next he with rfl | ⟨-, -, rfl⟩
    · exact .refl t
    · exact { ConsumerEffect.refl s with frame := rfl }
  | blkpop =>
    rcases execBlkpop_next he with rfl | ⟨-, -, k, rest, hk, rfl⟩
    · exact .refl t
    · exact { ConsumerEffect.refl s with frame := rfl, fifo := hk ▸ List.suffix_cons k rest }
  | deint =>
    rcases execDeint_next he with rfl | ⟨-, -, m, -, rfl⟩
    · exact .refl t
    · exact { ConsumerEffect.refl s with frame := rfl, buf := fun _ hne => getElem_set_fin_ne _ _ hne }
  | chsel =>
    rcases execChsel_next he with rfl | ⟨-, -, m, -, rfl⟩
    · exact .refl t
    · exact { ConsumerEffect.refl s with frame := rfl }
  | firblk =>
    rcases execFirblk_next he with rfl | ⟨-, -, b, -, ⟨-, -, hmask⟩, rfl⟩
    · exact .refl t
    · exact { ConsumerEffect.refl s with frame := rfl, flags := flags_of_mask hmask }
  | dcoe =>
    rcases execDcoe_next he with rfl | ⟨-, -, ⟨-, rfl⟩ | ⟨-, rfl⟩⟩
    · exact .refl t
    · exact { ConsumerEffect.refl s with frame := rfl, flags := flags_of_raise (f := .dcovf) (.inr (.inr rfl)) rfl }
    · exact { ConsumerEffect.refl s with frame := rfl }
  | frmadd =>
    rcases execFrmadd_next he with rfl | ⟨-, -, m, -, ⟨-, rfl⟩ | ⟨-, rfl⟩⟩
    · exact .refl t
    all_goals exact { ConsumerEffect.refl s with frame := rfl }
  | frmtx =>
    rcases execFrmtx_next he with rfl | ⟨-, -, ⟨-, rfl⟩ | ⟨ws, wt, -, -, rfl⟩⟩
    · exact .refl t
    · exact { ConsumerEffect.refl s with frame := rfl }
    · exact { ConsumerEffect.refl s with frame := rfl, hostPend := .inr rfl }
  | unwind =>
    rcases execUnwind_next he with rfl | ⟨-, -, rfl⟩
    · exact .refl t
    · exact { ConsumerEffect.refl s with frame := rfl }
  | drain =>
    rcases execDrain_next he with rfl | ⟨-, -, ⟨k, rest, hk, rfl⟩ | ⟨-, -, -, rfl⟩⟩
    · exact .refl t
    · exact { ConsumerEffect.refl s with frame := rfl, fifo := hk ▸ List.suffix_cons k rest }
    · exact { ConsumerEffect.refl s with frame := rfl, hostPend := .inr rfl }
  | _ => cases hagent

/-- Settles O52: what the ten operations of the consumer can do, all together. -/
theorem consumerRights : Obligations.ConsumerRights := by
  intro i s t hagent he
  obtain ⟨hframe, hpend, hfifo, hbuf, hflags⟩ := consumerEffect_exec hagent he
  refine ⟨?_, ?_, ?_, ?_, ?_, ?_, ?_, ?_, ?_, ?_, ?_, hpend, hfifo, hbuf, hflags⟩ <;> rw [hframe]

end Sys2Proof.Machine
